-- ==== Sys2Proof/Word.lean ====
section
/-! DEFINITION. The widths of the RLC block's data (00_scope.md R6, R7): bytes, 32-bit words, and the three
channel words (30_encoding.md R90, R96, R98). -/

namespace Sys2Proof

/-- One element of `BLOCK`, `BORD` or `MTF` (10_state.md R37). -/
abbrev Byte := BitVec 8

/-- One element of `STRIPE`, `PTR` or `BT`, one CSR, one operand field (R6 "word width", R23, R92). -/
abbrev Word := BitVec 32

/-- One word of the command channel (R90). -/
abbrev CommandWord := BitVec 128

/-- One word of the response channel (R96). -/
abbrev Response := BitVec 64

/-- One word of the token channel (R98). -/
abbrev Token := BitVec 16

end Sys2Proof
end

