-- ==== Sys2Proof/Syntax.lean ====
section
/-! DEFINITION. The 29 commands of the opcode map (30_encoding.md R94), one constructor each. Operands are the whole
32-bit fields `A`, `B`, `C` of the command word, in that order (R9, R92, R102). -/

namespace Sys2Proof

/-- One command. The word "instruction" reads as "command" (00_scope.md R2). -/
inductive Instr where
  /-- `NOP` (R220). -/
  | nop
  /-- `CFG n` (R221): configure block size `n`. -/
  | cfg (n : Word)
  /-- `CLEAR` (R222): deconfigure. -/
  | clear
  /-- `CSRRD r` (R223): read CSR `r`. -/
  | csrrd (r : Word)
  /-- `CSRWR r, v` (R224): write `v` to CSR `r`. -/
  | csrwr (r v : Word)
  /-- `CLRERR` (R225): leave the fault state. -/
  | clrerr
  /-- `BLKWR a, v` (R190): write byte `v` at `a`. -/
  | blkwr (a v : Word)
  /-- `BLKWR4 a, w` (R191): write the four bytes of `w` at `a`. -/
  | blkwr4 (a w : Word)
  /-- `BLKRD a` (R192). -/
  | blkrd (a : Word)
  /-- `PTRRD i` (R193). -/
  | ptrrd (i : Word)
  /-- `PTRWR i, v` (R194). -/
  | ptrwr (i v : Word)
  /-- `BTRD k` (R195). -/
  | btrd (k : Word)
  /-- `BTMARK k` (R196): set the sorted flag of bucket `k`. -/
  | btmark (k : Word)
  /-- `STRD p` (R197). -/
  | strd (p : Word)
  /-- `STWR p, w` (R198). -/
  | stwr (p w : Word)
  /-- `BORDRD j` (R199). -/
  | bordrd (j : Word)
  /-- `MTFRD j` (R200). -/
  | mtfrd (j : Word)
  /-- `STBUILD` (R121): build the stripe. -/
  | stbuild
  /-- `CMP i1, i2, depth` (R123): compare two rotations. -/
  | cmp (i1 i2 depth : Word)
  /-- `RSCNT` (R141): presort stage 1, count. -/
  | rscnt
  /-- `RSCUM` (R142): presort stage 2, cumulate. -/
  | rscum
  /-- `RSSCT` (R143): presort stage 3, scatter. -/
  | rssct
  /-- `RSORT` (R145): all three stages. -/
  | rsort
  /-- `BIGORD` (R147): order the 256 big buckets by size. -/
  | bigord
  /-- `MTFINIT` (R160): initialise the move-to-front list. -/
  | mtfinit
  /-- `MTFB c` (R165): encode one byte. -/
  | mtfb (c : Word)
  /-- `MTFEOB` (R166): end of block. -/
  | mtfeob
  /-- `MTFWORD w` (R167): emit a word through the origin context. -/
  | mtfword (w : Word)
  /-- `MTFBLK` (R168): encode the whole block in `PTR` order. -/
  | mtfblk
  deriving DecidableEq, Repr

end Sys2Proof
end

