-- ==== Sys2Proof/WellFormed.lean ====
section
/-! DEFINITION. Well-formedness of a command: the operand bounds of 60_exceptions.md R243 and R253 that mention
neither the block size nor the capacity (log entry 9). A command outside them still has an encoding and still decodes
(30_encoding.md R92); it can only end in an error, on every state. -/

namespace Sys2Proof

/-- The operands lie within the bounds that do not depend on the machine's state. -/
def Instr.wellFormed : Instr → Bool
  | .csrrd r => r.toNat ≤ 9
  | .csrwr r _ => r = 4
  | .blkwr _ v => v.toNat ≤ 255
  | .btrd k => k.toNat ≤ 65536
  | .btmark k => k.toNat ≤ 65535
  | .bordrd j => j.toNat ≤ 255
  | .mtfrd j => j.toNat ≤ 255
  | .mtfb c => c.toNat ≤ 255
  | .nop | .cfg _ | .clear | .clrerr => true
  | .blkwr4 _ _ | .blkrd _ | .ptrrd _ | .ptrwr _ _ | .strd _ | .stwr _ _ => true
  | .stbuild | .cmp _ _ _ | .rscnt | .rscum | .rssct | .rsort | .bigord => true
  | .mtfinit | .mtfeob | .mtfword _ | .mtfblk => true

end Sys2Proof
end

