-- ==== Sys2Proof/Decode.lean ====
section
/-! DEFINITION. The command word (30_encoding.md R90), the four formats (R91), the opcode map (R94), the decoder,
total on all 128-bit words (R95), and the encoder. -/

namespace Sys2Proof

/-! ## Fields of a command word (R90) -/

/-- Bits 127:120. -/
def opField (cw : CommandWord) : BitVec 8 := cw.extractLsb' 120 8

/-- Bits 119:96, reserved. -/
def rsvField (cw : CommandWord) : BitVec 24 := cw.extractLsb' 96 24

/-- Bits 95:64. -/
def cField (cw : CommandWord) : Word := cw.extractLsb' 64 32

/-- Bits 63:32. -/
def aField (cw : CommandWord) : Word := cw.extractLsb' 32 32

/-- Bits 31:0. -/
def bField (cw : CommandWord) : Word := cw.extractLsb' 0 32

/-- Bits 127:96, what `ERRINFO` records (60_exceptions.md R244). -/
def infoField (cw : CommandWord) : Word := cw.extractLsb' 96 32

/-- A command word from its fields, most significant first (R90). -/
def assemble (op : BitVec 8) (rsv : BitVec 24) (c a b : Word) : CommandWord := op ++ rsv ++ c ++ a ++ b

/-! ## Formats and the opcode map -/

/-- A format of R91 with the command it builds from the operand fields it uses. -/
inductive Shape where
  /-- Format `Z`: no operand. -/
  | z (i : Instr)
  /-- Format `A`. -/
  | a (f : Word → Instr)
  /-- Format `AB`. -/
  | ab (f : Word → Word → Instr)
  /-- Format `ABC`: the builder takes `A`, `B`, `C` in that order. -/
  | abc (f : Word → Word → Word → Instr)

/-- Which bits of a word the format fixes (R91's `mask` column). -/
def Shape.mask : Shape → CommandWord
  | .z _ => assemble 0xFF 0xFFFFFF 0xFFFFFFFF 0xFFFFFFFF 0xFFFFFFFF
  | .a _ => assemble 0xFF 0xFFFFFF 0xFFFFFFFF 0 0xFFFFFFFF
  | .ab _ => assemble 0xFF 0xFFFFFF 0xFFFFFFFF 0 0
  | .abc _ => assemble 0xFF 0xFFFFFF 0 0 0

/-- The opcode map (R94), one row per command. -/
def opcodeTable : List (BitVec 8 × Shape) :=
  [(0x00, .z .nop), (0x01, .a .cfg), (0x02, .z .clear), (0x03, .a .csrrd), (0x04, .ab .csrwr), (0x05, .z .clrerr)] ++
  [(0x10, .ab .blkwr), (0x11, .ab .blkwr4), (0x12, .a .blkrd), (0x13, .a .ptrrd), (0x14, .ab .ptrwr),
   (0x15, .a .btrd), (0x16, .a .btmark), (0x17, .a .strd), (0x18, .ab .stwr), (0x19, .a .bordrd),
   (0x1A, .a .mtfrd)] ++
  [(0x20, .z .stbuild), (0x21, .abc .cmp)] ++
  [(0x30, .z .rscnt), (0x31, .z .rscum), (0x32, .z .rssct), (0x33, .z .rsort), (0x34, .z .bigord)] ++
  [(0x40, .z .mtfinit), (0x41, .a .mtfb), (0x42, .z .mtfeob), (0x43, .a .mtfword), (0x44, .z .mtfblk)]

/-- A command word `CW` matches a row when `CW AND mask = match`, with `match = OP * 2^120` (R91). -/
def rowMatches (cw : CommandWord) (row : BitVec 8 × Shape) : Bool :=
  cw &&& row.2.mask == assemble row.1 0 0 0 0

/-! ## The decoder -/

/-- Why a word is no command. Each is `ERR_ILLEGAL` to the machine (60_exceptions.md R241). -/
inductive Reject where
  /-- The opcode is not in the map (R95). -/
  | undefinedOpcode (op : BitVec 8)
  /-- The opcode is defined and `RSV` is not zero (R93). -/
  | reservedNotZero (op : BitVec 8)
  /-- The opcode is defined and an operand field its format does not use is not zero (R93). -/
  | unusedOperandNotZero (op : BitVec 8)
  deriving DecidableEq, Repr

/-- The command a defined opcode's format reads from the operand fields, if the fields it does not use are zero. -/
def Shape.build (sh : Shape) (a b c : Word) : Option Instr :=
  match sh with
  | .z i => if a = 0 ∧ b = 0 ∧ c = 0 then some i else none
  | .a f => if b = 0 ∧ c = 0 then some (f a) else none
  | .ab f => if c = 0 then some (f a b) else none
  | .abc f => some (f a b c)

/-- The decoder: every 128-bit word is exactly one command or is rejected by name (R95). -/
def decode (cw : CommandWord) : Except Reject Instr :=
  match opcodeTable.lookup (opField cw) with
  | none => .error (.undefinedOpcode (opField cw))
  | some sh =>
    if rsvField cw = 0 then
      match sh.build (aField cw) (bField cw) (cField cw) with
      | some i => .ok i
      | none => .error (.unusedOperandNotZero (opField cw))
    else .error (.reservedNotZero (opField cw))

/-! ## The encoder -/

/-- The opcode of a command (R94). -/
def opcode : Instr → BitVec 8
  | .nop => 0x00
  | .cfg _ => 0x01
  | .clear => 0x02
  | .csrrd _ => 0x03
  | .csrwr _ _ => 0x04
  | .clrerr => 0x05
  | .blkwr _ _ => 0x10
  | .blkwr4 _ _ => 0x11
  | .blkrd _ => 0x12
  | .ptrrd _ => 0x13
  | .ptrwr _ _ => 0x14
  | .btrd _ => 0x15
  | .btmark _ => 0x16
  | .strd _ => 0x17
  | .stwr _ _ => 0x18
  | .bordrd _ => 0x19
  | .mtfrd _ => 0x1A
  | .stbuild => 0x20
  | .cmp _ _ _ => 0x21
  | .rscnt => 0x30
  | .rscum => 0x31
  | .rssct => 0x32
  | .rsort => 0x33
  | .bigord => 0x34
  | .mtfinit => 0x40
  | .mtfb _ => 0x41
  | .mtfeob => 0x42
  | .mtfword _ => 0x43
  | .mtfblk => 0x44

/-- Operand field `A` of a command, zero where its format does not use it (R91, R93). -/
def operandA : Instr → Word
  | .cfg a | .csrrd a | .csrwr a _ | .blkwr a _ | .blkwr4 a _ | .blkrd a | .ptrrd a | .ptrwr a _ => a
  | .btrd a | .btmark a | .strd a | .stwr a _ | .bordrd a | .mtfrd a | .cmp a _ _ | .mtfb a | .mtfword a => a
  | .nop | .clear | .clrerr | .stbuild | .rscnt | .rscum | .rssct | .rsort | .bigord => 0
  | .mtfinit | .mtfeob | .mtfblk => 0

/-- Operand field `B` of a command, zero where its format does not use it. -/
def operandB : Instr → Word
  | .csrwr _ b | .blkwr _ b | .blkwr4 _ b | .ptrwr _ b | .stwr _ b | .cmp _ b _ => b
  | .nop | .cfg _ | .clear | .csrrd _ | .clrerr | .blkrd _ | .ptrrd _ | .btrd _ | .btmark _ | .strd _ => 0
  | .bordrd _ | .mtfrd _ | .stbuild | .rscnt | .rscum | .rssct | .rsort | .bigord => 0
  | .mtfinit | .mtfb _ | .mtfeob | .mtfword _ | .mtfblk => 0

/-- Operand field `C` of a command, zero where its format does not use it: only `CMP` does. -/
def operandC : Instr → Word
  | .cmp _ _ c => c
  | .nop | .cfg _ | .clear | .csrrd _ | .csrwr _ _ | .clrerr | .blkwr _ _ | .blkwr4 _ _ | .blkrd _ => 0
  | .ptrrd _ | .ptrwr _ _ | .btrd _ | .btmark _ | .strd _ | .stwr _ _ | .bordrd _ | .mtfrd _ => 0
  | .stbuild | .rscnt | .rscum | .rssct | .rsort | .bigord => 0
  | .mtfinit | .mtfb _ | .mtfeob | .mtfword _ | .mtfblk => 0

/-- The command word of a command (R90): `RSV` is zero (R93). -/
def encode (i : Instr) : CommandWord := assemble (opcode i) 0 (operandC i) (operandA i) (operandB i)

/-! ## The host's numbering of the opcode table

A command is one 128-bit word, and the table numbers its bits as R90 does. -/

/-- The command word whose bits the table numbers `w`, `nbits` of them given and the rest zero. -/
def tableWord (nbits w : Nat) : CommandWord := BitVec.ofNat 128 (w % 2 ^ nbits)

/-- What the decoder reads from the word the table numbers `w`. -/
def decodeTableWord (nbits w : Nat) : Option Instr := (decode (tableWord nbits w)).toOption

end Sys2Proof
end

