-- ==== Sys2Proof/Config.lean ====
section
/-! DEFINITION. What the spec leaves open: the capacity `NMAX` (00_scope.md R6) and the contents of memory elements
that nothing has written (70_reset_and_hazards.md R281, R282). Each is a constant with no body, so a proof can use
nothing of it but what is stated here. -/

namespace Sys2Proof.Config

/-- The one open choice behind `NMAX` (log entry 2). -/
opaque capacityChoice : Nat

/-- `NMAX`, the capacity of `BLOCK` in bytes: every value of `64 <= NMAX <= 2^31 - 1` (R6) and no other is
possible, as `capacityChoice` runs over the naturals. It is written as a sum so that a block size up to 64 compares
with it by evaluation alone. -/
def nmax : Nat := min capacityChoice (2 ^ 31 - 65) + 64

theorem nmax_range : 64 ≤ nmax ∧ nmax ≤ 2 ^ 31 - 1 := by
  unfold nmax
  omega

theorem nmax_lt : nmax < 2 ^ 32 := by
  have := nmax_range
  omega

/-- `NMAX` as the 32-bit word CSR `CAP` holds (10_state.md R33). -/
def nmaxWord : Word := BitVec.ofNatLT nmax nmax_lt

theorem nmaxWord_toNat : nmaxWord.toNat = nmax := rfl

/-- What an element of `BLOCK` reads as until a command writes it: any value, the same at each read (R282). -/
opaque blockInit : Nat → Byte

/-- The same for `STRIPE` (R282). -/
opaque stripeInit : Nat → Word

/-- The same for `PTR` (R282). -/
opaque ptrInit : Nat → Word

/-- The same for `BT`, both fields (R282). -/
opaque btInit : Nat → Word

/-- The same for `BORD` (R282). -/
opaque bordInit : Nat → Byte

/-- The same for `MTF` (R282). -/
opaque mtfInit : Nat → Byte

end Sys2Proof.Config
end

