-- ==== Sys2Proof/Machine/State.lean ====
section
/-! DEFINITION. The architectural state of the RLC block (10_state.md R20 to R45) as plain data, the named outcomes of a
command, and the state after reset (R47). -/

namespace Sys2Proof.Machine

/-- A memory of the block: its written elements as (index, value) pairs, indices strictly rising (`Memory.wf` in
Machine/Ops.lean). An index not listed has not been written; what it then reads as is the free value of its space in
Config (log entry 1). `Memory 8` is a list of `Host.Cell`. -/
abbrev Memory (w : Nat) := List (Nat × BitVec w)

/-- The errors a command can end in (60_exceptions.md R240): status codes 1 to 8. -/
inductive Err where
  /-- `ERR_ILLEGAL`, 1 (R241). -/
  | illegal
  /-- `ERR_NOT_CONFIGURED`, 2 (R242). -/
  | notConfigured
  /-- `ERR_RANGE`, 3 (R243). -/
  | range
  /-- `ERR_SEQUENCE`, 4 (R251). -/
  | sequence
  /-- `ERR_SMALL_BLOCK`, 5 (R252). -/
  | smallBlock
  /-- `ERR_FAULTED`, 6 (R246). -/
  | faulted
  /-- `ERR_CSR`, 7 (R253). -/
  | csr
  /-- `ERR_ZRUN_OVERFLOW`, 8 (R254). -/
  | zrunOverflow
  deriving DecidableEq, Repr

/-- `STATUS.RS_STAGE`, how far the presort has come (R29). -/
inductive RsStage where
  /-- 0: none. -/
  | idle
  /-- 1: counted. -/
  | counted
  /-- 2: cumulated. -/
  | cumulated
  /-- 3: scattered. -/
  | scattered
  deriving DecidableEq, Repr

/-- The seven fields of CSR `STATUS` (R25 to R32). The 32-bit word is `Status.pack` (Machine/Flags.lean). -/
structure Status where
  cfgValid : Bool
  stripeValid : Bool
  stripeTagged : Bool
  rsStage : RsStage
  bigordValid : Bool
  mtfValid : Bool
  fault : Bool
  deriving DecidableEq, Repr

/-- The context of a token (30_encoding.md R98); ids 3 to 15 are never emitted. -/
inductive Context where
  /-- `MAIN`, 0. -/
  | main
  /-- `OFFSET`, 1. -/
  | offset
  /-- `ORIGIN`, 2. -/
  | origin
  deriving DecidableEq, Repr

/-- The state of the block: CSRs (R22 to R36; `ID` is a constant of the read operation, `CTRL` holds its one writable
bit), the six memories (R37 to R43), and the three channels as queues of words, oldest first (30_encoding.md R100,
00_scope.md R12). -/
structure State where
  /-- CSR `CAP`, the parameter `NMAX` (R33). -/
  cap : Word
  /-- CSR `BLKSZ`, the block size `N` (R24). -/
  blksz : Word
  /-- CSR `STATUS` (R25). -/
  status : Status
  /-- CSR `CTRL`, bit 0 `IE`; the other bits read 0 (R34). -/
  ie : Bool
  /-- CSR `ERRCODE` (R35). -/
  errcode : Word
  /-- CSR `ERRSEQ` (R35). -/
  errseq : Word
  /-- CSR `ERRINFO` (R35). -/
  errinfo : Word
  /-- CSR `SEQ` (R22). -/
  seq : Word
  /-- CSR `ZRUN` (R36). -/
  zrun : Word
  /-- `BLOCK` (R38). -/
  block : Memory 8
  /-- `STRIPE` (R39). -/
  stripe : Memory 32
  /-- `PTR` (R40). -/
  ptr : Memory 32
  /-- `BT` (R41), packed words. -/
  bt : Memory 32
  /-- `BORD` (R42). -/
  bord : Memory 8
  /-- `MTF` (R43). -/
  mtf : Memory 8
  /-- Command words sent and not yet taken, oldest first (60_exceptions.md R245). -/
  cmds : List CommandWord
  /-- Responses produced, oldest first (R96). -/
  rsps : List Response
  /-- Tokens emitted, oldest first (R98). -/
  toks : List Token
  deriving DecidableEq, Repr

/-- The machine never stops with a fault: an error is a next state with a status code (60_exceptions.md R244), and
nothing is undefined (70_reset_and_hazards.md R285, R293). So this type has no constructor (log entry 10). -/
inductive Fault where
  deriving DecidableEq, Repr

/-- Why a command has no meaning in this model. -/
inductive Refusal where
  /-- Raised by an arm of `exec` whose command has no meaning yet; safe. No arm is in that state. -/
  | notModelled (mnemonic : String)
  deriving DecidableEq, Repr

/-- What one command answers. -/
abbrev Outcome := Host.Outcome State Fault Refusal

/-- All flags 0 (R47). -/
def Status.reset : Status :=
  { cfgValid := false, stripeValid := false, stripeTagged := false, rsStage := .idle, bigordValid := false,
    mtfValid := false, fault := false }

/-- The state after reset (R47, 70_reset_and_hazards.md R280): every register at its stated value, no element of any
memory written, the channels empty. -/
def State.reset : State :=
  { cap := Config.nmaxWord, blksz := 0, status := Status.reset, ie := false, errcode := 0, errseq := 0,
    errinfo := 0, seq := 0, zrun := 0, block := [], stripe := [], ptr := [], bt := [], bord := [], mtf := [],
    cmds := [], rsps := [], toks := [] }

end Sys2Proof.Machine
end

