-- ==== Sys2Proof/Machine/Ops.lean ====
section
/-! DEFINITION. The operations every command is built from: reading and writing memories (20_memory.md), ending a
command with a response (30_encoding.md R96), taking an error and leaving the fault state (60_exceptions.md R244 to
R248), the order of checks (R247), and the command channel. -/

namespace Sys2Proof.Machine

/-! ## Memories -/

/-- The written value at index `a`, if any. -/
def Memory.find {w : Nat} : Memory w → Nat → Option (BitVec w)
  | [], _ => none
  | (k, v) :: m, a => if k = a then some v else Memory.find m a

/-- The element at index `a`: the written value, or the space's free value `init a` (70_reset_and_hazards.md R282). -/
def Memory.read {w : Nat} (init : Nat → BitVec w) (m : Memory w) (a : Nat) : BitVec w :=
  (Memory.find m a).getD (init a)

/-- `m` without its first cell, if that cell has index `a`. -/
def Memory.dropCell {w : Nat} (a : Nat) : Memory w → Memory w
  | [] => []
  | (k, v) :: m => if k = a then m else (k, v) :: m

/-- One element written. -/
def Memory.put {w : Nat} (m : Memory w) (a : Nat) (v : BitVec w) : Memory w :=
  m.takeWhile (fun c => decide (c.1 < a)) ++
    (a, v) :: Memory.dropCell a (m.dropWhile (fun c => decide (c.1 < a)))

/-- Consecutive elements written from index `lo` on. -/
def Memory.load {w : Nat} (m : Memory w) (lo : Nat) (vs : List (BitVec w)) : Memory w :=
  m.filter (fun c => decide (c.1 < lo)) ++ (vs.zipIdx lo).map (fun p => (p.2, p.1)) ++
    m.filter (fun c => decide (lo + vs.length ≤ c.1))

/-- Elements `lo`, `lo + 1`, …, `n` of them, in order. -/
def Memory.slice {w : Nat} (init : Nat → BitVec w) (m : Memory w) (lo n : Nat) : List (BitVec w) :=
  (List.range' lo n).map (Memory.read init m)

/-- Indices at least `lo` and strictly rising. -/
def Memory.sortedFrom {w : Nat} : Nat → Memory w → Bool
  | _, [] => true
  | lo, (k, _) :: m => decide (lo ≤ k) && Memory.sortedFrom (k + 1) m

/-- The canonical form of a memory: indices strictly rising. An unwritten element is not listed, and a written one is,
whatever its value, so equal contents are equal lists (log entry 1). -/
def Memory.wf {w : Nat} (m : Memory w) : Bool := Memory.sortedFrom 0 m

/-! ### Evaluation of `slice` in one walk

For compiled code only: `slice` stays the definition above. -/

/-- `n` elements from `lo` on, put before `acc` in reverse, when every cell of `m` has an index at least `lo`. -/
def Memory.scan {w : Nat} (init : Nat → BitVec w) :
    (lo n : Nat) → Memory w → List (BitVec w) → List (BitVec w)
  | _, 0, _, acc => acc.reverse
  | lo, n + 1, [], acc => Memory.scan init (lo + 1) n [] (init lo :: acc)
  | lo, n + 1, (k, v) :: m, acc =>
    if k = lo then Memory.scan init (lo + 1) n m (v :: acc)
    else Memory.scan init (lo + 1) n ((k, v) :: m) (init lo :: acc)

/-- `slice`, walking a memory in canonical form once. -/
def Memory.sliceByScan {w : Nat} (init : Nat → BitVec w) (m : Memory w) (lo n : Nat) : List (BitVec w) :=
  if Memory.wf m then Memory.scan init lo n (m.dropWhile (fun c => decide (c.1 < lo))) []
  else (List.range' lo n).map (Memory.read init m)

theorem Memory.find_of_sortedFrom {w : Nat} :
    ∀ (m : Memory w) (lo a : Nat), Memory.sortedFrom lo m = true → a < lo → Memory.find m a = none := by
  intro m
  induction m with
  | nil => intros; rfl
  | cons c m ih =>
    intro lo a h ha
    simp only [Memory.sortedFrom, Bool.and_eq_true, decide_eq_true_eq] at h
    simp only [Memory.find]
    rw [if_neg (by omega)]
    exact ih _ _ h.2 (by omega)

theorem Memory.scan_eq_slice {w : Nat} (init : Nat → BitVec w) :
    ∀ (n lo : Nat) (m : Memory w) (acc : List (BitVec w)), Memory.sortedFrom lo m = true →
      Memory.scan init lo n m acc = acc.reverse ++ Memory.slice init m lo n := by
  intro n
  induction n with
  | zero => intro lo m acc _; simp [Memory.scan, Memory.slice]
  | succ n ih =>
    intro lo m acc h
    cases m with
    | nil =>
      rw [Memory.scan, ih _ _ _ (by rfl)]
      simp [Memory.slice, List.range'_succ, Memory.read, Memory.find]
    | cons c m =>
      obtain ⟨k, v⟩ := c
      simp only [Memory.sortedFrom, Bool.and_eq_true, decide_eq_true_eq] at h
      simp only [Memory.scan]
      split
      · next hk =>
        subst hk
        rw [ih _ _ _ h.2]
        have hne : ∀ x ∈ List.range' (k + 1) n,
            Memory.read init m x = Memory.read init ((k, v) :: m) x := by
          intro x hx
          have := List.mem_range'_1.mp hx
          simp only [Memory.read, Memory.find]
          rw [if_neg (by omega)]
        simp only [Memory.slice, List.range'_succ, List.map_cons, List.reverse_cons, List.append_assoc]
        rw [List.map_congr_left hne]
        simp [Memory.read, Memory.find]
      · next hk =>
        have hs : Memory.sortedFrom (lo + 1) ((k, v) :: m) = true := by
          simp only [Memory.sortedFrom, Bool.and_eq_true, decide_eq_true_eq]
          exact ⟨by omega, h.2⟩
        rw [ih _ _ _ hs]
        have hf : Memory.find ((k, v) :: m) lo = none := Memory.find_of_sortedFrom _ _ _ hs (by omega)
        simp [Memory.slice, List.range'_succ, Memory.read, hf]

theorem Memory.sortedFrom_dropWhile {w : Nat} (lo : Nat) :
    ∀ (m : Memory w) (l : Nat), Memory.sortedFrom l m = true →
      Memory.sortedFrom lo (m.dropWhile (fun c => decide (c.1 < lo))) = true := by
  intro m
  induction m with
  | nil => intros; rfl
  | cons c m ih =>
    intro l h
    simp only [Memory.sortedFrom, Bool.and_eq_true, decide_eq_true_eq] at h
    by_cases hc : c.1 < lo
    · rw [List.dropWhile_cons_of_pos (by simpa using hc)]
      exact ih _ h.2
    · rw [List.dropWhile_cons_of_neg (by simpa using hc)]
      simp only [Memory.sortedFrom, Bool.and_eq_true, decide_eq_true_eq]
      exact ⟨by omega, h.2⟩

theorem Memory.find_dropWhile {w : Nat} (lo a : Nat) (h : lo ≤ a) :
    ∀ m : Memory w, Memory.find (m.dropWhile (fun c => decide (c.1 < lo))) a = Memory.find m a := by
  intro m
  induction m with
  | nil => rfl
  | cons c m ih =>
    by_cases hc : c.1 < lo
    · rw [List.dropWhile_cons_of_pos (by simpa using hc), ih]
      simp only [Memory.find]
      rw [if_neg (by omega)]
    · rw [List.dropWhile_cons_of_neg (by simpa using hc)]

@[csimp] theorem Memory.slice_eq_sliceByScan : @Memory.slice = @Memory.sliceByScan := by
  funext w init m lo n
  simp only [Memory.sliceByScan]
  split
  · next h =>
    rw [Memory.scan_eq_slice _ _ _ _ _ (Memory.sortedFrom_dropWhile lo m 0 h)]
    simp only [List.reverse_nil, List.nil_append, Memory.slice]
    refine List.map_congr_left fun x hx => ?_
    have := List.mem_range'_1.mp hx
    simp only [Memory.read]
    rw [Memory.find_dropWhile lo x (by omega)]
  · rfl

/-! ## The six memories of the state (10_state.md R37) -/

/-- `BLOCK[a]`. -/
def State.blockAt (s : State) (a : Nat) : Byte := Memory.read Config.blockInit s.block a

/-- `STRIPE[p]`. -/
def State.stripeAt (s : State) (p : Nat) : Word := Memory.read Config.stripeInit s.stripe p

/-- `PTR[i]`. -/
def State.ptrAt (s : State) (i : Nat) : Word := Memory.read Config.ptrInit s.ptr i

/-- `BT[k]`. -/
def State.btAt (s : State) (k : Nat) : Word := Memory.read Config.btInit s.bt k

/-- `BORD[j]`. -/
def State.bordAt (s : State) (j : Nat) : Byte := Memory.read Config.bordInit s.bord j

/-- `MTF[j]`. -/
def State.mtfAt (s : State) (j : Nat) : Byte := Memory.read Config.mtfInit s.mtf j

/-- The configured block size `N` (00_scope.md R8). -/
abbrev State.size (s : State) : Nat := s.blksz.toNat

/-- The 256 byte values in ascending order: the identity of `MTF` (R43) and of `BORD` at the start of `BIGORD`. -/
def identityBytes : List Byte := (List.range 256).map (BitVec.ofNat 8)

/-! ## Outputs -/

/-- The status code of an error (60_exceptions.md R240). -/
def Err.code : Err → BitVec 8
  | .illegal => 1
  | .notConfigured => 2
  | .range => 3
  | .sequence => 4
  | .smallBlock => 5
  | .faulted => 6
  | .csr => 7
  | .zrunOverflow => 8

/-- A response word: `ST`, 24 zero bits, `DATA` (30_encoding.md R96). -/
def response (st : BitVec 8) (data : Word) : Response := st ++ 0#24 ++ data

/-- The context id of a token (R98). -/
def Context.id : Context → BitVec 4
  | .main => 0
  | .offset => 1
  | .origin => 2

/-- A token word: `CTX`, `WIDTH`, `SYM` (R98). -/
def token (ctx : Context) (width : BitVec 4) (sym : Byte) : Token := ctx.id ++ width ++ sym

/-- Tokens appended to the token stream (20_memory.md R72). -/
def State.emit (s : State) (ts : List Token) : State := { s with toks := s.toks ++ ts }

/-- The end of every command: one response, and `SEQ` counts it (10_state.md R22, 30_encoding.md R96). -/
def State.complete (s : State) (st : BitVec 8) (data : Word) : State :=
  { s with seq := s.seq + 1, rsps := s.rsps ++ [response st data] }

/-! ## Errors (60_exceptions.md) -/

/-- `FAULT` set and the first error recorded: its code, the command's sequence number, bits 127:96 of its word. -/
def State.recordError (s : State) (e : Err) (info : Word) : State :=
  { s with
    status := { s.status with fault := true }
    errcode := e.code.setWidth 32
    errseq := s.seq
    errinfo := info }

/-- `raise E` (R244): the error is recorded unless one is already, and the command ends with its code and no data. -/
def State.raise (s : State) (e : Err) (info : Word) : State :=
  (if s.status.fault then s else s.recordError e info).complete e.code 0

/-- The return from the fault state, the effect of `CLRERR` (R248, 44_system.md R225). -/
def State.clearError (s : State) : State :=
  { s with status := { s.status with fault := false }, errcode := 0, errseq := 0, errinfo := 0 }

/-- The opcodes the fault gate lets through: `CSRRD`, `CSRWR`, `CLRERR` (R246). -/
def gateExempt (op : BitVec 8) : Bool := op == 0x03 || op == 0x04 || op == 0x05

/-- The fault gate refuses a word with this opcode (R246). -/
def State.gated (s : State) (op : BitVec 8) : Bool := s.status.fault && !gateExempt op

/-- The first check that fails gives the code, later checks are not made (R247). -/
def firstError : List (Bool × Err) → Option Err
  | [] => none
  | (failed, e) :: cs => if failed then some e else firstError cs

/-- Bits 127:96 of a command's word: its opcode and a zero `RSV` (R244). -/
def infoOf (i : Instr) : Word := infoField (encode i)

/-- One command: the fault gate, then its checks in order, then its effect, which gives the new state and the response
data (R244, R247). -/
def command (i : Instr) (checks : List (Bool × Err)) (effect : State → State × Word) (s : State) : Outcome :=
  match firstError ((s.gated (opcode i), .faulted) :: checks) with
  | some e => .next (s.raise e (infoOf i))
  | none => .next ((effect s).1.complete 0 (effect s).2)

/-- A word that is no command: `ERR_FAULTED` in fault state, before it is decoded, else `ERR_ILLEGAL` (R241, R246). -/
def rejectWord (cw : CommandWord) (s : State) : Outcome :=
  .next (s.raise (if s.gated (opField cw) then .faulted else .illegal) (infoField cw))

/-! ## The checks commands share (R247, steps 3 and 4) -/

/-- `ERR_NOT_CONFIGURED` if `CFG_VALID = 0` (R242). -/
def State.needConfig (s : State) : Bool × Err := (!s.status.cfgValid, .notConfigured)

/-- `ERR_SMALL_BLOCK` if `N < 64` (R252). -/
def State.needLarge (s : State) : Bool × Err := (decide (s.size < 64), .smallBlock)

/-- `ERR_SEQUENCE` if the stripe has not been built (R251). -/
def State.needStripe (s : State) : Bool × Err := (!s.status.stripeValid, .sequence)

/-- `ERR_SEQUENCE` if the presort is not at stage `st` (R251). -/
def State.needStage (s : State) (st : RsStage) : Bool × Err := (s.status.rsStage != st, .sequence)

/-- `ERR_SEQUENCE` if the move-to-front list has not been initialised (R251). -/
def State.needMtf (s : State) : Bool × Err := (!s.status.mtfValid, .sequence)

/-- `ERR_RANGE` if an operand is out of its bound (R243). -/
def outOfRange (bad : Bool) : Bool × Err := (bad, .range)

/-! ## The command channel -/

/-- The next command word and the state once it is taken from the channel, if one is waiting (log entry 3). -/
def State.fetch (s : State) : Option (CommandWord × State) :=
  match s.cmds with
  | [] => none
  | cw :: rest => some (cw, { s with cmds := rest })

/-- The host sends a command word: it waits behind those already sent (60_exceptions.md R245). -/
def State.send (s : State) (cw : CommandWord) : State := { s with cmds := s.cmds ++ [cw] }

/-- The command word at the head of the channel, before those waiting. -/
def State.place (s : State) (cw : CommandWord) : State := { s with cmds := cw :: s.cmds }

end Sys2Proof.Machine
end

