-- ==== Sys2Proof/Machine/Flags.lean ====
section
/-! DEFINITION. The flag computations: the packed `STATUS` word (10_state.md R25), the set of flags each command writes
(R26 to R32, R46), and the interrupt output (60_exceptions.md R250). -/

namespace Sys2Proof.Machine

/-- `RS_STAGE` as its two bits (R25). -/
def RsStage.code : RsStage → BitVec 2
  | .idle => 0
  | .counted => 1
  | .cumulated => 2
  | .scattered => 3

/-- The `STATUS` word: bit 0 `CFG_VALID` up to bit 7 `FAULT`, bits 31:8 zero (R25). -/
def Status.pack (f : Status) : Word :=
  0#24 ++ BitVec.ofBool f.fault ++ BitVec.ofBool f.mtfValid ++ BitVec.ofBool f.bigordValid ++ f.rsStage.code ++
    BitVec.ofBool f.stripeTagged ++ BitVec.ofBool f.stripeValid ++ BitVec.ofBool f.cfgValid

/-- The four fields that a change of `BLOCK`, `CFG` and `CLEAR` clear: what was built from the block's contents
(R27 to R30). -/
def Status.dropDerived (f : Status) : Status :=
  { f with stripeValid := false, stripeTagged := false, rsStage := .idle, bigordValid := false }

/-- After `CFG` (44_system.md R221). -/
def Status.afterCfg (f : Status) : Status := { f.dropDerived with cfgValid := true, mtfValid := true }

/-- After `CLEAR` (R222): every flag but `FAULT` is 0. -/
def Status.afterClear (f : Status) : Status := { f.dropDerived with cfgValid := false, mtfValid := false }

/-- After `STBUILD` (40_stripe_compare.md R121). -/
def Status.afterBuild (f : Status) : Status := { f with stripeValid := true, stripeTagged := false }

/-- After `STWR` (43_memory_access.md R198). -/
def Status.afterTag (f : Status) : Status := { f with stripeTagged := true }

/-- After the first presort stage, which starts the presort over (41_presort.md R141). -/
def Status.afterCount (f : Status) : Status := { f with rsStage := .counted, bigordValid := false }

/-- After the second stage (R142). -/
def Status.afterCumulate (f : Status) : Status := { f with rsStage := .cumulated }

/-- After the third stage (R143). -/
def Status.afterScatter (f : Status) : Status := { f with rsStage := .scattered }

/-- After `BIGORD` (R147). -/
def Status.afterOrder (f : Status) : Status := { f with bigordValid := true }

/-- After `MTFINIT` (42_mtf.md R160). -/
def Status.afterMtfInit (f : Status) : Status := { f with mtfValid := true }

/-- The interrupt output: a level, `STATUS.FAULT AND CTRL.IE` (R250). -/
def State.irq (s : State) : Bool := s.status.fault && s.ie

end Sys2Proof.Machine
end

