-- ==== Sys2Proof/Machine/Operands.lean ====
section
/-! DEFINITION. The operand forms: the bytes of a data operand (20_memory.md R61), a cyclic block position
(00_scope.md R11), and the two values computed from consecutive block bytes, the stripe word (40_stripe_compare.md
R120) and the presort key (41_presort.md R140). An index operand is the whole field as a natural number (30_encoding.md
R92), `BitVec.toNat`. -/

namespace Sys2Proof.Machine

/-- The four bytes of a word, most significant first (R61). -/
def bytesOf (w : Word) : List Byte :=
  [w.extractLsb' 24 8, w.extractLsb' 16 8, w.extractLsb' 8 8, w.extractLsb' 0 8]

/-- The low byte of an operand, for one whose bound is 255. -/
def lowByte (w : Word) : Byte := w.setWidth 8

/-- The byte at cyclic position `p` of the block, `BLOCK[p mod N]`. -/
def State.cyclicByte (s : State) (p : Nat) : Byte := s.blockAt (p % s.size)

/-- The packed word `W(p)` of position `p` (R120). -/
def State.packedWord (s : State) (p : Nat) : Word :=
  s.cyclicByte p ++ s.cyclicByte (p + 1) ++ s.cyclicByte (p + 2) ++ s.cyclicByte (p + 3)

/-- The key of rotation `i`, as an index of `BT` (R140). -/
def State.key (s : State) (i : Nat) : Nat := (s.cyclicByte i ++ s.cyclicByte (i + 1)).toNat

end Sys2Proof.Machine
end

