-- ==== Sys2Proof/Machine/MemAccess.lean ====
section
/-! DEFINITION. The memory access commands (43_memory_access.md). -/

namespace Sys2Proof.Machine

/-- Bytes written to `BLOCK` from `a` on, and what was built from the block dropped (R190, R191). -/
def State.writeBlock (s : State) (a : Nat) (bytes : List Byte) : State :=
  { s with block := Memory.load s.block a bytes, status := s.status.dropDerived }

/-- `BLKWR a, v` (R190). -/
def execBlkwr (a v : Word) (s : State) : Outcome :=
  command (.blkwr a v) [s.needConfig, outOfRange (decide (s.size ≤ a.toNat) || decide (255 < v.toNat))]
    (fun s => (s.writeBlock a.toNat [lowByte v], 0)) s

/-- `BLKWR4 a, w` (R191): the most significant byte goes to the lowest address. -/
def execBlkwr4 (a w : Word) (s : State) : Outcome :=
  command (.blkwr4 a w) [s.needConfig, outOfRange (decide (s.size < a.toNat + 4))]
    (fun s => (s.writeBlock a.toNat (bytesOf w), 0)) s

/-- `BLKRD a` (R192). -/
def execBlkrd (a : Word) (s : State) : Outcome :=
  command (.blkrd a) [s.needConfig, outOfRange (decide (s.size ≤ a.toNat))]
    (fun s => (s, (s.blockAt a.toNat).setWidth 32)) s

/-- `PTRRD i` (R193): the extra entry `PTR[N]` is readable. -/
def execPtrrd (i : Word) (s : State) : Outcome :=
  command (.ptrrd i) [s.needConfig, outOfRange (decide (s.size < i.toNat))]
    (fun s => (s, s.ptrAt i.toNat)) s

/-- `PTRWR i, v` (R194): any value, no flag changes. -/
def execPtrwr (i v : Word) (s : State) : Outcome :=
  command (.ptrwr i v) [s.needConfig, outOfRange (decide (s.size < i.toNat))]
    (fun s => ({ s with ptr := Memory.put s.ptr i.toNat v }, 0)) s

/-- `BTRD k` (R195): the packed word. -/
def execBtrd (k : Word) (s : State) : Outcome :=
  command (.btrd k) [s.needConfig, outOfRange (decide (65536 < k.toNat))]
    (fun s => (s, s.btAt k.toNat)) s

/-- `SORTED`, bit 31 of a `BT` word (10_state.md R41). -/
def sortedMask : Word := 0x80000000

/-- `BTMARK k` (R196). -/
def execBtmark (k : Word) (s : State) : Outcome :=
  command (.btmark k) [s.needConfig, s.needStage .scattered, outOfRange (decide (65535 < k.toNat))]
    (fun s => ({ s with bt := Memory.put s.bt k.toNat (s.btAt k.toNat ||| sortedMask) }, 0)) s

/-- `STRD p` (R197): the mirror is readable. -/
def execStrd (p : Word) (s : State) : Outcome :=
  command (.strd p) [s.needConfig, s.needLarge, s.needStripe, outOfRange (decide (s.size + 64 ≤ p.toNat))]
    (fun s => (s, s.stripeAt p.toNat)) s

/-- A word written to `STRIPE[p]`, and to its mirror when it has one (R198). -/
def State.tagStripe (s : State) (p : Nat) (w : Word) : State :=
  let written := Memory.put s.stripe p w
  { s with
    stripe := if p < 64 then Memory.put written (s.size + p) w else written
    status := s.status.afterTag }

/-- `STWR p, w` (R198). -/
def execStwr (p w : Word) (s : State) : Outcome :=
  command (.stwr p w) [s.needConfig, s.needLarge, s.needStripe, outOfRange (decide (s.size ≤ p.toNat))]
    (fun s => (s.tagStripe p.toNat w, 0)) s

/-- `BORDRD j` (R199). -/
def execBordrd (j : Word) (s : State) : Outcome :=
  command (.bordrd j)
    [s.needConfig, (!s.status.bigordValid, .sequence), outOfRange (decide (255 < j.toNat))]
    (fun s => (s, (s.bordAt j.toNat).setWidth 32)) s

/-- `MTFRD j` (R200). -/
def execMtfrd (j : Word) (s : State) : Outcome :=
  command (.mtfrd j) [s.needMtf, outOfRange (decide (255 < j.toNat))]
    (fun s => (s, (s.mtfAt j.toNat).setWidth 32)) s

end Sys2Proof.Machine
end

