-- ==== Sys2Proof/Machine/System.lean ====
section
/-! DEFINITION. The system commands (44_system.md). -/

namespace Sys2Proof.Machine

/-- CSR `ID`, "RLC1" (10_state.md R33). -/
def idWord : Word := 0x524C4331

/-- The value CSR `r` holds, for the ten numbers that exist (R23). -/
def State.csr (s : State) (r : Nat) : Option Word :=
  match r with
  | 0 => some idWord
  | 1 => some s.cap
  | 2 => some s.blksz
  | 3 => some s.status.pack
  | 4 => some (BitVec.setWidth 32 (BitVec.ofBool s.ie))
  | 5 => some s.errcode
  | 6 => some s.errseq
  | 7 => some s.errinfo
  | 8 => some s.seq
  | 9 => some s.zrun
  | _ => none

/-- `MTF` set to the identity and `ZRUN` to 0 (42_mtf.md R160, 44_system.md R221). -/
def State.initList (s : State) : State := { s with mtf := Memory.load s.mtf 0 identityBytes, zrun := 0 }

/-- What `CFG n` changes (R221). -/
def State.configure (s : State) (n : Word) : State :=
  { s.initList with blksz := n, status := s.status.afterCfg }

/-- What `CLEAR` changes (R222). -/
def State.deconfigure (s : State) : State := { s with blksz := 0, zrun := 0, status := s.status.afterClear }

/-- `NOP` (R220). -/
def execNop (s : State) : Outcome := command .nop [] (fun s => (s, 0)) s

/-- `CFG n` (R221). -/
def execCfg (n : Word) (s : State) : Outcome :=
  command (.cfg n) [outOfRange (decide (s.cap.toNat < n.toNat))] (fun s => (s.configure n, 0)) s

/-- `CLEAR` (R222). -/
def execClear (s : State) : Outcome := command .clear [] (fun s => (s.deconfigure, 0)) s

/-- `CSRRD r` (R223): the value before this command's own effects. -/
def execCsrrd (r : Word) (s : State) : Outcome :=
  command (.csrrd r) [((s.csr r.toNat).isNone, .csr)] (fun s => (s, (s.csr r.toNat).getD 0)) s

/-- `CSRWR r, v` (R224): `CTRL` alone is writable, and its bit 0 alone (10_state.md R34). -/
def execCsrwr (r v : Word) (s : State) : Outcome :=
  command (.csrwr r v) [((s.csr r.toNat).isNone, .csr), (r.toNat != 4, .csr)]
    (fun s => ({ s with ie := v.getLsbD 0 }, 0)) s

/-- `CLRERR` (R225). -/
def execClrerr (s : State) : Outcome := command .clrerr [] (fun s => (s.clearError, 0)) s

end Sys2Proof.Machine
end

