-- ==== Sys2Proof/Machine/Mtf.lean ====
section
/-! DEFINITION. The move-to-front rank encoder (42_mtf.md). -/

namespace Sys2Proof.Machine

/-! ## Rank and update -/

/-- The 256 entries of `MTF`, front first. -/
def State.mtfList (s : State) : List Byte := Memory.slice Config.mtfInit s.mtf 0 256

/-- The rank of `c`: the first place of the list that holds it (R161). Of a list of 256 entries that does not hold
`c`, which no run reaches, it is 255 (log entry 5). -/
def rankIn (l : List Byte) (c : Byte) : Nat := (l.take 255).findIdx (· == c)

/-- The list after `c` has moved to the front from its rank (R162). -/
def moveToFront (l : List Byte) (c : Byte) : List Byte := c :: l.eraseIdx (rankIn l c)

/-! ## Tokens (30_encoding.md R99) -/

/-- `MAIN` symbol of a run digit: `ZRUN0` is 0, `ZRUN1` is 1. -/
def runToken (digit : Bool) : Token := token .main 0 (if digit then 1 else 0)

/-- `MAIN` symbol `CLASSc`, number `2 + c`. -/
def classToken (c : Nat) : Token := token .main 0 (BitVec.ofNat 8 (2 + c))

/-- `OFFSET` symbol with the class in `WIDTH`. -/
def offsetToken (c off : Nat) : Token := token .offset (BitVec.ofNat 4 c) (BitVec.ofNat 8 off)

/-- `MAIN` symbol `EOB`, number 10. -/
def eobToken : Token := token .main 0 10

/-- `ORIGIN` symbol, a byte of the origin word. -/
def originToken (b : Byte) : Token := token .origin 0 b

/-- The binary digits of `v` from the least significant upward, without the leading 1 (R163). `fuel` bounds their
number. -/
def runDigits : (fuel v : Nat) → List Bool
  | 0, _ => []
  | fuel + 1, v => if v ≤ 1 then [] else decide (v % 2 = 1) :: runDigits fuel (v / 2)

/-- The tokens of a flush of a pending run (R163): `v = ZRUN + 1` is at most `2^32`, so it has at most 32 digits below
the leading 1. -/
def flushTokens (zrun : Word) : List Token := (runDigits 32 (zrun.toNat + 1)).map runToken

/-- The tokens of a nonzero rank (R164). -/
def rankTokens (k : Nat) : List Token :=
  let c := Nat.log2 k
  classToken c :: if c = 0 then [] else [offsetToken c (k - 2 ^ c)]

/-! ## Encoding a byte -/

/-- The encoder's part of the state: the list, the pending run, and the tokens emitted. -/
structure Encoder where
  /-- The move-to-front list, front first. -/
  list : List Byte
  /-- The pending zero run. -/
  zrun : Word
  /-- Tokens emitted, oldest first. -/
  toks : List Token
  deriving DecidableEq, Repr

/-- The per-byte step of R165 and R168: a rank 0 lengthens the pending run, any other rank flushes it and is
emitted. -/
def encodeByte (e : Encoder) (c : Byte) : Encoder :=
  let k := rankIn e.list c
  if k = 0 then { e with list := moveToFront e.list c, zrun := e.zrun + 1 }
  else
    { list := moveToFront e.list c
      zrun := 0
      toks := e.toks ++ (flushTokens e.zrun ++ rankTokens k) }

/-- The end of a block (R166): flush, then `EOB`. -/
def encodeEnd (e : Encoder) : Encoder := { e with zrun := 0, toks := e.toks ++ (flushTokens e.zrun ++ [eobToken]) }

/-- The encoder at the start of a command. -/
def State.encoder (s : State) : Encoder := { list := s.mtfList, zrun := s.zrun, toks := [] }

/-- The state with the encoder's results: `MTF`, `ZRUN`, and the tokens appended to the stream. -/
def State.withEncoder (s : State) (e : Encoder) : State :=
  ({ s with mtf := Memory.load s.mtf 0 e.list, zrun := e.zrun }).emit e.toks

/-- The byte `MTFBLK` encodes for sort position `i`, the last of the rotation that starts at `PTR[i]` (R168). -/
def State.lastByte (s : State) (i : Nat) : Byte := s.cyclicByte ((s.ptrAt i).toNat + s.size - 1)

/-- The bytes `MTFBLK` encodes, in order (R168). -/
def State.lastColumn (s : State) : List Byte := (List.range s.size).map s.lastByte

/-! ## The commands -/

/-- `MTFINIT` (R160). -/
def execMtfinit (s : State) : Outcome :=
  command .mtfinit [] (fun s => ({ s.initList with status := s.status.afterMtfInit }, 0)) s

/-- `MTFB c` (R165): the response is the rank. -/
def execMtfb (c : Word) (s : State) : Outcome :=
  command (.mtfb c)
    [s.needMtf, outOfRange (decide (255 < c.toNat)),
      (decide (s.mtfAt 0 = lowByte c) && decide (s.zrun.toNat = 2 ^ 32 - 1), .zrunOverflow)]
    (fun s => (s.withEncoder (encodeByte s.encoder (lowByte c)),
      BitVec.ofNat 32 (rankIn s.mtfList (lowByte c)))) s

/-- `MTFEOB` (R166): `MTF` is unchanged. -/
def execMtfeob (s : State) : Outcome :=
  command .mtfeob [s.needMtf]
    (fun s => (({ s with zrun := 0 }).emit (flushTokens s.zrun ++ [eobToken]), 0)) s

/-- `MTFWORD w` (R167): four bytes, most significant first, and no flush. -/
def execMtfword (w : Word) (s : State) : Outcome :=
  command (.mtfword w) [] (fun s => (s.emit ((bytesOf w).map originToken), 0)) s

/-- `MTFBLK` (R168). -/
def execMtfblk (s : State) : Outcome :=
  command .mtfblk
    [s.needConfig, s.needMtf, (decide (2 ^ 32 - 1 < s.zrun.toNat + s.size), .zrunOverflow)]
    (fun s => (s.withEncoder (encodeEnd (s.lastColumn.foldl encodeByte s.encoder)), 0)) s

end Sys2Proof.Machine
end

