-- ==== Sys2Proof/Machine/Presort.lean ====
section
/-! DEFINITION. The multistage radix bucket presort and the ordering of the big buckets (41_presort.md). -/

namespace Sys2Proof.Machine

/-- `BTLEN`, the words of `BT` (00_scope.md R6). -/
def btLen : Nat := 65537

/-! ## The three stages -/

/-- `BT[k] <- BT[k] + 1`. -/
def bumpCount (bt : Memory 32) (k : Nat) : Memory 32 :=
  Memory.put bt k (Memory.read Config.btInit bt k + 1)

/-- Stage 1 (R141): every word of `BT` zeroed, then each rotation counted in its bucket. -/
def State.countKeys (s : State) : State :=
  { s with
    bt := (List.range s.size).foldl (fun bt i => bumpCount bt (s.key i))
      (Memory.load s.bt 0 (List.replicate btLen 0))
    status := s.status.afterCount }

/-- Running sums of a list, each taken with what `acc` brings. -/
def runningSums (acc : Word) : List Word → List Word
  | [] => []
  | v :: vs => (acc + v) :: runningSums (acc + v) vs

/-- `runningSums` put before `done` in reverse. -/
def runningSumsOnto (acc : Word) : List Word → List Word → List Word
  | [], done => done.reverse
  | v :: vs, done => runningSumsOnto (acc + v) vs ((acc + v) :: done)

/-- `runningSums` by a loop. -/
def runningSumsByLoop (acc : Word) (vs : List Word) : List Word := runningSumsOnto acc vs []

theorem runningSumsOnto_eq :
    ∀ (vs : List Word) (acc : Word) (done : List Word),
      runningSumsOnto acc vs done = done.reverse ++ runningSums acc vs := by
  intro vs
  induction vs with
  | nil => intro acc done; simp [runningSumsOnto, runningSums]
  | cons v vs ih => intro acc done; simp [runningSumsOnto, runningSums, ih]

@[csimp] theorem runningSums_eq_runningSumsByLoop : @runningSums = @runningSumsByLoop := by
  funext acc vs
  simp [runningSumsByLoop, runningSumsOnto_eq]

/-- Stage 2 (R142): `BT[k] <- BT[k] + BT[k-1]`, `k` ascending from 1 to 65536. -/
def State.cumulate (s : State) : State :=
  { s with
    bt := Memory.load s.bt 0 (runningSums 0 (Memory.slice Config.btInit s.bt 0 btLen))
    status := s.status.afterCumulate }

/-- One step of the scatter: bucket `k`'s end moves down by one and rotation `i` goes there (R143). -/
def scatterOne (k i : Nat) (mems : Memory 32 × Memory 32) : Memory 32 × Memory 32 :=
  let place := Memory.read Config.btInit mems.1 k - 1
  (Memory.put mems.1 k place, Memory.put mems.2 place.toNat (BitVec.ofNat 32 i))

/-- Stage 3 (R143): `i` from `N - 1` down to 0. -/
def State.scatter (s : State) : State :=
  let mems := (List.range s.size).foldr (fun i mems => scatterOne (s.key i) i mems) (s.bt, s.ptr)
  { s with bt := mems.1, ptr := mems.2, status := s.status.afterScatter }

/-- `RSCNT` (R141). -/
def execRscnt (s : State) : Outcome := command .rscnt [s.needConfig] (fun s => (s.countKeys, 0)) s

/-- `RSCUM` (R142). -/
def execRscum (s : State) : Outcome :=
  command .rscum [s.needConfig, s.needStage .counted] (fun s => (s.cumulate, 0)) s

/-- `RSSCT` (R143). -/
def execRssct (s : State) : Outcome :=
  command .rssct [s.needConfig, s.needStage .cumulated] (fun s => (s.scatter, 0)) s

/-- `RSORT` (R145): the state changes of the three stages, in one command. -/
def execRsort (s : State) : Outcome :=
  command .rsort [s.needConfig] (fun s => (s.countKeys.cumulate.scatter, 0)) s

/-! ## The ordering of the big buckets -/

/-- `COUNT` of `BT[k]` as a natural number: bit 31 masked off (R147). -/
def State.countAt (s : State) (k : Nat) : Nat := (s.btAt k &&& 0x7FFFFFFF).toNat

/-- The size of big bucket `b` (R147). -/
def State.bigSize (s : State) (b : Nat) : Nat := s.countAt ((b + 1) * 256) - s.countAt (b * 256)

/-- The gaps of the shell sort, of the form `3h + 1`, largest first (R147). -/
def shellGaps : List Nat := [121, 40, 13, 4, 1]

/-- The inner loop of R147: `v` sinks from place `j` in steps of `h` past entries of greater size. `fuel` bounds the
number of steps, and `j` is bound enough. -/
def sinkEntry (size : Byte → Nat) (h : Nat) (v : Byte) : (fuel j : Nat) → List Byte → List Byte
  | 0, j, l => l.set j v
  | fuel + 1, j, l =>
    if h ≤ j ∧ size v < size (l.getD (j - h) 0) then
      sinkEntry size h v fuel (j - h) (l.set j (l.getD (j - h) 0))
    else l.set j v

/-- The pass of R147 for one gap: `i` ascending from `h` to 255. -/
def gapPass (size : Byte → Nat) (l : List Byte) (h : Nat) : List Byte :=
  (List.range' h (256 - h)).foldl (fun l i => sinkEntry size h (l.getD i 0) i i l) l

/-- The order of R147 as a function of the sizes: from the identity, one pass for each gap. -/
def bigOrder (size : Byte → Nat) : List Byte := shellGaps.foldl (gapPass size) identityBytes

/-- What `BIGORD` changes (R147). -/
def State.orderBuckets (s : State) : State :=
  let sizes := (List.range 256).map s.bigSize
  { s with
    bord := Memory.load s.bord 0 (bigOrder fun b => sizes.getD b.toNat 0)
    status := s.status.afterOrder }

/-- `BIGORD` (R147). -/
def execBigord (s : State) : Outcome :=
  command .bigord [s.needConfig, s.needStage .scattered] (fun s => (s.orderBuckets, 0)) s

end Sys2Proof.Machine
end

