-- ==== Sys2Proof/Machine/Stripe.lean ====
section
/-! DEFINITION. Stripe build and rotation compare (40_stripe_compare.md). -/

namespace Sys2Proof.Machine

/-- `STRIPE[0 .. N-1]` set to the packed words, then `STRIPE[N .. N+63]` to copies of the first 64 (R121). -/
def State.buildStripe (s : State) : State :=
  let built := Memory.load s.stripe 0 ((List.range s.size).map s.packedWord)
  { s with
    stripe := Memory.load built s.size (Memory.slice Config.stripeInit built 0 64)
    status := s.status.afterBuild }

/-- `STBUILD` (R121). -/
def execStbuild (s : State) : Outcome :=
  command .stbuild [s.needConfig, s.needLarge] (fun s => (s.buildStripe, 0)) s

/-- The result words of `CMP` (30_encoding.md R97). -/
def cmpLess : Word := 0xFFFFFFFF

/-- The result +1. -/
def cmpGreater : Word := 1

/-- One batch: the first unequal pair of the 16 words read at `a` and `b`, if any (R123). -/
def State.firstUnequal (s : State) (a b : Nat) : Option (Word × Word) :=
  (List.range 16).findSome? fun k =>
    let wa := s.stripeAt (a + 4 * k)
    let wb := s.stripeAt (b + 4 * k)
    if wa = wb then none else some (wa, wb)

/-- A pointer after a batch, wrapped on its own (R123). -/
def State.nextBatch (s : State) (a : Nat) : Nat := if s.size ≤ a + 64 then a + 64 - s.size else a + 64

/-- The loop of R123, with the count `n` of bytes compared so far. It ends before `fuel` runs out when
`N < n + 64 * fuel`. -/
def State.compareLoop (s : State) : (fuel a b n : Nat) → Word
  | 0, _, _, _ => 0
  | fuel + 1, a, b, n =>
    match s.firstUnequal a b with
    | some (wa, wb) => if wa < wb then cmpLess else cmpGreater
    | none =>
      if s.size ≤ n + 64 then 0 else s.compareLoop fuel (s.nextBatch a) (s.nextBatch b) (n + 64)

/-- The result of `CMP i1, i2, depth`: sums over the naturals, then reduced (R123). -/
def State.compare (s : State) (i1 i2 depth : Nat) : Word :=
  s.compareLoop (s.size / 64 + 1) ((i1 + depth) % s.size) ((i2 + depth) % s.size) 0

/-- `CMP i1, i2, depth` (R123). -/
def execCmp (i1 i2 depth : Word) (s : State) : Outcome :=
  command (.cmp i1 i2 depth)
    [s.needConfig, s.needLarge, s.needStripe,
      outOfRange (decide (s.size ≤ i1.toNat) || decide (s.size ≤ i2.toNat))]
    (fun s => (s, s.compare i1.toNat i2.toNat depth.toNat)) s

end Sys2Proof.Machine
end

