-- ==== Sys2Proof/Machine/Dispatch.lean ====
section
/-! DEFINITION. The meaning of each command: one arm per constructor of `Instr`, each a direct call of its meaning. -/

namespace Sys2Proof.Machine

def exec (i : Instr) (s : State) : Host.Outcome State Fault Refusal :=
  match i with
  -- System (44_system.md)
  | .nop => Sys2Proof.Machine.execNop s
  | .cfg n => Sys2Proof.Machine.execCfg n s
  | .clear => Sys2Proof.Machine.execClear s
  | .csrrd r => Sys2Proof.Machine.execCsrrd r s
  | .csrwr r v => Sys2Proof.Machine.execCsrwr r v s
  | .clrerr => Sys2Proof.Machine.execClrerr s
  -- Memory access (43_memory_access.md)
  | .blkwr a v => Sys2Proof.Machine.execBlkwr a v s
  | .blkwr4 a w => Sys2Proof.Machine.execBlkwr4 a w s
  | .blkrd a => Sys2Proof.Machine.execBlkrd a s
  | .ptrrd j => Sys2Proof.Machine.execPtrrd j s
  | .ptrwr j v => Sys2Proof.Machine.execPtrwr j v s
  | .btrd k => Sys2Proof.Machine.execBtrd k s
  | .btmark k => Sys2Proof.Machine.execBtmark k s
  | .strd p => Sys2Proof.Machine.execStrd p s
  | .stwr p w => Sys2Proof.Machine.execStwr p w s
  | .bordrd j => Sys2Proof.Machine.execBordrd j s
  | .mtfrd j => Sys2Proof.Machine.execMtfrd j s
  -- Stripe and compare (40_stripe_compare.md)
  | .stbuild => Sys2Proof.Machine.execStbuild s
  | .cmp i1 i2 depth => Sys2Proof.Machine.execCmp i1 i2 depth s
  -- Presort (41_presort.md)
  | .rscnt => Sys2Proof.Machine.execRscnt s
  | .rscum => Sys2Proof.Machine.execRscum s
  | .rssct => Sys2Proof.Machine.execRssct s
  | .rsort => Sys2Proof.Machine.execRsort s
  | .bigord => Sys2Proof.Machine.execBigord s
  -- Move-to-front (42_mtf.md)
  | .mtfinit => Sys2Proof.Machine.execMtfinit s
  | .mtfb c => Sys2Proof.Machine.execMtfb c s
  | .mtfeob => Sys2Proof.Machine.execMtfeob s
  | .mtfword w => Sys2Proof.Machine.execMtfword w s
  | .mtfblk => Sys2Proof.Machine.execMtfblk s

end Sys2Proof.Machine
end

