-- ==== Sys2Proof/Machine/Step.lean ====
section
/-! DEFINITION. One step of the block (00_scope.md R12): take the next command word, execute it whole. -/

namespace Sys2Proof.Machine

/-- One step: the oldest waiting command word is taken and executed, or rejected if it is no command. With no word
waiting the block is ready and nothing changes (70_reset_and_hazards.md R292). -/
def step (s : State) : Host.Outcome State Fault Refusal :=
  match s.fetch with
  | none => .next s
  | some (cw, t) =>
    match decode cw with
    | .ok i => exec i t
    | .error _ => rejectWord cw t

/-- The word the opcode table numbers `w`, sent so that it is the next one taken (log entry 3). -/
def State.withFetchWord (s : State) (nbits w : Nat) : State := s.place (tableWord nbits w)

end Sys2Proof.Machine
end

