-- ==== Sys2Proof/Safety.lean ====
section
/-! DEFINITION. The terms the statements use, written from the spec's rules and not from the machine's operations:
what a completed and a failed command leave, the opcode map with its masks, the order of checks, the values the
algorithms compute, and the invariants. -/

namespace Sys2Proof.Safety

open Sys2Proof.Machine

/-- A safe step: the block goes on. It never stops (70_reset_and_hazards.md R285, R292). -/
def Continues (s : State) : Prop := ∃ t, step s = .next t

/-! ## What a command leaves -/

/-- A command word with `RSV` zero (30_encoding.md R90, R93). -/
def commandWord (op : BitVec 8) (c a b : Word) : CommandWord := op ++ 0#24 ++ c ++ a ++ b

/-- The state `s` after a command that ends with status `OK` and `data` (R96, 10_state.md R22). -/
def answered (s : State) (data : Word) : State :=
  { s with seq := s.seq + 1, rsps := s.rsps ++ [0#8 ++ 0#24 ++ data] }

/-- The state `s` after a command that ends with error `code`, when bits 127:96 of its word are `info`
(60_exceptions.md R244): the error registers are written only if `FAULT` was 0. -/
def errored (s : State) (code : BitVec 8) (info : Word) : State :=
  { s with
    status := { s.status with fault := true }
    errcode := if s.status.fault then s.errcode else 0#24 ++ code
    errseq := if s.status.fault then s.errseq else s.seq
    errinfo := if s.status.fault then s.errinfo else info
    seq := s.seq + 1
    rsps := s.rsps ++ [code ++ 0#24 ++ 0#32] }

/-- Bits 127:96 of a command's word, from its opcode. -/
def opInfo (op : BitVec 8) : Word := op ++ 0#24

/-! ## The opcode map with its masks (R91, R94) -/

/-- One row: opcode, mask, and the command the operand fields `A`, `B`, `C` give. -/
structure Row where
  op : BitVec 8
  mask : CommandWord
  command : Word → Word → Word → Instr

/-- Mask of format `Z`. -/
def maskZ : CommandWord := 0xFFFFFFFFFFFFFFFFFFFFFFFFFFFFFFFF

/-- Mask of format `A`. -/
def maskA : CommandWord := 0xFFFFFFFFFFFFFFFF00000000FFFFFFFF

/-- Mask of format `AB`. -/
def maskAB : CommandWord := 0xFFFFFFFFFFFFFFFF0000000000000000

/-- Mask of format `ABC`. -/
def maskABC : CommandWord := 0xFFFFFFFF000000000000000000000000

/-- The 29 rows. -/
def rows : List Row :=
  [⟨0x00, maskZ, fun _ _ _ => .nop⟩, ⟨0x01, maskA, fun a _ _ => .cfg a⟩, ⟨0x02, maskZ, fun _ _ _ => .clear⟩,
   ⟨0x03, maskA, fun a _ _ => .csrrd a⟩, ⟨0x04, maskAB, fun a b _ => .csrwr a b⟩,
   ⟨0x05, maskZ, fun _ _ _ => .clrerr⟩] ++
  [⟨0x10, maskAB, fun a b _ => .blkwr a b⟩, ⟨0x11, maskAB, fun a b _ => .blkwr4 a b⟩,
   ⟨0x12, maskA, fun a _ _ => .blkrd a⟩, ⟨0x13, maskA, fun a _ _ => .ptrrd a⟩,
   ⟨0x14, maskAB, fun a b _ => .ptrwr a b⟩, ⟨0x15, maskA, fun a _ _ => .btrd a⟩,
   ⟨0x16, maskA, fun a _ _ => .btmark a⟩, ⟨0x17, maskA, fun a _ _ => .strd a⟩,
   ⟨0x18, maskAB, fun a b _ => .stwr a b⟩, ⟨0x19, maskA, fun a _ _ => .bordrd a⟩,
   ⟨0x1A, maskA, fun a _ _ => .mtfrd a⟩] ++
  [⟨0x20, maskZ, fun _ _ _ => .stbuild⟩, ⟨0x21, maskABC, fun a b c => .cmp a b c⟩] ++
  [⟨0x30, maskZ, fun _ _ _ => .rscnt⟩, ⟨0x31, maskZ, fun _ _ _ => .rscum⟩, ⟨0x32, maskZ, fun _ _ _ => .rssct⟩,
   ⟨0x33, maskZ, fun _ _ _ => .rsort⟩, ⟨0x34, maskZ, fun _ _ _ => .bigord⟩] ++
  [⟨0x40, maskZ, fun _ _ _ => .mtfinit⟩, ⟨0x41, maskA, fun a _ _ => .mtfb a⟩, ⟨0x42, maskZ, fun _ _ _ => .mtfeob⟩,
   ⟨0x43, maskA, fun a _ _ => .mtfword a⟩, ⟨0x44, maskZ, fun _ _ _ => .mtfblk⟩]

/-- `CW AND mask = match`, with `match = OP * 2^120` (R91). -/
def Row.fits (r : Row) (cw : CommandWord) : Bool := cw &&& r.mask == r.op ++ 0#120

/-- The command of a word that fits the row: `A` is bits 63:32, `B` is bits 31:0, `C` is bits 95:64 (R90). -/
def Row.read (r : Row) (cw : CommandWord) : Instr :=
  r.command (cw.extractLsb' 32 32) (cw.extractLsb' 0 32) (cw.extractLsb' 64 32)

/-! ## The order of checks (60_exceptions.md R247) -/

/-- The commands of R242. -/
def needsConfig : Instr → Bool
  | .blkwr _ _ | .blkwr4 _ _ | .blkrd _ | .ptrrd _ | .ptrwr _ _ | .btrd _ | .btmark _ => true
  | .strd _ | .stwr _ _ | .bordrd _ | .stbuild | .cmp _ _ _ => true
  | .rscnt | .rscum | .rssct | .rsort | .bigord | .mtfblk => true
  | .nop | .cfg _ | .clear | .csrrd _ | .csrwr _ _ | .clrerr => false
  | .mtfrd _ | .mtfinit | .mtfb _ | .mtfeob | .mtfword _ => false

/-- The stripe commands of R252. -/
def needsStripeSize : Instr → Bool
  | .stbuild | .cmp _ _ _ | .strd _ | .stwr _ _ => true
  | .nop | .cfg _ | .clear | .csrrd _ | .csrwr _ _ | .clrerr => false
  | .blkwr _ _ | .blkwr4 _ _ | .blkrd _ | .ptrrd _ | .ptrwr _ _ | .btrd _ | .btmark _ | .bordrd _ => false
  | .rscnt | .rscum | .rssct | .rsort | .bigord => false
  | .mtfrd _ | .mtfinit | .mtfb _ | .mtfeob | .mtfword _ | .mtfblk => false

/-- The flag preconditions of R251. -/
def inSequence (f : Status) : Instr → Bool
  | .cmp _ _ _ | .strd _ | .stwr _ _ => f.stripeValid
  | .rscum => f.rsStage == .counted
  | .rssct => f.rsStage == .cumulated
  | .bigord | .btmark _ => f.rsStage == .scattered
  | .bordrd _ => f.bigordValid
  | .mtfb _ | .mtfeob | .mtfblk | .mtfrd _ => f.mtfValid
  | .nop | .cfg _ | .clear | .csrrd _ | .csrwr _ _ | .clrerr => true
  | .blkwr _ _ | .blkwr4 _ _ | .blkrd _ | .ptrrd _ | .ptrwr _ _ | .btrd _ => true
  | .stbuild | .rscnt | .rsort | .mtfinit | .mtfword _ => true

/-- The operand bounds of R243, over the naturals. -/
def inBounds (s : State) : Instr → Bool
  | .cfg n => n.toNat ≤ s.cap.toNat
  | .blkwr a v => a.toNat < s.blksz.toNat && v.toNat ≤ 255
  | .blkwr4 a _ => a.toNat + 4 ≤ s.blksz.toNat
  | .blkrd a => a.toNat < s.blksz.toNat
  | .ptrrd i | .ptrwr i _ => i.toNat ≤ s.blksz.toNat
  | .btrd k => k.toNat ≤ 65536
  | .btmark k => k.toNat ≤ 65535
  | .strd p => p.toNat < s.blksz.toNat + 64
  | .stwr p _ => p.toNat < s.blksz.toNat
  | .bordrd j | .mtfrd j => j.toNat ≤ 255
  | .cmp i1 i2 _ => i1.toNat < s.blksz.toNat && i2.toNat < s.blksz.toNat
  | .mtfb c => c.toNat ≤ 255
  | .nop | .clear | .csrrd _ | .csrwr _ _ | .clrerr | .stbuild => true
  | .rscnt | .rscum | .rssct | .rsort | .bigord | .mtfinit | .mtfeob | .mtfword _ | .mtfblk => true

/-- The register numbers of R253. -/
def csrAllowed : Instr → Bool
  | .csrrd r => r.toNat ≤ 9
  | .csrwr r _ => r.toNat == 4
  | .nop | .cfg _ | .clear | .clrerr => true
  | .blkwr _ _ | .blkwr4 _ _ | .blkrd _ | .ptrrd _ | .ptrwr _ _ | .btrd _ | .btmark _ => true
  | .strd _ | .stwr _ _ | .bordrd _ | .mtfrd _ | .stbuild | .cmp _ _ _ => true
  | .rscnt | .rscum | .rssct | .rsort | .bigord => true
  | .mtfinit | .mtfb _ | .mtfeob | .mtfword _ | .mtfblk => true

/-- The pending run does not pass `2^32 - 1` (R254). -/
def runFits (s : State) : Instr → Bool
  | .mtfb c => !((s.mtfAt 0).toNat == c.toNat && s.zrun.toNat == 2 ^ 32 - 1)
  | .mtfblk => s.zrun.toNat + s.blksz.toNat ≤ 2 ^ 32 - 1
  | .nop | .cfg _ | .clear | .csrrd _ | .csrwr _ _ | .clrerr => true
  | .blkwr _ _ | .blkwr4 _ _ | .blkrd _ | .ptrrd _ | .ptrwr _ _ | .btrd _ | .btmark _ => true
  | .strd _ | .stwr _ _ | .bordrd _ | .mtfrd _ | .stbuild | .cmp _ _ _ => true
  | .rscnt | .rscum | .rssct | .rsort | .bigord | .mtfinit | .mtfeob | .mtfword _ => true

/-- Steps 3 to 7 of R247: the status code of a command past the gate and the decoder. -/
def statusOf (s : State) (i : Instr) : BitVec 8 :=
  if needsConfig i && !s.status.cfgValid then 2
  else if needsStripeSize i && s.blksz.toNat < 64 then 5
  else if !inSequence s.status i then 4
  else if !inBounds s i then 3
  else if !csrAllowed i then 7
  else if !runFits s i then 8
  else 0

/-- Step 1 of R247: in fault state every opcode but `0x03`, `0x04`, `0x05` is refused (R246). -/
def gateRefuses (s : State) (op : BitVec 8) : Bool := s.status.fault && op != 0x03 && op != 0x04 && op != 0x05

/-- All seven steps of R247: the status code of the response to a command word. -/
def statusOfWord (s : State) (cw : CommandWord) : BitVec 8 :=
  if gateRefuses s (cw.extractLsb' 120 8) then 6
  else match rows.find? (fun r => r.fits cw) with
    | none => 1
    | some r => statusOf s (r.read cw)

/-! ## Registers and outputs as numbers -/

/-- `RS_STAGE` as a number (10_state.md R25). -/
def stageNumber : RsStage → Nat
  | .idle => 0
  | .counted => 1
  | .cumulated => 2
  | .scattered => 3

/-- The `STATUS` word from the places of its fields (R25). -/
def statusWord (f : Status) : Word :=
  BitVec.ofNat 32 (f.cfgValid.toNat + 2 * f.stripeValid.toNat + 4 * f.stripeTagged.toNat +
    8 * stageNumber f.rsStage + 32 * f.bigordValid.toNat + 64 * f.mtfValid.toNat + 128 * f.fault.toNat)

/-- The ten CSRs in the order of their numbers (R23). -/
def csrs (s : State) : List Word :=
  [0x524C4331, s.cap, s.blksz, statusWord s.status, if s.ie then 1 else 0, s.errcode, s.errseq, s.errinfo, s.seq,
   s.zrun]

/-- The tokens of a pending run (42_mtf.md R163): the binary digits of `ZRUN + 1` from the least significant upward,
without the leading 1, digit 0 as token `0000` and digit 1 as token `0001`. -/
def runTokens (zrun : Word) : List Token := (Nat.digits 2 (zrun.toNat + 1)).dropLast.map (BitVec.ofNat 16)

/-- The tokens of a nonzero rank `k` of class `c` (R164): `0002 + c`, then for `c >= 1`
`1000 + 100 * c + (k - 2^c)`, all hexadecimal. -/
def tokensOfRank (k : Nat) : List Token :=
  BitVec.ofNat 16 (0x0002 + Nat.log 2 k) ::
    if Nat.log 2 k = 0 then [] else [BitVec.ofNat 16 (0x1000 + 0x100 * Nat.log 2 k + (k - 2 ^ Nat.log 2 k))]

/-! ## The block's contents -/

/-- The packed word `W(p)`, `p < N` (40_stripe_compare.md R120). -/
def packed (s : State) (p : Nat) : Word :=
  s.blockAt p ++ s.blockAt ((p + 1) % s.blksz.toNat) ++ s.blockAt ((p + 2) % s.blksz.toNat) ++
    s.blockAt ((p + 3) % s.blksz.toNat)

/-- The rotation that starts at `i`, its `N` bytes (00_scope.md R11). -/
def rotation (s : State) (i : Nat) : List Byte :=
  (List.range s.blksz.toNat).map fun k => s.blockAt ((i + k) % s.blksz.toNat)

/-- The key of rotation `i`, `i < N` (41_presort.md R140). -/
def keyOf (s : State) (i : Nat) : Nat :=
  (s.blockAt i).toNat * 256 + (s.blockAt ((i + 1) % s.blksz.toNat)).toNat

/-- How many rotations have a key that satisfies `p`. -/
def rotationsWith (s : State) (p : Nat → Bool) : Nat := (List.range s.blksz.toNat).countP fun i => p (keyOf s i)

/-- The place of rotation `i` in the order by key, equal keys by offset (R144 (b), (c)). -/
def sortPlace (s : State) (i : Nat) : Nat :=
  rotationsWith s (fun k => decide (k < keyOf s i)) +
    (List.range i).countP fun j => decide (keyOf s j = keyOf s i)

/-- The bytes `MTFBLK` encodes, in order: the last byte of the rotation at each sort position (42_mtf.md R168). -/
def bwtBytes (s : State) : List Byte :=
  (List.range s.blksz.toNat).map fun i =>
    s.blockAt (((s.ptrAt i).toNat + s.blksz.toNat - 1) % s.blksz.toNat)

/-! ## The comparator -/

/-- The stripe index read for the `p`-th pair on the side that starts at `a`: batch `p / 16` starts 64 positions after
the one before, reduced modulo `N`, and steps by 4 inside (R123). -/
def pairIndex (s : State) (a p : Nat) : Nat := (a + 64 * (p / 16)) % s.blksz.toNat + 4 * (p % 16)

/-- The pairs of words `CMP` may read, in order: 16 for each of `ceil(N / 64)` batches (R123). -/
def stripePairs (s : State) (a b : Nat) : List (Word × Word) :=
  (List.range (16 * ((s.blksz.toNat + 63) / 64))).map fun p =>
    (s.stripeAt (pairIndex s a p), s.stripeAt (pairIndex s b p))

/-- The result word of a comparison: -1, 0 or +1 in two's complement (30_encoding.md R97). -/
def orderWord (less equal : Prop) [Decidable less] [Decidable equal] : Word :=
  if less then 0xFFFFFFFF else if equal then 0x00000000 else 0x00000001

/-- The result of `CMP`: the order of the first unequal pair, 0 if there is none (R123, R126). -/
def firstPairOrder (pairs : List (Word × Word)) : Word :=
  match pairs.find? (fun p => p.1 != p.2) with
  | none => 0x00000000
  | some p => if p.1.toNat < p.2.toNat then 0xFFFFFFFF else 0x00000001

/-! ## The move-to-front list -/

/-- `k` is the first place of `MTF` that holds `c` (42_mtf.md R161). -/
def IsRank (s : State) (c : Byte) (k : Nat) : Prop := k < 256 ∧ s.mtfAt k = c ∧ ∀ j < k, s.mtfAt j ≠ c

/-- The 256 entries of `MTF`, front first. -/
def listOf (s : State) : List Byte := (List.range 256).map s.mtfAt

/-- Decoding of one block's tokens (R169), a checking aid: `list` is the move-to-front list, `run` and `weight` the
value so far and the weight of the next digit of a run, `cls` the class whose offset is awaited, `out` the bytes
recovered. It ends at `EOB` with the bytes and the final list. -/
def replay : List Token → (list : List Byte) → (run weight : Nat) → (cls : Option Nat) → (out : List Byte) →
    Option (List Byte × List Byte)
  | [], _, _, _, _, _ => none
  | t :: ts, list, run, weight, some c, out =>
    let k := 2 ^ c + (t.toNat - (0x1000 + 0x100 * c))
    replay ts (list.getD k 0 :: list.eraseIdx k) run weight none (out ++ [list.getD k 0])
  | t :: ts, list, run, weight, none, out =>
    if t = 0x0000 then replay ts list (run + weight) (2 * weight) none out
    else if t = 0x0001 then replay ts list (run + 2 * weight) (2 * weight) none out
    else
      let told := out ++ List.replicate run (list.getD 0 0)
      if t = 0x000A then if ts = [] then some (told, list) else none
      else if t = 0x0002 then
        replay ts (list.getD 1 0 :: list.eraseIdx 1) 0 1 none (told ++ [list.getD 1 0])
      else replay ts list 0 1 (some (t.toNat - 2)) told

/-- Commands run one after another, each answering a next state. -/
def runCommands : List Instr → State → Option State
  | [], s => some s
  | i :: is, s =>
    match exec i s with
    | .next t => runCommands is t
    | .fault _ => none
    | .refused _ => none

/-- The commands that change the block or its size, and so drop what was built from it (10_state.md R27 to R30). -/
def dropsDerived (i : Instr) : Prop :=
  (∃ n, i = .cfg n) ∨ i = .clear ∨ (∃ a v, i = .blkwr a v) ∨ ∃ a w, i = .blkwr4 a w

/-! ## The big buckets -/

/-- `COUNT` of `BT[k]`, bit 31 masked (41_presort.md R147). -/
def bucketStart (s : State) (k : Nat) : Nat := (s.btAt k).toNat % 2 ^ 31

/-- The size of big bucket `b` (R144, R147). Where `BT` does not rise, which no run reaches, it is cut at 0 (log entry
6). -/
def bucketSize (s : State) (b : Nat) : Nat := bucketStart s ((b + 1) * 256) - bucketStart s (b * 256)

/-- The inner loop of 41_presort.md R147 on the array `bord`: `v` goes down from place `j` in steps of `h` past the
entries of greater size, at most `steps` of them. -/
def sinkInBord (size : Nat → Nat) (h v : Nat) : (steps j : Nat) → (Nat → Nat) → Nat → Nat
  | 0, j, bord => Function.update bord j v
  | steps + 1, j, bord =>
    if h ≤ j ∧ size v < size (bord (j - h)) then
      sinkInBord size h v steps (j - h) (Function.update bord j (bord (j - h)))
    else Function.update bord j v

/-- `BORD` after the loops of R147, with the place of every tie: from the identity, for each gap `h` and then for each
`i` from `h` to 255, the entry at `i` sinks. -/
def bordAfterLoops (size : Nat → Nat) : Nat → Nat :=
  [121, 40, 13, 4, 1].foldl
    (fun bord h => (List.range' h (256 - h)).foldl (fun bord i => sinkInBord size h (bord i) i i bord) bord)
    fun j => j

/-- The byte values `f 0, …, f 255` are a permutation of 0 to 255. -/
def IsPermutation (f : Nat → Byte) : Prop := ((List.range 256).map f).Perm ((List.range 256).map (BitVec.ofNat 8))

/-! ## Invariants -/

/-- The six memories are in canonical form, the model's own (log entry 1). -/
structure MemoriesCanonical (s : State) : Prop where
  block : Memory.wf s.block = true
  stripe : Memory.wf s.stripe = true
  ptr : Memory.wf s.ptr = true
  bt : Memory.wf s.bt = true
  bord : Memory.wf s.bord = true
  mtf : Memory.wf s.mtf = true

/-- The configuration and the flags agree (00_scope.md R6, 10_state.md R24 to R31). -/
structure ConfigConsistent (s : State) : Prop where
  capacity : 64 ≤ s.cap.toNat ∧ s.cap.toNat ≤ 2 ^ 31 - 1
  size : s.blksz.toNat ≤ s.cap.toNat
  unconfigured : s.status.cfgValid = false →
    s.blksz = 0 ∧ s.status.stripeValid = false ∧ s.status.rsStage = .idle
  stripe : s.status.stripeValid = true → 64 ≤ s.blksz.toNat
  tagged : s.status.stripeTagged = true → s.status.stripeValid = true
  ordered : s.status.bigordValid = true → s.status.rsStage = .scattered
  run : s.zrun ≠ 0 → s.status.mtfValid = true

/-- The error registers agree with `FAULT` (10_state.md R35, 60_exceptions.md R246, R248). -/
structure ErrorsConsistent (s : State) : Prop where
  code : s.errcode = 0 ↔ s.status.fault = false
  cleared : s.status.fault = false → s.errseq = 0 ∧ s.errinfo = 0
  known : s.errcode.toNat ≤ 8 ∧ s.errcode ≠ 6

/-- `MTF` is a permutation of the byte values whenever `MTF_VALID = 1` (10_state.md R44 (a)). -/
def MtfConsistent (s : State) : Prop := s.status.mtfValid = true → IsPermutation s.mtfAt

/-- The stripe is pure: every entry is the packed word of its position (40_stripe_compare.md R122). -/
def PureStripe (s : State) : Prop := ∀ x < s.blksz.toNat + 64, s.stripeAt x = packed s (x % s.blksz.toNat)

/-- The mirror holds while the stripe is valid (10_state.md R39), and an untagged valid stripe is pure (R28). -/
structure StripeConsistent (s : State) : Prop where
  mirror : s.status.stripeValid = true → ∀ q < 64, s.stripeAt (s.blksz.toNat + q) = s.stripeAt q
  pure : s.status.stripeValid = true → s.status.stripeTagged = false → PureStripe s

/-- What `BT` holds at each presort stage (41_presort.md R141 to R144). -/
structure PresortConsistent (s : State) : Prop where
  counted : s.status.rsStage = .counted →
    (∀ k < 65536, (s.btAt k).toNat = rotationsWith s (fun x => x == k)) ∧ s.btAt 65536 = 0
  cumulated : s.status.rsStage = .cumulated →
    ∀ k ≤ 65536, (s.btAt k).toNat = rotationsWith s (fun x => decide (x ≤ k))
  scattered : s.status.rsStage = .scattered →
    ∀ k ≤ 65536, bucketStart s k = rotationsWith s (fun x => decide (x < k))

/-- `BORD` orders the big buckets by size while `BIGORD_VALID = 1` (10_state.md R42, 41_presort.md R148). -/
def OrderConsistent (s : State) : Prop :=
  s.status.bigordValid = true →
    IsPermutation s.bordAt ∧
      ∀ x y, x < y → y < 256 → bucketSize s (s.bordAt x).toNat ≤ bucketSize s (s.bordAt y).toNat

/-- Nothing is written beyond a memory's capacity (10_state.md R37, 20_memory.md R67). -/
structure WithinCapacity (s : State) : Prop where
  block : ∀ c ∈ s.block, c.1 < s.cap.toNat
  stripe : ∀ c ∈ s.stripe, c.1 < s.cap.toNat + 64
  ptr : ∀ c ∈ s.ptr, c.1 < s.cap.toNat + 1
  bt : ∀ c ∈ s.bt, c.1 < 65537
  bord : ∀ c ∈ s.bord, c.1 < 256
  mtf : ∀ c ∈ s.mtf, c.1 < 256

end Sys2Proof.Safety
end

