-- ==== Sys2Proof/Certificates/Slice0/Obligations.lean ====
section
/-! DEFINITION. The statements about the model, each a rule of the spec or what follows from its rules. A statement
about a command that begins with a `decode` clause gives the command's encoding first, then its errors in order, then
its effect with everything it leaves unchanged: a next state is written as a record update, so that every field not
named is unchanged, and a memory that is written is described by reading every index of it. -/

open Sys2Proof Sys2Proof.Machine Sys2Proof.Safety

/-! ## Encoding (30_encoding.md) -/

/-- One word of each family, written out from the spec's examples (R94 and the command rules), is the command it
stands for. -/
def Obligations.ExampleWordsDecode : Prop :=
  decode 0x01000000000000000000000600000000 = .ok (.cfg 6) ∧
  decode 0x04000000000000000000000400000001 = .ok (.csrwr 4 1) ∧
  decode 0x11000000000000000000000062616E61 = .ok (.blkwr4 0 0x62616E61) ∧
  decode 0x18000000000000000000000341410007 = .ok (.stwr 3 0x41410007) ∧
  decode 0x21000000000000020000000500000009 = .ok (.cmp 5 9 2) ∧
  decode 0x33000000000000000000000000000000 = .ok .rsort ∧
  decode 0x41000000000000000000006E00000000 = .ok (.mtfb 0x6E) ∧
  decode 0x00000000000000000000000000000000 = .ok .nop

/-- Decode and encode agree on every command with every operand (R90 to R94): no bit of an encoding is dropped. -/
def Obligations.DecodeOfEncodeIsIdentity : Prop := ∀ i : Instr, decode (encode i) = .ok i

/-- A word that decodes is the encoding of what it decodes to (R90, R93): no two words are the same command. -/
def Obligations.EncodeOfDecodeIsIdentity : Prop :=
  ∀ (cw : CommandWord) (i : Instr), decode cw = .ok i → encode i = cw

/-- The opcode map with its masks (R91, R94): a word is the command of a row exactly when `CW AND mask = match`, with
the operands of R90, and no two rows fit the same word. -/
def Obligations.WordIsCommandExactlyWhenARowFits : Prop :=
  (∀ (cw : CommandWord) (i : Instr), decode cw = .ok i ↔ ∃ r ∈ rows, r.fits cw = true ∧ i = r.read cw) ∧
  ∀ cw : CommandWord, (rows.filter fun r => r.fits cw).length ≤ 1

/-- A word that no row fits raises `ERR_ILLEGAL` when the block is not in fault state (60_exceptions.md R241). -/
def Obligations.UnfitWordRaisesIllegal : Prop :=
  ∀ (s : State) (cw : CommandWord) (rest : List CommandWord),
    s.cmds = cw :: rest → s.status.fault = false → (∀ r ∈ rows, r.fits cw = false) →
      step s = .next (errored { s with cmds := rest } 1 (cw.extractLsb' 96 32))

/-- A step takes the oldest command word and runs the command it decodes to; with none waiting nothing changes (log
entry 3); a word placed for the host is the next one taken. -/
def Obligations.StepRunsTheDecodedCommand : Prop :=
  (∀ (s : State) (cw : CommandWord) (rest : List CommandWord) (i : Instr),
    s.cmds = cw :: rest → decode cw = .ok i → step s = exec i { s with cmds := rest }) ∧
  (∀ s : State, s.cmds = [] → step s = .next s) ∧
  (∀ (s : State) (nbits w : Nat) (i : Instr),
    decodeTableWord nbits w = some i → step (s.withFetchWord nbits w) = exec i s)

/-! ## Errors, checks and the response (60_exceptions.md, 30_encoding.md R96) -/

/-- The response code of every command word on every state, by the fixed order of checks (R247 with the lists of R242,
R243, R251 to R254), and the block goes on. -/
def Obligations.ChecksAreMadeInTheirFixedOrder : Prop :=
  ∀ (s : State) (cw : CommandWord) (rest : List CommandWord), s.cmds = cw :: rest →
    ∃ (t : State) (data : Word), step s = .next t ∧ t.rsps = s.rsps ++ [statusOfWord s cw ++ 0#24 ++ data]

/-- An error changes only the error registers and `SEQ`, records only the first error, and returns no data (R244): a
failing command does nothing else, whatever it is. -/
def Obligations.ErrorChangesOnlyTheErrorRegisters : Prop :=
  ∀ (s t : State) (cw : CommandWord) (rest : List CommandWord), s.cmds = cw :: rest → step s = .next t →
    ∃ (code : BitVec 8) (data : Word), t.rsps = s.rsps ++ [code ++ 0#24 ++ data] ∧
      (code ≠ 0 → t = errored { s with cmds := rest } code (cw.extractLsb' 96 32))

/-- In fault state every word whose opcode is not `0x03`, `0x04`, `0x05` is refused with `ERR_FAULTED`, decoded or not,
and changes nothing but `SEQ` (R246). -/
def Obligations.FaultStateRefusesOtherWords : Prop :=
  ∀ (s : State) (cw : CommandWord) (rest : List CommandWord), s.cmds = cw :: rest → s.status.fault = true →
    cw.extractLsb' 120 8 ≠ 0x03#8 → cw.extractLsb' 120 8 ≠ 0x04#8 → cw.extractLsb' 120 8 ≠ 0x05#8 →
      step s = .next { s with cmds := rest, seq := s.seq + 1, rsps := s.rsps ++ [0x0600000000000000] }

/-- Every word taken gives exactly one response, with a known code and 24 zero bits and no data with an error, adds one
to `SEQ`, and appends tokens to those there before (R96, R240, 10_state.md R22, 20_memory.md R72). -/
def Obligations.OneResponsePerWordTaken : Prop :=
  ∀ (s t : State) (cw : CommandWord) (rest : List CommandWord), s.cmds = cw :: rest → step s = .next t →
    t.seq = s.seq + 1 ∧ t.cmds = rest ∧
    (∃ (code : BitVec 8) (data : Word), t.rsps = s.rsps ++ [code ++ 0#24 ++ data] ∧ code.toNat ≤ 8 ∧
      (code ≠ 0 → data = 0)) ∧
    ∃ ts : List Token, t.toks = s.toks ++ ts

/-- The block never stops: every state has a next one (R292, R293). -/
def Obligations.EveryStepContinues : Prop := ∀ s : State, Continues s

/-- A command outside its state-independent operand bounds (R243, R253; `wellFormed` is the model's grouping of them,
log entry 9) ends in an error on every state. -/
def Obligations.IllFormedCommandNeverCompletes : Prop :=
  ∀ (i : Instr) (s : State), i.wellFormed = false →
    ∃ (t : State) (code : BitVec 8), exec i s = .next t ∧ t.rsps = s.rsps ++ [code ++ 0#24 ++ 0#32] ∧ code ≠ 0

/-! ## System commands (44_system.md) -/

/-- `NOP` (R220). -/
def Obligations.NopOnlyResponds : Prop :=
  decode (commandWord 0x00 0 0 0) = .ok .nop ∧
  ∀ s : State, s.status.fault = false → exec .nop s = .next (answered s 0)

/-- `CFG n` (R221). -/
def Obligations.CfgConfigures : Prop :=
  ∀ n : Word, decode (commandWord 0x01 0 n 0) = .ok (.cfg n) ∧
  ∀ s : State, s.status.fault = false →
    (s.cap.toNat < n.toNat → exec (.cfg n) s = .next (errored s 3 (opInfo 0x01))) ∧
    (n.toNat ≤ s.cap.toNat →
      ∃ m : Memory 8,
        exec (.cfg n) s = .next (answered
          { s with
            blksz := n
            status :=
              { cfgValid := true, stripeValid := false, stripeTagged := false, rsStage := .idle,
                bigordValid := false, mtfValid := true, fault := false }
            mtf := m
            zrun := 0 } 0) ∧
        ∀ j, Memory.read Config.mtfInit m j = if j < 256 then BitVec.ofNat 8 j else s.mtfAt j)

/-- `CLEAR` (R222, its pseudocode): accepted when not configured too. That it then clears `MTF_VALID` and `ZRUN` as well
is the model's reading, DEDUCED from the pseudocode, R31 and R36 against R222's parenthesis that only `SEQ` changes
(log entry 15). -/
def Obligations.ClearDeconfigures : Prop :=
  decode (commandWord 0x02 0 0 0) = .ok .clear ∧
  ∀ s : State, s.status.fault = false →
    exec .clear s = .next (answered
      { s with
        blksz := 0
        status :=
          { cfgValid := false, stripeValid := false, stripeTagged := false, rsStage := .idle, bigordValid := false,
            mtfValid := false, fault := false }
        zrun := 0 } 0)

/-- `CSRRD r` (R223) returns the register of R23, `STATUS` laid out as R25 says, in fault state too. -/
def Obligations.CsrrdReadsTheRegister : Prop :=
  ∀ r : Word, decode (commandWord 0x03 0 r 0) = .ok (.csrrd r) ∧
  ∀ s : State,
    (∀ v : Word, (csrs s)[r.toNat]? = some v → exec (.csrrd r) s = .next (answered s v)) ∧
    (9 < r.toNat → exec (.csrrd r) s = .next (errored s 7 (opInfo 0x03)))

/-- `CSRWR r, v` (R224) writes bit 0 of `CTRL` and nothing else (10_state.md R34), in fault state too; `irq` follows. -/
def Obligations.CsrwrWritesOnlyInterruptEnable : Prop :=
  ∀ r v : Word, decode (commandWord 0x04 0 r v) = .ok (.csrwr r v) ∧
  ∀ s : State,
    (r = 4 → exec (.csrwr r v) s = .next (answered { s with ie := v.getLsbD 0 } 0) ∧
      (answered { s with ie := v.getLsbD 0 } 0).irq = (s.status.fault && v.getLsbD 0)) ∧
    (r ≠ 4 → exec (.csrwr r v) s = .next (errored s 7 (opInfo 0x04)))

/-- `CLRERR` (R225) leaves the fault state and changes nothing else, and `irq` goes to 0; where there was no fault state
it changes only `SEQ`. -/
def Obligations.ClrerrLeavesFaultState : Prop :=
  decode (commandWord 0x05 0 0 0) = .ok .clrerr ∧
  ∀ s : State,
    exec .clrerr s = .next (answered
      { s with status := { s.status with fault := false }, errcode := 0, errseq := 0, errinfo := 0 } 0) ∧
    (∀ t, exec .clrerr s = .next t → t.irq = false) ∧
    (s.status.fault = false → ErrorsConsistent s → exec .clrerr s = .next (answered s 0))

/-- From every state `CLRERR`, `CLEAR` leaves every register as after reset but `CAP`, `SEQ`, `CTRL` (60_exceptions.md
R248), and the memories as they were. -/
def Obligations.ClrerrThenClearRestoresReset : Prop :=
  ∀ s : State, ∃ t u : State, exec .clrerr s = .next t ∧ exec .clear t = .next u ∧
    u = { State.reset with
          cap := s.cap, seq := s.seq + 2, ie := s.ie, block := s.block, stripe := s.stripe, ptr := s.ptr, bt := s.bt,
          bord := s.bord, mtf := s.mtf, cmds := s.cmds, toks := s.toks,
          rsps := s.rsps ++ [0x0000000000000000, 0x0000000000000000] }

/-- The interrupt output (60_exceptions.md R250): the level `FAULT AND IE`; it falls on `CLRERR` and on clearing `IE`,
it rises when a command faults with `IE = 1` and when `CSRWR` sets `IE` in fault state. -/
def Obligations.InterruptIsFaultAndEnable : Prop :=
  (∀ s : State, s.irq = (s.status.fault && s.ie)) ∧
  (∀ s t : State, exec .clrerr s = .next t → t.irq = false) ∧
  (∀ (s t : State) (v : Word), exec (.csrwr 4 v) s = .next t → t.irq = (s.status.fault && v.getLsbD 0)) ∧
  (∀ (s t : State) (i : Instr), exec i s = .next t → s.ie = true → t.status.fault = true →
    (∀ v, i ≠ .csrwr 4 v) → t.irq = true) ∧
  State.reset.irq = false

/-! ## Memory access commands (43_memory_access.md) -/

/-- `BLKWR a, v` (R190). -/
def Obligations.BlkwrWritesOneByte : Prop :=
  ∀ a v : Word, decode (commandWord 0x10 0 a v) = .ok (.blkwr a v) ∧
  ∀ s : State, s.status.fault = false →
    (s.status.cfgValid = false → exec (.blkwr a v) s = .next (errored s 2 (opInfo 0x10))) ∧
    (s.status.cfgValid = true → s.blksz.toNat ≤ a.toNat ∨ 255 < v.toNat →
      exec (.blkwr a v) s = .next (errored s 3 (opInfo 0x10))) ∧
    (s.status.cfgValid = true → a.toNat < s.blksz.toNat → v.toNat ≤ 255 →
      ∃ m : Memory 8,
        exec (.blkwr a v) s = .next (answered
          { s with
            block := m
            status := { s.status with
              stripeValid := false, stripeTagged := false, rsStage := .idle, bigordValid := false } } 0) ∧
        ∀ x, Memory.read Config.blockInit m x = if x = a.toNat then v.extractLsb' 0 8 else s.blockAt x)

/-- `BLKWR4 a, w` (R191): the most significant byte of `w` goes to the lowest address. -/
def Obligations.Blkwr4WritesFourBytes : Prop :=
  ∀ a w : Word, decode (commandWord 0x11 0 a w) = .ok (.blkwr4 a w) ∧
  ∀ s : State, s.status.fault = false →
    (s.status.cfgValid = false → exec (.blkwr4 a w) s = .next (errored s 2 (opInfo 0x11))) ∧
    (s.status.cfgValid = true → s.blksz.toNat < a.toNat + 4 →
      exec (.blkwr4 a w) s = .next (errored s 3 (opInfo 0x11))) ∧
    (s.status.cfgValid = true → a.toNat + 4 ≤ s.blksz.toNat →
      ∃ m : Memory 8,
        exec (.blkwr4 a w) s = .next (answered
          { s with
            block := m
            status := { s.status with
              stripeValid := false, stripeTagged := false, rsStage := .idle, bigordValid := false } } 0) ∧
        ∀ x, Memory.read Config.blockInit m x =
          if x = a.toNat then w.extractLsb' 24 8
          else if x = a.toNat + 1 then w.extractLsb' 16 8
          else if x = a.toNat + 2 then w.extractLsb' 8 8
          else if x = a.toNat + 3 then w.extractLsb' 0 8
          else s.blockAt x)

/-- `BLKRD a` (R192), `PTRRD i` (R193; index `N` is allowed) and `BTRD k` (R195; at any stage, the end sentinel
included): the element, a byte zero-extended. -/
def Obligations.BlockPtrAndBtReadsReturnTheElement : Prop :=
  ∀ a : Word, decode (commandWord 0x12 0 a 0) = .ok (.blkrd a) ∧ decode (commandWord 0x13 0 a 0) = .ok (.ptrrd a) ∧
    decode (commandWord 0x15 0 a 0) = .ok (.btrd a) ∧
  ∀ s : State, s.status.fault = false →
    (s.status.cfgValid = false → exec (.blkrd a) s = .next (errored s 2 (opInfo 0x12)) ∧
      exec (.ptrrd a) s = .next (errored s 2 (opInfo 0x13)) ∧
      exec (.btrd a) s = .next (errored s 2 (opInfo 0x15))) ∧
    (s.status.cfgValid = true → s.blksz.toNat ≤ a.toNat →
      exec (.blkrd a) s = .next (errored s 3 (opInfo 0x12))) ∧
    (s.status.cfgValid = true → a.toNat < s.blksz.toNat →
      exec (.blkrd a) s = .next (answered s (0#24 ++ s.blockAt a.toNat))) ∧
    (s.status.cfgValid = true → s.blksz.toNat < a.toNat →
      exec (.ptrrd a) s = .next (errored s 3 (opInfo 0x13))) ∧
    (s.status.cfgValid = true → a.toNat ≤ s.blksz.toNat →
      exec (.ptrrd a) s = .next (answered s (s.ptrAt a.toNat))) ∧
    (s.status.cfgValid = true → 65536 < a.toNat →
      exec (.btrd a) s = .next (errored s 3 (opInfo 0x15))) ∧
    (s.status.cfgValid = true → a.toNat ≤ 65536 →
      exec (.btrd a) s = .next (answered s (s.btAt a.toNat)))

/-- `PTRWR i, v` (R194): any value, that element only, no flag. -/
def Obligations.PtrwrWritesOneIndex : Prop :=
  ∀ i v : Word, decode (commandWord 0x14 0 i v) = .ok (.ptrwr i v) ∧
  ∀ s : State, s.status.fault = false →
    (s.status.cfgValid = false → exec (.ptrwr i v) s = .next (errored s 2 (opInfo 0x14))) ∧
    (s.status.cfgValid = true → s.blksz.toNat < i.toNat →
      exec (.ptrwr i v) s = .next (errored s 3 (opInfo 0x14))) ∧
    (s.status.cfgValid = true → i.toNat ≤ s.blksz.toNat →
      ∃ m : Memory 32, exec (.ptrwr i v) s = .next (answered { s with ptr := m } 0) ∧
        ∀ x, Memory.read Config.ptrInit m x = if x = i.toNat then v else s.ptrAt x)

/-- `BTMARK k` (R196): bit 31 of one word, `COUNT` unchanged, no flag. -/
def Obligations.BtmarkSetsTheSortedBit : Prop :=
  ∀ k : Word, decode (commandWord 0x16 0 k 0) = .ok (.btmark k) ∧
  ∀ s : State, s.status.fault = false →
    (s.status.cfgValid = false → exec (.btmark k) s = .next (errored s 2 (opInfo 0x16))) ∧
    (s.status.cfgValid = true → s.status.rsStage ≠ .scattered →
      exec (.btmark k) s = .next (errored s 4 (opInfo 0x16))) ∧
    (s.status.cfgValid = true → s.status.rsStage = .scattered → 65535 < k.toNat →
      exec (.btmark k) s = .next (errored s 3 (opInfo 0x16))) ∧
    (s.status.cfgValid = true → s.status.rsStage = .scattered → k.toNat ≤ 65535 →
      ∃ m : Memory 32, exec (.btmark k) s = .next (answered { s with bt := m } 0) ∧
        ∀ x, Memory.read Config.btInit m x = if x = k.toNat then s.btAt x ||| 0x80000000 else s.btAt x)

/-- `STRD p` (R197): the mirror is readable. -/
def Obligations.StrdReadsOneStripeWord : Prop :=
  ∀ p : Word, decode (commandWord 0x17 0 p 0) = .ok (.strd p) ∧
  ∀ s : State, s.status.fault = false →
    (s.status.cfgValid = false → exec (.strd p) s = .next (errored s 2 (opInfo 0x17))) ∧
    (s.status.cfgValid = true → s.blksz.toNat < 64 → exec (.strd p) s = .next (errored s 5 (opInfo 0x17))) ∧
    (s.status.cfgValid = true → 64 ≤ s.blksz.toNat → s.status.stripeValid = false →
      exec (.strd p) s = .next (errored s 4 (opInfo 0x17))) ∧
    (s.status.cfgValid = true → 64 ≤ s.blksz.toNat → s.status.stripeValid = true →
      s.blksz.toNat + 64 ≤ p.toNat → exec (.strd p) s = .next (errored s 3 (opInfo 0x17))) ∧
    (s.status.cfgValid = true → 64 ≤ s.blksz.toNat → s.status.stripeValid = true →
      p.toNat < s.blksz.toNat + 64 → exec (.strd p) s = .next (answered s (s.stripeAt p.toNat)))

/-- `STWR p, w` (R198): the word, and its mirror when it has one. -/
def Obligations.StwrWritesTheWordAndItsMirror : Prop :=
  ∀ p w : Word, decode (commandWord 0x18 0 p w) = .ok (.stwr p w) ∧
  ∀ s : State, s.status.fault = false →
    (s.status.cfgValid = false → exec (.stwr p w) s = .next (errored s 2 (opInfo 0x18))) ∧
    (s.status.cfgValid = true → s.blksz.toNat < 64 → exec (.stwr p w) s = .next (errored s 5 (opInfo 0x18))) ∧
    (s.status.cfgValid = true → 64 ≤ s.blksz.toNat → s.status.stripeValid = false →
      exec (.stwr p w) s = .next (errored s 4 (opInfo 0x18))) ∧
    (s.status.cfgValid = true → 64 ≤ s.blksz.toNat → s.status.stripeValid = true →
      s.blksz.toNat ≤ p.toNat → exec (.stwr p w) s = .next (errored s 3 (opInfo 0x18))) ∧
    (s.status.cfgValid = true → 64 ≤ s.blksz.toNat → s.status.stripeValid = true → p.toNat < s.blksz.toNat →
      ∃ m : Memory 32,
        exec (.stwr p w) s =
          .next (answered { s with stripe := m, status := { s.status with stripeTagged := true } } 0) ∧
        ∀ x, Memory.read Config.stripeInit m x =
          if x = p.toNat ∨ (p.toNat < 64 ∧ x = s.blksz.toNat + p.toNat) then w else s.stripeAt x)

/-- `BORDRD j` (R199). -/
def Obligations.BordrdReadsOneEntry : Prop :=
  ∀ j : Word, decode (commandWord 0x19 0 j 0) = .ok (.bordrd j) ∧
  ∀ s : State, s.status.fault = false →
    (s.status.cfgValid = false → exec (.bordrd j) s = .next (errored s 2 (opInfo 0x19))) ∧
    (s.status.cfgValid = true → s.status.bigordValid = false →
      exec (.bordrd j) s = .next (errored s 4 (opInfo 0x19))) ∧
    (s.status.cfgValid = true → s.status.bigordValid = true → 255 < j.toNat →
      exec (.bordrd j) s = .next (errored s 3 (opInfo 0x19))) ∧
    (s.status.cfgValid = true → s.status.bigordValid = true → j.toNat ≤ 255 →
      exec (.bordrd j) s = .next (answered s (0#24 ++ s.bordAt j.toNat)))

/-- `MTFRD j` (R200): it needs no configuration. -/
def Obligations.MtfrdReadsOneEntry : Prop :=
  ∀ j : Word, decode (commandWord 0x1A 0 j 0) = .ok (.mtfrd j) ∧
  ∀ s : State, s.status.fault = false →
    (s.status.mtfValid = false → exec (.mtfrd j) s = .next (errored s 4 (opInfo 0x1A))) ∧
    (s.status.mtfValid = true → 255 < j.toNat → exec (.mtfrd j) s = .next (errored s 3 (opInfo 0x1A))) ∧
    (s.status.mtfValid = true → j.toNat ≤ 255 →
      exec (.mtfrd j) s = .next (answered s (0#24 ++ s.mtfAt j.toNat)))

/-! ## Stripe and compare (40_stripe_compare.md) -/

/-- `STBUILD` (R121) with the packed word of R120. -/
def Obligations.StbuildBuildsThePureStripe : Prop :=
  decode (commandWord 0x20 0 0 0) = .ok .stbuild ∧
  ∀ s : State, s.status.fault = false →
    (s.status.cfgValid = false → exec .stbuild s = .next (errored s 2 (opInfo 0x20))) ∧
    (s.status.cfgValid = true → s.blksz.toNat < 64 → exec .stbuild s = .next (errored s 5 (opInfo 0x20))) ∧
    (s.status.cfgValid = true → 64 ≤ s.blksz.toNat →
      ∃ m : Memory 32,
        exec .stbuild s = .next (answered
          { s with stripe := m, status := { s.status with stripeValid := true, stripeTagged := false } } 0) ∧
        ∀ x, Memory.read Config.stripeInit m x =
          if x < s.blksz.toNat then packed s x
          else if x < s.blksz.toNat + 64 then packed s (x - s.blksz.toNat)
          else s.stripeAt x)

/-- `CMP i1, i2, depth` (R123) on any stripe contents (R126): the order of the first unequal pair met by the batches. -/
def Obligations.CmpIsTheOrderOfTheFirstUnequalPair : Prop :=
  ∀ i1 i2 depth : Word, decode (commandWord 0x21 depth i1 i2) = .ok (.cmp i1 i2 depth) ∧
  ∀ s : State, s.status.fault = false →
    (s.status.cfgValid = false → exec (.cmp i1 i2 depth) s = .next (errored s 2 (opInfo 0x21))) ∧
    (s.status.cfgValid = true → s.blksz.toNat < 64 →
      exec (.cmp i1 i2 depth) s = .next (errored s 5 (opInfo 0x21))) ∧
    (s.status.cfgValid = true → 64 ≤ s.blksz.toNat → s.status.stripeValid = false →
      exec (.cmp i1 i2 depth) s = .next (errored s 4 (opInfo 0x21))) ∧
    (s.status.cfgValid = true → 64 ≤ s.blksz.toNat → s.status.stripeValid = true →
      s.blksz.toNat ≤ i1.toNat ∨ s.blksz.toNat ≤ i2.toNat →
      exec (.cmp i1 i2 depth) s = .next (errored s 3 (opInfo 0x21))) ∧
    (s.status.cfgValid = true → 64 ≤ s.blksz.toNat → s.status.stripeValid = true →
      i1.toNat < s.blksz.toNat → i2.toNat < s.blksz.toNat →
      exec (.cmp i1 i2 depth) s = .next (answered s (firstPairOrder
        (stripePairs s ((i1.toNat + depth.toNat) % s.blksz.toNat)
          ((i2.toNat + depth.toNat) % s.blksz.toNat)))))

/-- On a pure stripe `CMP` returns the lexicographic order of the rotations that start `depth` further on (R124). -/
def Obligations.CmpOrdersRotationsOnAPureStripe : Prop :=
  ∀ (s : State) (i1 i2 depth : Word),
    s.status.fault = false → s.status.cfgValid = true → 64 ≤ s.blksz.toNat → s.status.stripeValid = true →
    PureStripe s → i1.toNat < s.blksz.toNat → i2.toNat < s.blksz.toNat →
      exec (.cmp i1 i2 depth) s = .next (answered s (orderWord
        (rotation s (i1.toNat + depth.toNat) < rotation s (i2.toNat + depth.toNat))
        (rotation s (i1.toNat + depth.toNat) = rotation s (i2.toNat + depth.toNat))))

/-- When the first `depth` bytes of the two rotations are equal, that is the order of the rotations themselves (R124). -/
def Obligations.CmpWithEqualLeadingBytesOrdersTheRotations : Prop :=
  ∀ (s : State) (i1 i2 depth : Word),
    s.status.fault = false → s.status.cfgValid = true → 64 ≤ s.blksz.toNat → s.status.stripeValid = true →
    PureStripe s → i1.toNat < s.blksz.toNat → i2.toNat < s.blksz.toNat →
    (∀ k < depth.toNat,
      s.blockAt ((i1.toNat + k) % s.blksz.toNat) = s.blockAt ((i2.toNat + k) % s.blksz.toNat)) →
      exec (.cmp i1 i2 depth) s = .next (answered s (orderWord
        (rotation s i1.toNat < rotation s i2.toNat) (rotation s i1.toNat = rotation s i2.toNat)))

/-- `CMP` of a rotation with itself is 0, and swapping the operands negates the result, on any stripe contents (R125
(a), (b), R126). -/
def Obligations.CmpIsReflexiveAndAntisymmetric : Prop :=
  ∀ (s : State) (i1 i2 depth : Word),
    s.status.fault = false → s.status.cfgValid = true → 64 ≤ s.blksz.toNat → s.status.stripeValid = true →
    i1.toNat < s.blksz.toNat → i2.toNat < s.blksz.toNat →
      exec (.cmp i1 i1 depth) s = .next (answered s 0) ∧
      ∃ r : Word, exec (.cmp i1 i2 depth) s = .next (answered s r) ∧
        exec (.cmp i2 i1 depth) s = .next (answered s (-r))

/-! ## Presort (41_presort.md) -/

/-- `RSCNT` (R141): every word of `BT` is the number of rotations with that key, the sentinel 0; the counts sum to `N`,
and no `SORTED` bit is set for an `N` within its range. -/
def Obligations.RscntCountsTheKeys : Prop :=
  decode (commandWord 0x30 0 0 0) = .ok .rscnt ∧
  ∀ s : State, s.status.fault = false →
    (s.status.cfgValid = false → exec .rscnt s = .next (errored s 2 (opInfo 0x30))) ∧
    (s.status.cfgValid = true →
      ∃ m : Memory 32,
        exec .rscnt s = .next (answered
          { s with bt := m, status := { s.status with rsStage := .counted, bigordValid := false } } 0) ∧
        (∀ k, Memory.read Config.btInit m k =
          if k < 65536 then BitVec.ofNat 32 (rotationsWith s (fun x => x == k))
          else if k = 65536 then 0 else s.btAt k) ∧
        (s.blksz.toNat ≤ 2 ^ 31 - 1 → ∀ k ≤ 65536, (Memory.read Config.btInit m k).getLsbD 31 = false) ∧
        ((List.range 65536).map fun k => (Memory.read Config.btInit m k).toNat).sum = s.blksz.toNat)

/-- `RSCUM` (R142): every word of `BT` becomes the sum of the words up to it; of the counts of `RSCNT`, that is the
number of rotations with a key up to its index, non-decreasing, and `N` at the sentinel. R142 shows that those sums fit;
that a sum of other words, in states no run reaches, wraps at 32 bits is the model's reading (log entry 6). -/
def Obligations.RscumCumulates : Prop :=
  decode (commandWord 0x31 0 0 0) = .ok .rscum ∧
  ∀ s : State, s.status.fault = false →
    (s.status.cfgValid = false → exec .rscum s = .next (errored s 2 (opInfo 0x31))) ∧
    (s.status.cfgValid = true → s.status.rsStage ≠ .counted →
      exec .rscum s = .next (errored s 4 (opInfo 0x31))) ∧
    (s.status.cfgValid = true → s.status.rsStage = .counted →
      ∃ m : Memory 32,
        exec .rscum s = .next (answered
          { s with bt := m, status := { s.status with rsStage := .cumulated } } 0) ∧
        (∀ k, Memory.read Config.btInit m k =
          if k ≤ 65536 then ((List.range (k + 1)).map s.btAt).sum else s.btAt k) ∧
        ((∀ k < 65536, (s.btAt k).toNat = rotationsWith s (fun x => x == k)) → s.btAt 65536 = 0 →
          (∀ k ≤ 65536, (Memory.read Config.btInit m k).toNat = rotationsWith s (fun x => decide (x ≤ k))) ∧
          (∀ k ≤ 65535, (Memory.read Config.btInit m k).toNat ≤ (Memory.read Config.btInit m (k + 1)).toNat) ∧
          Memory.read Config.btInit m 65536 = s.blksz))

/-- `RSSCT` (R143): it completes at stage 2, and when `BT` holds the cumulated counts (R142) it leaves every rotation at
its place in the order by key and the bucket starts in `BT`. -/
def Obligations.RssctScatters : Prop :=
  decode (commandWord 0x32 0 0 0) = .ok .rssct ∧
  ∀ s : State, s.status.fault = false →
    (s.status.cfgValid = false → exec .rssct s = .next (errored s 2 (opInfo 0x32))) ∧
    (s.status.cfgValid = true → s.status.rsStage ≠ .cumulated →
      exec .rssct s = .next (errored s 4 (opInfo 0x32))) ∧
    (s.status.cfgValid = true → s.status.rsStage = .cumulated →
      ∃ m p : Memory 32,
        exec .rssct s = .next (answered
          { s with bt := m, ptr := p, status := { s.status with rsStage := .scattered } } 0) ∧
        ((∀ k ≤ 65536, (s.btAt k).toNat = rotationsWith s (fun x => decide (x ≤ k))) →
          (∀ i < s.blksz.toNat, Memory.read Config.ptrInit p (sortPlace s i) = BitVec.ofNat 32 i) ∧
          (∀ x, s.blksz.toNat ≤ x → Memory.read Config.ptrInit p x = s.ptrAt x) ∧
          (∀ k ≤ 65536, (Memory.read Config.btInit m k).toNat = rotationsWith s (fun x => decide (x < k))) ∧
          (∀ k, 65536 < k → Memory.read Config.btInit m k = s.btAt k)))

/-- `RSORT` (R145) leaves the state of a complete presort (R144): `PTR` a permutation, sorted by key and ascending
within a key, `BT` the bucket starts with every `SORTED` bit 0, `PTR[N]` unchanged. -/
def Obligations.RsortSortsByKey : Prop :=
  decode (commandWord 0x33 0 0 0) = .ok .rsort ∧
  ∀ s : State, s.status.fault = false →
    (s.status.cfgValid = false → exec .rsort s = .next (errored s 2 (opInfo 0x33))) ∧
    (s.status.cfgValid = true →
      ∃ m p : Memory 32,
        exec .rsort s = .next (answered
          { s with bt := m, ptr := p, status := { s.status with rsStage := .scattered, bigordValid := false } } 0) ∧
        ((List.range s.blksz.toNat).map fun x => (Memory.read Config.ptrInit p x).toNat).Perm
          (List.range s.blksz.toNat) ∧
        (∀ x y, x < y → y < s.blksz.toNat →
          keyOf s (Memory.read Config.ptrInit p x).toNat ≤ keyOf s (Memory.read Config.ptrInit p y).toNat) ∧
        (∀ x y, x < y → y < s.blksz.toNat →
          keyOf s (Memory.read Config.ptrInit p x).toNat = keyOf s (Memory.read Config.ptrInit p y).toNat →
          (Memory.read Config.ptrInit p x).toNat < (Memory.read Config.ptrInit p y).toNat) ∧
        (∀ x, s.blksz.toNat ≤ x → Memory.read Config.ptrInit p x = s.ptrAt x) ∧
        (∀ k ≤ 65536, (Memory.read Config.btInit m k).toNat = rotationsWith s (fun x => decide (x < k))) ∧
        (∀ k ≤ 65535, (Memory.read Config.btInit m k).toNat ≤ (Memory.read Config.btInit m (k + 1)).toNat) ∧
        (Memory.read Config.btInit m 0 = 0 ∧ Memory.read Config.btInit m 65536 = s.blksz) ∧
        (s.blksz.toNat ≤ 2 ^ 31 - 1 → ∀ k ≤ 65536, (Memory.read Config.btInit m k).getLsbD 31 = false) ∧
        (∀ k, 65536 < k → Memory.read Config.btInit m k = s.btAt k))

/-- `RSORT` (R145) makes exactly the state changes of `RSCNT`, `RSCUM`, `RSSCT`, at any stage, with one response and one
increment of `SEQ`. -/
def Obligations.RsortIsTheThreeStages : Prop :=
  decode (commandWord 0x33 0 0 0) = .ok .rsort ∧
  ∀ s : State, s.status.fault = false →
    (s.status.cfgValid = false → exec .rsort s = .next (errored s 2 (opInfo 0x33))) ∧
    (s.status.cfgValid = true →
      ∃ t1 t2 t3 : State, exec .rscnt s = .next t1 ∧ exec .rscum t1 = .next t2 ∧ exec .rssct t2 = .next t3 ∧
        exec .rsort s = .next { t3 with seq := s.seq + 1, rsps := s.rsps ++ [0x0000000000000000] })

/-- `BIGORD` (R147): `BORD` is what the loops leave, ties included; it orders the 256 big buckets by ascending size
(R148 (a), (b), which the spec derives from R147), and is the identity when all sizes are equal. That a size is cut at 0
where `BT` does not rise, in states no run reaches, is the model's reading (log entry 6). -/
def Obligations.BigordOrdersBucketsBySize : Prop :=
  decode (commandWord 0x34 0 0 0) = .ok .bigord ∧
  ∀ s : State, s.status.fault = false →
    (s.status.cfgValid = false → exec .bigord s = .next (errored s 2 (opInfo 0x34))) ∧
    (s.status.cfgValid = true → s.status.rsStage ≠ .scattered →
      exec .bigord s = .next (errored s 4 (opInfo 0x34))) ∧
    (s.status.cfgValid = true → s.status.rsStage = .scattered →
      ∃ m : Memory 8,
        exec .bigord s = .next (answered
          { s with bord := m, status := { s.status with bigordValid := true } } 0) ∧
        (∀ j < 256, (Memory.read Config.bordInit m j).toNat = bordAfterLoops (bucketSize s) j) ∧
        IsPermutation (Memory.read Config.bordInit m) ∧
        (∀ x y, x < y → y < 256 →
          bucketSize s (Memory.read Config.bordInit m x).toNat ≤
            bucketSize s (Memory.read Config.bordInit m y).toNat) ∧
        ((∀ x < 256, bucketSize s x = bucketSize s 0) →
          ∀ j < 256, Memory.read Config.bordInit m j = BitVec.ofNat 8 j) ∧
        (∀ j, 256 ≤ j → Memory.read Config.bordInit m j = s.bordAt j))

/-- The result of `BIGORD` is a function of the 256 sizes alone (R148 (c)), sizes cut at 0 as log entry 6 says. -/
def Obligations.BigordDependsOnSizesAlone : Prop :=
  ∀ s s' t t' : State, s.status.rsStage = .scattered → s'.status.rsStage = .scattered →
    s.status.fault = false → s'.status.fault = false → s.status.cfgValid = true → s'.status.cfgValid = true →
    (∀ b < 256, bucketSize s b = bucketSize s' b) → exec .bigord s = .next t → exec .bigord s' = .next t' →
      ∀ j < 256, t.bordAt j = t'.bordAt j

/-! ## Move-to-front (42_mtf.md) -/

/-- `MTFINIT` (R160): no configuration needed, a pending run discarded. -/
def Obligations.MtfinitInitialisesTheList : Prop :=
  decode (commandWord 0x40 0 0 0) = .ok .mtfinit ∧
  ∀ s : State, s.status.fault = false →
    ∃ m : Memory 8,
      exec .mtfinit s = .next (answered
        { s with mtf := m, zrun := 0, status := { s.status with mtfValid := true } } 0) ∧
      ∀ j, Memory.read Config.mtfInit m j = if j < 256 then BitVec.ofNat 8 j else s.mtfAt j

/-- `MTFB c` (R165) with the rank of R161, the update of R162, the flush of R163 and the rank code of R164. -/
def Obligations.MtfbEncodesOneByte : Prop :=
  ∀ c : Word, decode (commandWord 0x41 0 c 0) = .ok (.mtfb c) ∧
  ∀ s : State, s.status.fault = false →
    (s.status.mtfValid = false → exec (.mtfb c) s = .next (errored s 4 (opInfo 0x41))) ∧
    (s.status.mtfValid = true → 255 < c.toNat → exec (.mtfb c) s = .next (errored s 3 (opInfo 0x41))) ∧
    (s.status.mtfValid = true → c.toNat ≤ 255 → s.mtfAt 0 = c.extractLsb' 0 8 → s.zrun.toNat = 2 ^ 32 - 1 →
      exec (.mtfb c) s = .next (errored s 8 (opInfo 0x41))) ∧
    (s.status.mtfValid = true → c.toNat ≤ 255 →
      ¬ (s.mtfAt 0 = c.extractLsb' 0 8 ∧ s.zrun.toNat = 2 ^ 32 - 1) →
      ∀ k : Nat, IsRank s (c.extractLsb' 0 8) k →
        ∃ m : Memory 8,
          exec (.mtfb c) s = .next (answered
            { s with
              mtf := m
              zrun := if k = 0 then s.zrun + 1 else 0
              toks := s.toks ++ if k = 0 then [] else runTokens s.zrun ++ tokensOfRank k } (BitVec.ofNat 32 k)) ∧
          ∀ j, Memory.read Config.mtfInit m j =
            if j = 0 then c.extractLsb' 0 8 else if j ≤ k then s.mtfAt (j - 1) else s.mtfAt j)

/-- `MTFEOB` (R166): the flush, then token `000A`; the list is unchanged. -/
def Obligations.MtfeobEndsTheBlock : Prop :=
  decode (commandWord 0x42 0 0 0) = .ok .mtfeob ∧
  ∀ s : State, s.status.fault = false →
    (s.status.mtfValid = false → exec .mtfeob s = .next (errored s 4 (opInfo 0x42))) ∧
    (s.status.mtfValid = true →
      exec .mtfeob s = .next (answered
        { s with zrun := 0, toks := s.toks ++ (runTokens s.zrun ++ [0x000A]) } 0))

/-- `MTFWORD w` (R167): four `ORIGIN` tokens, most significant byte first, and nothing else. -/
def Obligations.MtfwordEmitsFourBytes : Prop :=
  ∀ w : Word, decode (commandWord 0x43 0 w 0) = .ok (.mtfword w) ∧
  ∀ s : State, s.status.fault = false →
    exec (.mtfword w) s = .next (answered
      { s with
        toks := s.toks ++
          [0x20#8 ++ w.extractLsb' 24 8, 0x20#8 ++ w.extractLsb' 16 8, 0x20#8 ++ w.extractLsb' 8 8,
           0x20#8 ++ w.extractLsb' 0 8] } 0)

/-- `MTFBLK` (R168): its errors, and otherwise the tokens and the list of `N` commands `MTFB` with the bytes of the block
in `PTR` order followed by `MTFEOB`, as the spec derives from R165 and R166. -/
def Obligations.MtfblkIsMtfbsThenMtfeob : Prop :=
  decode (commandWord 0x44 0 0 0) = .ok .mtfblk ∧
  ∀ s : State, s.status.fault = false →
    (s.status.cfgValid = false → exec .mtfblk s = .next (errored s 2 (opInfo 0x44))) ∧
    (s.status.cfgValid = true → s.status.mtfValid = false →
      exec .mtfblk s = .next (errored s 4 (opInfo 0x44))) ∧
    (s.status.cfgValid = true → s.status.mtfValid = true → 2 ^ 32 - 1 < s.zrun.toNat + s.blksz.toNat →
      exec .mtfblk s = .next (errored s 8 (opInfo 0x44))) ∧
    (s.status.cfgValid = true → s.status.mtfValid = true → s.zrun.toNat + s.blksz.toNat ≤ 2 ^ 32 - 1 →
      ∃ (m : Memory 8) (ts : List Token) (u : State),
        exec .mtfblk s = .next (answered { s with mtf := m, zrun := 0, toks := s.toks ++ ts } 0) ∧
        runCommands ((bwtBytes s).map (fun c => .mtfb (c.setWidth 32)) ++ [.mtfeob]) s = some u ∧
        u.toks = s.toks ++ ts ∧ ∀ j, Memory.read Config.mtfInit m j = u.mtfAt j)

/-- The run code (R163, R170 (c)): the tokens `MTFEOB` emits before `EOB` are run digits whose sum of
`(digit + 1) * 2^i` is the pending run, and there are `floor(log2(run + 1))` of them. -/
def Obligations.RunTokensRecoverTheRun : Prop :=
  ∀ s t : State, s.status.fault = false → s.status.mtfValid = true → exec .mtfeob s = .next t →
    ∃ digits : List Token, t.toks = s.toks ++ (digits ++ [0x000A]) ∧ (∀ d ∈ digits, d = 0x0000 ∨ d = 0x0001) ∧
      (digits.zipIdx.map fun p => (p.1.toNat + 1) * 2 ^ p.2).sum = s.zrun.toNat ∧
      digits.length = Nat.log 2 (s.zrun.toNat + 1)

/-- The tokens of `MTFBLK` decode (R169) to the pending run and the bytes of the block, and to the list it leaves
(R170 (b)). -/
def Obligations.MtfblkTokensDecodeToTheBytes : Prop :=
  ∀ s : State, s.status.fault = false → s.status.cfgValid = true → s.status.mtfValid = true →
    IsPermutation s.mtfAt → s.zrun.toNat + s.blksz.toNat ≤ 2 ^ 32 - 1 →
      ∃ (t : State) (ts : List Token), exec .mtfblk s = .next t ∧ t.toks = s.toks ++ ts ∧
        replay ts (listOf s) 0 1 none [] =
          some (List.replicate s.zrun.toNat (s.mtfAt 0) ++ bwtBytes s, listOf t)

/-! ## Who writes what (10_state.md) -/

/-- Each memory is written only by the commands R37 lists for it, `BLKSZ` only by `CFG` and `CLEAR` (R24), `CTRL` only
by `CSRWR` (R34), `ZRUN` only by the encoder's commands, `CFG` and `CLEAR` (R36), `CAP` by none (R33), and tokens are
emitted only by the encoding commands. -/
def Obligations.OnlyTheListedCommandsWrite : Prop :=
  ∀ (i : Instr) (s t : State), exec i s = .next t →
    t.cap = s.cap ∧ t.cmds = s.cmds ∧
    (t.blksz = s.blksz ∨ (∃ n, i = .cfg n) ∨ i = .clear) ∧
    (t.ie = s.ie ∨ ∃ v, i = .csrwr 4 v) ∧
    (t.zrun = s.zrun ∨ i = .mtfinit ∨ (∃ n, i = .cfg n) ∨ i = .clear ∨ (∃ c, i = .mtfb c) ∨ i = .mtfeob ∨
      i = .mtfblk) ∧
    (t.block = s.block ∨ (∃ a v, i = .blkwr a v) ∨ ∃ a w, i = .blkwr4 a w) ∧
    (t.stripe = s.stripe ∨ i = .stbuild ∨ ∃ p w, i = .stwr p w) ∧
    (t.ptr = s.ptr ∨ i = .rssct ∨ i = .rsort ∨ ∃ j v, i = .ptrwr j v) ∧
    (t.bt = s.bt ∨ i = .rscnt ∨ i = .rscum ∨ i = .rssct ∨ i = .rsort ∨ ∃ k, i = .btmark k) ∧
    (t.bord = s.bord ∨ i = .bigord) ∧
    (t.mtf = s.mtf ∨ i = .mtfinit ∨ (∃ n, i = .cfg n) ∨ (∃ c, i = .mtfb c) ∨ i = .mtfblk) ∧
    (t.toks = s.toks ∨ (∃ c, i = .mtfb c) ∨ i = .mtfeob ∨ (∃ w, i = .mtfword w) ∨ i = .mtfblk)

/-- Each flag is set and cleared only by the commands of R26 to R32 (the table of R46). -/
def Obligations.FlagsChangeOnlyAsTabulated : Prop :=
  ∀ (i : Instr) (s t : State), exec i s = .next t →
    (t.status.cfgValid = s.status.cfgValid ∨ (t.status.cfgValid = true ∧ ∃ n, i = .cfg n) ∨
      (t.status.cfgValid = false ∧ i = .clear)) ∧
    (t.status.stripeValid = s.status.stripeValid ∨ (t.status.stripeValid = true ∧ i = .stbuild) ∨
      (t.status.stripeValid = false ∧ dropsDerived i)) ∧
    (t.status.stripeTagged = s.status.stripeTagged ∨ (t.status.stripeTagged = true ∧ ∃ p w, i = .stwr p w) ∨
      (t.status.stripeTagged = false ∧ (i = .stbuild ∨ dropsDerived i))) ∧
    (t.status.rsStage = s.status.rsStage ∨ (t.status.rsStage = .counted ∧ i = .rscnt) ∨
      (t.status.rsStage = .cumulated ∧ i = .rscum) ∨
      (t.status.rsStage = .scattered ∧ (i = .rssct ∨ i = .rsort)) ∨
      (t.status.rsStage = .idle ∧ dropsDerived i)) ∧
    (t.status.bigordValid = s.status.bigordValid ∨ (t.status.bigordValid = true ∧ i = .bigord) ∨
      (t.status.bigordValid = false ∧ (i = .rscnt ∨ i = .rsort ∨ dropsDerived i))) ∧
    (t.status.mtfValid = s.status.mtfValid ∨
      (t.status.mtfValid = true ∧ (i = .mtfinit ∨ ∃ n, i = .cfg n)) ∨
      (t.status.mtfValid = false ∧ i = .clear)) ∧
    (t.status.fault = s.status.fault ∨ (t.status.fault = false ∧ i = .clrerr) ∨
      (t.status.fault = true ∧ ∃ code, code ≠ 0 ∧ t = errored s code (opInfo (opcode i))))

/-! ## Reset and the invariants every step keeps -/

/-- The state after reset (R47, 70_reset_and_hazards.md R280): every register and flag at its value, `CAP` at `NMAX`
within its range (00_scope.md R6), nothing written in any memory, `irq` low, no response and no token. That an
unwritten element is not listed, that `CAP` is a field, and the empty `cmds` are the model's form (log entries 1 to 3). -/
def Obligations.ResetStateIsAsTabulated : Prop :=
  csrs State.reset =
    [0x524C4331, BitVec.ofNat 32 Config.nmax, 0, 0, 0, 0, 0, 0, 0, 0] ∧
  (64 ≤ Config.nmax ∧ Config.nmax ≤ 2 ^ 31 - 1) ∧
  (∀ a, Memory.find State.reset.block a = none ∧ Memory.find State.reset.stripe a = none ∧
    Memory.find State.reset.ptr a = none ∧ Memory.find State.reset.bt a = none ∧
    Memory.find State.reset.bord a = none ∧ Memory.find State.reset.mtf a = none) ∧
  State.reset.irq = false ∧ State.reset.cmds = [] ∧ State.reset.rsps = [] ∧ State.reset.toks = []

/-- Every invariant holds after reset; the canonical form among them is the model's (log entry 1). -/
def Obligations.ResetMeetsTheInvariants : Prop :=
  MemoriesCanonical State.reset ∧ ConfigConsistent State.reset ∧ ErrorsConsistent State.reset ∧
  MtfConsistent State.reset ∧ StripeConsistent State.reset ∧ PresortConsistent State.reset ∧
  OrderConsistent State.reset ∧ WithinCapacity State.reset

/-- Every step keeps the six memories in canonical form, indices strictly rising. The form is the model's, a DESIGN
CHOICE (log entry 1): no rule of the spec speaks of it. -/
def Obligations.StepsKeepMemoriesCanonical : Prop :=
  ∀ s t : State, MemoriesCanonical s → step s = .next t → MemoriesCanonical t

/-- Every step keeps the configuration and the flags consistent: `N <= NMAX`, nothing derived without a
configuration, no stripe of a small block, no bucket order without a complete presort (R24 to R31). -/
def Obligations.StepsKeepConfigConsistent : Prop :=
  ∀ s t : State, ConfigConsistent s → step s = .next t → ConfigConsistent t

/-- Every step keeps `ERRCODE = 0` exactly when `FAULT = 0`, and `ERRCODE` is never 6 (R35, R246, R248). -/
def Obligations.StepsKeepErrorsConsistent : Prop :=
  ∀ s t : State, ErrorsConsistent s → step s = .next t → ErrorsConsistent t

/-- Every step keeps `MTF` a permutation while `MTF_VALID = 1` (R44 (a)). -/
def Obligations.StepsKeepMtfAPermutation : Prop :=
  ∀ s t : State, MtfConsistent s → step s = .next t → MtfConsistent t

/-- Every step keeps the mirror while `STRIPE_VALID = 1` (R39), and an untagged stripe pure (R28). -/
def Obligations.StepsKeepStripeConsistent : Prop :=
  ∀ s t : State, StripeConsistent s → step s = .next t → StripeConsistent t

/-- Every step keeps what `BT` holds at each stage (R141 to R144), given a block size within the capacity. -/
def Obligations.StepsKeepPresortConsistent : Prop :=
  ∀ s t : State, ConfigConsistent s → PresortConsistent s → step s = .next t → PresortConsistent t

/-- Every step keeps `BORD` an ordering of the current big buckets by size while `BIGORD_VALID = 1` (R42), sizes cut at 0
as log entry 6 says. -/
def Obligations.StepsKeepOrderConsistent : Prop :=
  ∀ s t : State, ConfigConsistent s → OrderConsistent s → step s = .next t → OrderConsistent t

/-- No step writes beyond the capacity of a memory (R37, R67). -/
def Obligations.StepsStayWithinCapacity : Prop :=
  ∀ s t : State, ConfigConsistent s → PresortConsistent s → WithinCapacity s → step s = .next t → WithinCapacity t
end

