-- ==== Sys2Proof/Laws/State.lean ====
section
/-! SUPPORT. One lemma per field per named update of the state, so that no later proof unfolds an update. -/

namespace Sys2Proof.Machine

variable (s : State)

/-! ## `State.emit` -/

@[simp] theorem State.emit_cap (ts : List Token) : (s.emit ts).cap = s.cap := rfl
@[simp] theorem State.emit_blksz (ts : List Token) : (s.emit ts).blksz = s.blksz := rfl
@[simp] theorem State.emit_status (ts : List Token) : (s.emit ts).status = s.status := rfl
@[simp] theorem State.emit_ie (ts : List Token) : (s.emit ts).ie = s.ie := rfl
@[simp] theorem State.emit_errcode (ts : List Token) : (s.emit ts).errcode = s.errcode := rfl
@[simp] theorem State.emit_errseq (ts : List Token) : (s.emit ts).errseq = s.errseq := rfl
@[simp] theorem State.emit_errinfo (ts : List Token) : (s.emit ts).errinfo = s.errinfo := rfl
@[simp] theorem State.emit_seq (ts : List Token) : (s.emit ts).seq = s.seq := rfl
@[simp] theorem State.emit_zrun (ts : List Token) : (s.emit ts).zrun = s.zrun := rfl
@[simp] theorem State.emit_block (ts : List Token) : (s.emit ts).block = s.block := rfl
@[simp] theorem State.emit_stripe (ts : List Token) : (s.emit ts).stripe = s.stripe := rfl
@[simp] theorem State.emit_ptr (ts : List Token) : (s.emit ts).ptr = s.ptr := rfl
@[simp] theorem State.emit_bt (ts : List Token) : (s.emit ts).bt = s.bt := rfl
@[simp] theorem State.emit_bord (ts : List Token) : (s.emit ts).bord = s.bord := rfl
@[simp] theorem State.emit_mtf (ts : List Token) : (s.emit ts).mtf = s.mtf := rfl
@[simp] theorem State.emit_cmds (ts : List Token) : (s.emit ts).cmds = s.cmds := rfl
@[simp] theorem State.emit_rsps (ts : List Token) : (s.emit ts).rsps = s.rsps := rfl
@[simp] theorem State.emit_toks (ts : List Token) : (s.emit ts).toks = s.toks ++ ts := rfl

/-! ## `State.complete` -/

@[simp] theorem State.complete_cap (st : BitVec 8) (data : Word) : (s.complete st data).cap = s.cap := rfl
@[simp] theorem State.complete_blksz (st : BitVec 8) (data : Word) : (s.complete st data).blksz = s.blksz := rfl
@[simp] theorem State.complete_status (st : BitVec 8) (data : Word) : (s.complete st data).status = s.status := rfl
@[simp] theorem State.complete_ie (st : BitVec 8) (data : Word) : (s.complete st data).ie = s.ie := rfl
@[simp] theorem State.complete_errcode (st : BitVec 8) (data : Word) : (s.complete st data).errcode = s.errcode := rfl
@[simp] theorem State.complete_errseq (st : BitVec 8) (data : Word) : (s.complete st data).errseq = s.errseq := rfl
@[simp] theorem State.complete_errinfo (st : BitVec 8) (data : Word) : (s.complete st data).errinfo = s.errinfo := rfl
@[simp] theorem State.complete_seq (st : BitVec 8) (data : Word) : (s.complete st data).seq = s.seq + 1 := rfl
@[simp] theorem State.complete_zrun (st : BitVec 8) (data : Word) : (s.complete st data).zrun = s.zrun := rfl
@[simp] theorem State.complete_block (st : BitVec 8) (data : Word) : (s.complete st data).block = s.block := rfl
@[simp] theorem State.complete_stripe (st : BitVec 8) (data : Word) : (s.complete st data).stripe = s.stripe := rfl
@[simp] theorem State.complete_ptr (st : BitVec 8) (data : Word) : (s.complete st data).ptr = s.ptr := rfl
@[simp] theorem State.complete_bt (st : BitVec 8) (data : Word) : (s.complete st data).bt = s.bt := rfl
@[simp] theorem State.complete_bord (st : BitVec 8) (data : Word) : (s.complete st data).bord = s.bord := rfl
@[simp] theorem State.complete_mtf (st : BitVec 8) (data : Word) : (s.complete st data).mtf = s.mtf := rfl
@[simp] theorem State.complete_cmds (st : BitVec 8) (data : Word) : (s.complete st data).cmds = s.cmds := rfl
@[simp] theorem State.complete_rsps (st : BitVec 8) (data : Word) : (s.complete st data).rsps = s.rsps ++ [response st data] := rfl
@[simp] theorem State.complete_toks (st : BitVec 8) (data : Word) : (s.complete st data).toks = s.toks := rfl

/-! ## `State.recordError` -/

@[simp] theorem State.recordError_cap (e : Err) (info : Word) : (s.recordError e info).cap = s.cap := rfl
@[simp] theorem State.recordError_blksz (e : Err) (info : Word) : (s.recordError e info).blksz = s.blksz := rfl
@[simp] theorem State.recordError_status (e : Err) (info : Word) : (s.recordError e info).status = { s.status with fault := true } := rfl
@[simp] theorem State.recordError_ie (e : Err) (info : Word) : (s.recordError e info).ie = s.ie := rfl
@[simp] theorem State.recordError_errcode (e : Err) (info : Word) : (s.recordError e info).errcode = e.code.setWidth 32 := rfl
@[simp] theorem State.recordError_errseq (e : Err) (info : Word) : (s.recordError e info).errseq = s.seq := rfl
@[simp] theorem State.recordError_errinfo (e : Err) (info : Word) : (s.recordError e info).errinfo = info := rfl
@[simp] theorem State.recordError_seq (e : Err) (info : Word) : (s.recordError e info).seq = s.seq := rfl
@[simp] theorem State.recordError_zrun (e : Err) (info : Word) : (s.recordError e info).zrun = s.zrun := rfl
@[simp] theorem State.recordError_block (e : Err) (info : Word) : (s.recordError e info).block = s.block := rfl
@[simp] theorem State.recordError_stripe (e : Err) (info : Word) : (s.recordError e info).stripe = s.stripe := rfl
@[simp] theorem State.recordError_ptr (e : Err) (info : Word) : (s.recordError e info).ptr = s.ptr := rfl
@[simp] theorem State.recordError_bt (e : Err) (info : Word) : (s.recordError e info).bt = s.bt := rfl
@[simp] theorem State.recordError_bord (e : Err) (info : Word) : (s.recordError e info).bord = s.bord := rfl
@[simp] theorem State.recordError_mtf (e : Err) (info : Word) : (s.recordError e info).mtf = s.mtf := rfl
@[simp] theorem State.recordError_cmds (e : Err) (info : Word) : (s.recordError e info).cmds = s.cmds := rfl
@[simp] theorem State.recordError_rsps (e : Err) (info : Word) : (s.recordError e info).rsps = s.rsps := rfl
@[simp] theorem State.recordError_toks (e : Err) (info : Word) : (s.recordError e info).toks = s.toks := rfl

/-! ## `State.clearError` -/

@[simp] theorem State.clearError_cap : (s.clearError).cap = s.cap := rfl
@[simp] theorem State.clearError_blksz : (s.clearError).blksz = s.blksz := rfl
@[simp] theorem State.clearError_status : (s.clearError).status = { s.status with fault := false } := rfl
@[simp] theorem State.clearError_ie : (s.clearError).ie = s.ie := rfl
@[simp] theorem State.clearError_errcode : (s.clearError).errcode = 0 := rfl
@[simp] theorem State.clearError_errseq : (s.clearError).errseq = 0 := rfl
@[simp] theorem State.clearError_errinfo : (s.clearError).errinfo = 0 := rfl
@[simp] theorem State.clearError_seq : (s.clearError).seq = s.seq := rfl
@[simp] theorem State.clearError_zrun : (s.clearError).zrun = s.zrun := rfl
@[simp] theorem State.clearError_block : (s.clearError).block = s.block := rfl
@[simp] theorem State.clearError_stripe : (s.clearError).stripe = s.stripe := rfl
@[simp] theorem State.clearError_ptr : (s.clearError).ptr = s.ptr := rfl
@[simp] theorem State.clearError_bt : (s.clearError).bt = s.bt := rfl
@[simp] theorem State.clearError_bord : (s.clearError).bord = s.bord := rfl
@[simp] theorem State.clearError_mtf : (s.clearError).mtf = s.mtf := rfl
@[simp] theorem State.clearError_cmds : (s.clearError).cmds = s.cmds := rfl
@[simp] theorem State.clearError_rsps : (s.clearError).rsps = s.rsps := rfl
@[simp] theorem State.clearError_toks : (s.clearError).toks = s.toks := rfl

/-! ## `State.initList` -/

@[simp] theorem State.initList_cap : (s.initList).cap = s.cap := rfl
@[simp] theorem State.initList_blksz : (s.initList).blksz = s.blksz := rfl
@[simp] theorem State.initList_status : (s.initList).status = s.status := rfl
@[simp] theorem State.initList_ie : (s.initList).ie = s.ie := rfl
@[simp] theorem State.initList_errcode : (s.initList).errcode = s.errcode := rfl
@[simp] theorem State.initList_errseq : (s.initList).errseq = s.errseq := rfl
@[simp] theorem State.initList_errinfo : (s.initList).errinfo = s.errinfo := rfl
@[simp] theorem State.initList_seq : (s.initList).seq = s.seq := rfl
@[simp] theorem State.initList_zrun : (s.initList).zrun = 0 := rfl
@[simp] theorem State.initList_block : (s.initList).block = s.block := rfl
@[simp] theorem State.initList_stripe : (s.initList).stripe = s.stripe := rfl
@[simp] theorem State.initList_ptr : (s.initList).ptr = s.ptr := rfl
@[simp] theorem State.initList_bt : (s.initList).bt = s.bt := rfl
@[simp] theorem State.initList_bord : (s.initList).bord = s.bord := rfl
@[simp] theorem State.initList_mtf : (s.initList).mtf = Memory.load s.mtf 0 identityBytes := rfl
@[simp] theorem State.initList_cmds : (s.initList).cmds = s.cmds := rfl
@[simp] theorem State.initList_rsps : (s.initList).rsps = s.rsps := rfl
@[simp] theorem State.initList_toks : (s.initList).toks = s.toks := rfl

/-! ## `State.configure` -/

@[simp] theorem State.configure_cap (n : Word) : (s.configure n).cap = s.cap := rfl
@[simp] theorem State.configure_blksz (n : Word) : (s.configure n).blksz = n := rfl
@[simp] theorem State.configure_status (n : Word) : (s.configure n).status = s.status.afterCfg := rfl
@[simp] theorem State.configure_ie (n : Word) : (s.configure n).ie = s.ie := rfl
@[simp] theorem State.configure_errcode (n : Word) : (s.configure n).errcode = s.errcode := rfl
@[simp] theorem State.configure_errseq (n : Word) : (s.configure n).errseq = s.errseq := rfl
@[simp] theorem State.configure_errinfo (n : Word) : (s.configure n).errinfo = s.errinfo := rfl
@[simp] theorem State.configure_seq (n : Word) : (s.configure n).seq = s.seq := rfl
@[simp] theorem State.configure_zrun (n : Word) : (s.configure n).zrun = 0 := rfl
@[simp] theorem State.configure_block (n : Word) : (s.configure n).block = s.block := rfl
@[simp] theorem State.configure_stripe (n : Word) : (s.configure n).stripe = s.stripe := rfl
@[simp] theorem State.configure_ptr (n : Word) : (s.configure n).ptr = s.ptr := rfl
@[simp] theorem State.configure_bt (n : Word) : (s.configure n).bt = s.bt := rfl
@[simp] theorem State.configure_bord (n : Word) : (s.configure n).bord = s.bord := rfl
@[simp] theorem State.configure_mtf (n : Word) : (s.configure n).mtf = Memory.load s.mtf 0 identityBytes := rfl
@[simp] theorem State.configure_cmds (n : Word) : (s.configure n).cmds = s.cmds := rfl
@[simp] theorem State.configure_rsps (n : Word) : (s.configure n).rsps = s.rsps := rfl
@[simp] theorem State.configure_toks (n : Word) : (s.configure n).toks = s.toks := rfl

/-! ## `State.deconfigure` -/

@[simp] theorem State.deconfigure_cap : (s.deconfigure).cap = s.cap := rfl
@[simp] theorem State.deconfigure_blksz : (s.deconfigure).blksz = 0 := rfl
@[simp] theorem State.deconfigure_status : (s.deconfigure).status = s.status.afterClear := rfl
@[simp] theorem State.deconfigure_ie : (s.deconfigure).ie = s.ie := rfl
@[simp] theorem State.deconfigure_errcode : (s.deconfigure).errcode = s.errcode := rfl
@[simp] theorem State.deconfigure_errseq : (s.deconfigure).errseq = s.errseq := rfl
@[simp] theorem State.deconfigure_errinfo : (s.deconfigure).errinfo = s.errinfo := rfl
@[simp] theorem State.deconfigure_seq : (s.deconfigure).seq = s.seq := rfl
@[simp] theorem State.deconfigure_zrun : (s.deconfigure).zrun = 0 := rfl
@[simp] theorem State.deconfigure_block : (s.deconfigure).block = s.block := rfl
@[simp] theorem State.deconfigure_stripe : (s.deconfigure).stripe = s.stripe := rfl
@[simp] theorem State.deconfigure_ptr : (s.deconfigure).ptr = s.ptr := rfl
@[simp] theorem State.deconfigure_bt : (s.deconfigure).bt = s.bt := rfl
@[simp] theorem State.deconfigure_bord : (s.deconfigure).bord = s.bord := rfl
@[simp] theorem State.deconfigure_mtf : (s.deconfigure).mtf = s.mtf := rfl
@[simp] theorem State.deconfigure_cmds : (s.deconfigure).cmds = s.cmds := rfl
@[simp] theorem State.deconfigure_rsps : (s.deconfigure).rsps = s.rsps := rfl
@[simp] theorem State.deconfigure_toks : (s.deconfigure).toks = s.toks := rfl

/-! ## `State.writeBlock` -/

@[simp] theorem State.writeBlock_cap (a : Nat) (bs : List Byte) : (s.writeBlock a bs).cap = s.cap := rfl
@[simp] theorem State.writeBlock_blksz (a : Nat) (bs : List Byte) : (s.writeBlock a bs).blksz = s.blksz := rfl
@[simp] theorem State.writeBlock_status (a : Nat) (bs : List Byte) : (s.writeBlock a bs).status = s.status.dropDerived := rfl
@[simp] theorem State.writeBlock_ie (a : Nat) (bs : List Byte) : (s.writeBlock a bs).ie = s.ie := rfl
@[simp] theorem State.writeBlock_errcode (a : Nat) (bs : List Byte) : (s.writeBlock a bs).errcode = s.errcode := rfl
@[simp] theorem State.writeBlock_errseq (a : Nat) (bs : List Byte) : (s.writeBlock a bs).errseq = s.errseq := rfl
@[simp] theorem State.writeBlock_errinfo (a : Nat) (bs : List Byte) : (s.writeBlock a bs).errinfo = s.errinfo := rfl
@[simp] theorem State.writeBlock_seq (a : Nat) (bs : List Byte) : (s.writeBlock a bs).seq = s.seq := rfl
@[simp] theorem State.writeBlock_zrun (a : Nat) (bs : List Byte) : (s.writeBlock a bs).zrun = s.zrun := rfl
@[simp] theorem State.writeBlock_block (a : Nat) (bs : List Byte) : (s.writeBlock a bs).block = Memory.load s.block a bs := rfl
@[simp] theorem State.writeBlock_stripe (a : Nat) (bs : List Byte) : (s.writeBlock a bs).stripe = s.stripe := rfl
@[simp] theorem State.writeBlock_ptr (a : Nat) (bs : List Byte) : (s.writeBlock a bs).ptr = s.ptr := rfl
@[simp] theorem State.writeBlock_bt (a : Nat) (bs : List Byte) : (s.writeBlock a bs).bt = s.bt := rfl
@[simp] theorem State.writeBlock_bord (a : Nat) (bs : List Byte) : (s.writeBlock a bs).bord = s.bord := rfl
@[simp] theorem State.writeBlock_mtf (a : Nat) (bs : List Byte) : (s.writeBlock a bs).mtf = s.mtf := rfl
@[simp] theorem State.writeBlock_cmds (a : Nat) (bs : List Byte) : (s.writeBlock a bs).cmds = s.cmds := rfl
@[simp] theorem State.writeBlock_rsps (a : Nat) (bs : List Byte) : (s.writeBlock a bs).rsps = s.rsps := rfl
@[simp] theorem State.writeBlock_toks (a : Nat) (bs : List Byte) : (s.writeBlock a bs).toks = s.toks := rfl

/-! ## `State.tagStripe` -/

@[simp] theorem State.tagStripe_cap (p : Nat) (w : Word) : (s.tagStripe p w).cap = s.cap := rfl
@[simp] theorem State.tagStripe_blksz (p : Nat) (w : Word) : (s.tagStripe p w).blksz = s.blksz := rfl
@[simp] theorem State.tagStripe_status (p : Nat) (w : Word) : (s.tagStripe p w).status = s.status.afterTag := rfl
@[simp] theorem State.tagStripe_ie (p : Nat) (w : Word) : (s.tagStripe p w).ie = s.ie := rfl
@[simp] theorem State.tagStripe_errcode (p : Nat) (w : Word) : (s.tagStripe p w).errcode = s.errcode := rfl
@[simp] theorem State.tagStripe_errseq (p : Nat) (w : Word) : (s.tagStripe p w).errseq = s.errseq := rfl
@[simp] theorem State.tagStripe_errinfo (p : Nat) (w : Word) : (s.tagStripe p w).errinfo = s.errinfo := rfl
@[simp] theorem State.tagStripe_seq (p : Nat) (w : Word) : (s.tagStripe p w).seq = s.seq := rfl
@[simp] theorem State.tagStripe_zrun (p : Nat) (w : Word) : (s.tagStripe p w).zrun = s.zrun := rfl
@[simp] theorem State.tagStripe_block (p : Nat) (w : Word) : (s.tagStripe p w).block = s.block := rfl
@[simp] theorem State.tagStripe_stripe (p : Nat) (w : Word) : (s.tagStripe p w).stripe = if p < 64 then Memory.put (Memory.put s.stripe p w) (s.size + p) w else Memory.put s.stripe p w := rfl
@[simp] theorem State.tagStripe_ptr (p : Nat) (w : Word) : (s.tagStripe p w).ptr = s.ptr := rfl
@[simp] theorem State.tagStripe_bt (p : Nat) (w : Word) : (s.tagStripe p w).bt = s.bt := rfl
@[simp] theorem State.tagStripe_bord (p : Nat) (w : Word) : (s.tagStripe p w).bord = s.bord := rfl
@[simp] theorem State.tagStripe_mtf (p : Nat) (w : Word) : (s.tagStripe p w).mtf = s.mtf := rfl
@[simp] theorem State.tagStripe_cmds (p : Nat) (w : Word) : (s.tagStripe p w).cmds = s.cmds := rfl
@[simp] theorem State.tagStripe_rsps (p : Nat) (w : Word) : (s.tagStripe p w).rsps = s.rsps := rfl
@[simp] theorem State.tagStripe_toks (p : Nat) (w : Word) : (s.tagStripe p w).toks = s.toks := rfl

/-! ## `State.buildStripe` -/

@[simp] theorem State.buildStripe_cap : (s.buildStripe).cap = s.cap := rfl
@[simp] theorem State.buildStripe_blksz : (s.buildStripe).blksz = s.blksz := rfl
@[simp] theorem State.buildStripe_status : (s.buildStripe).status = s.status.afterBuild := rfl
@[simp] theorem State.buildStripe_ie : (s.buildStripe).ie = s.ie := rfl
@[simp] theorem State.buildStripe_errcode : (s.buildStripe).errcode = s.errcode := rfl
@[simp] theorem State.buildStripe_errseq : (s.buildStripe).errseq = s.errseq := rfl
@[simp] theorem State.buildStripe_errinfo : (s.buildStripe).errinfo = s.errinfo := rfl
@[simp] theorem State.buildStripe_seq : (s.buildStripe).seq = s.seq := rfl
@[simp] theorem State.buildStripe_zrun : (s.buildStripe).zrun = s.zrun := rfl
@[simp] theorem State.buildStripe_block : (s.buildStripe).block = s.block := rfl
@[simp] theorem State.buildStripe_ptr : (s.buildStripe).ptr = s.ptr := rfl
@[simp] theorem State.buildStripe_bt : (s.buildStripe).bt = s.bt := rfl
@[simp] theorem State.buildStripe_bord : (s.buildStripe).bord = s.bord := rfl
@[simp] theorem State.buildStripe_mtf : (s.buildStripe).mtf = s.mtf := rfl
@[simp] theorem State.buildStripe_cmds : (s.buildStripe).cmds = s.cmds := rfl
@[simp] theorem State.buildStripe_rsps : (s.buildStripe).rsps = s.rsps := rfl
@[simp] theorem State.buildStripe_toks : (s.buildStripe).toks = s.toks := rfl

/-! ## `State.countKeys` -/

@[simp] theorem State.countKeys_cap : (s.countKeys).cap = s.cap := rfl
@[simp] theorem State.countKeys_blksz : (s.countKeys).blksz = s.blksz := rfl
@[simp] theorem State.countKeys_status : (s.countKeys).status = s.status.afterCount := rfl
@[simp] theorem State.countKeys_ie : (s.countKeys).ie = s.ie := rfl
@[simp] theorem State.countKeys_errcode : (s.countKeys).errcode = s.errcode := rfl
@[simp] theorem State.countKeys_errseq : (s.countKeys).errseq = s.errseq := rfl
@[simp] theorem State.countKeys_errinfo : (s.countKeys).errinfo = s.errinfo := rfl
@[simp] theorem State.countKeys_seq : (s.countKeys).seq = s.seq := rfl
@[simp] theorem State.countKeys_zrun : (s.countKeys).zrun = s.zrun := rfl
@[simp] theorem State.countKeys_block : (s.countKeys).block = s.block := rfl
@[simp] theorem State.countKeys_stripe : (s.countKeys).stripe = s.stripe := rfl
@[simp] theorem State.countKeys_ptr : (s.countKeys).ptr = s.ptr := rfl
@[simp] theorem State.countKeys_bord : (s.countKeys).bord = s.bord := rfl
@[simp] theorem State.countKeys_mtf : (s.countKeys).mtf = s.mtf := rfl
@[simp] theorem State.countKeys_cmds : (s.countKeys).cmds = s.cmds := rfl
@[simp] theorem State.countKeys_rsps : (s.countKeys).rsps = s.rsps := rfl
@[simp] theorem State.countKeys_toks : (s.countKeys).toks = s.toks := rfl

/-! ## `State.cumulate` -/

@[simp] theorem State.cumulate_cap : (s.cumulate).cap = s.cap := rfl
@[simp] theorem State.cumulate_blksz : (s.cumulate).blksz = s.blksz := rfl
@[simp] theorem State.cumulate_status : (s.cumulate).status = s.status.afterCumulate := rfl
@[simp] theorem State.cumulate_ie : (s.cumulate).ie = s.ie := rfl
@[simp] theorem State.cumulate_errcode : (s.cumulate).errcode = s.errcode := rfl
@[simp] theorem State.cumulate_errseq : (s.cumulate).errseq = s.errseq := rfl
@[simp] theorem State.cumulate_errinfo : (s.cumulate).errinfo = s.errinfo := rfl
@[simp] theorem State.cumulate_seq : (s.cumulate).seq = s.seq := rfl
@[simp] theorem State.cumulate_zrun : (s.cumulate).zrun = s.zrun := rfl
@[simp] theorem State.cumulate_block : (s.cumulate).block = s.block := rfl
@[simp] theorem State.cumulate_stripe : (s.cumulate).stripe = s.stripe := rfl
@[simp] theorem State.cumulate_ptr : (s.cumulate).ptr = s.ptr := rfl
@[simp] theorem State.cumulate_bt : (s.cumulate).bt = Memory.load s.bt 0 (runningSums 0 (Memory.slice Config.btInit s.bt 0 btLen)) := rfl
@[simp] theorem State.cumulate_bord : (s.cumulate).bord = s.bord := rfl
@[simp] theorem State.cumulate_mtf : (s.cumulate).mtf = s.mtf := rfl
@[simp] theorem State.cumulate_cmds : (s.cumulate).cmds = s.cmds := rfl
@[simp] theorem State.cumulate_rsps : (s.cumulate).rsps = s.rsps := rfl
@[simp] theorem State.cumulate_toks : (s.cumulate).toks = s.toks := rfl

/-! ## `State.scatter` -/

@[simp] theorem State.scatter_cap : (s.scatter).cap = s.cap := rfl
@[simp] theorem State.scatter_blksz : (s.scatter).blksz = s.blksz := rfl
@[simp] theorem State.scatter_status : (s.scatter).status = s.status.afterScatter := rfl
@[simp] theorem State.scatter_ie : (s.scatter).ie = s.ie := rfl
@[simp] theorem State.scatter_errcode : (s.scatter).errcode = s.errcode := rfl
@[simp] theorem State.scatter_errseq : (s.scatter).errseq = s.errseq := rfl
@[simp] theorem State.scatter_errinfo : (s.scatter).errinfo = s.errinfo := rfl
@[simp] theorem State.scatter_seq : (s.scatter).seq = s.seq := rfl
@[simp] theorem State.scatter_zrun : (s.scatter).zrun = s.zrun := rfl
@[simp] theorem State.scatter_block : (s.scatter).block = s.block := rfl
@[simp] theorem State.scatter_stripe : (s.scatter).stripe = s.stripe := rfl
@[simp] theorem State.scatter_bord : (s.scatter).bord = s.bord := rfl
@[simp] theorem State.scatter_mtf : (s.scatter).mtf = s.mtf := rfl
@[simp] theorem State.scatter_cmds : (s.scatter).cmds = s.cmds := rfl
@[simp] theorem State.scatter_rsps : (s.scatter).rsps = s.rsps := rfl
@[simp] theorem State.scatter_toks : (s.scatter).toks = s.toks := rfl

/-! ## `State.orderBuckets` -/

@[simp] theorem State.orderBuckets_cap : (s.orderBuckets).cap = s.cap := rfl
@[simp] theorem State.orderBuckets_blksz : (s.orderBuckets).blksz = s.blksz := rfl
@[simp] theorem State.orderBuckets_status : (s.orderBuckets).status = s.status.afterOrder := rfl
@[simp] theorem State.orderBuckets_ie : (s.orderBuckets).ie = s.ie := rfl
@[simp] theorem State.orderBuckets_errcode : (s.orderBuckets).errcode = s.errcode := rfl
@[simp] theorem State.orderBuckets_errseq : (s.orderBuckets).errseq = s.errseq := rfl
@[simp] theorem State.orderBuckets_errinfo : (s.orderBuckets).errinfo = s.errinfo := rfl
@[simp] theorem State.orderBuckets_seq : (s.orderBuckets).seq = s.seq := rfl
@[simp] theorem State.orderBuckets_zrun : (s.orderBuckets).zrun = s.zrun := rfl
@[simp] theorem State.orderBuckets_block : (s.orderBuckets).block = s.block := rfl
@[simp] theorem State.orderBuckets_stripe : (s.orderBuckets).stripe = s.stripe := rfl
@[simp] theorem State.orderBuckets_ptr : (s.orderBuckets).ptr = s.ptr := rfl
@[simp] theorem State.orderBuckets_bt : (s.orderBuckets).bt = s.bt := rfl
@[simp] theorem State.orderBuckets_mtf : (s.orderBuckets).mtf = s.mtf := rfl
@[simp] theorem State.orderBuckets_cmds : (s.orderBuckets).cmds = s.cmds := rfl
@[simp] theorem State.orderBuckets_rsps : (s.orderBuckets).rsps = s.rsps := rfl
@[simp] theorem State.orderBuckets_toks : (s.orderBuckets).toks = s.toks := rfl

/-! ## `State.withEncoder` -/

@[simp] theorem State.withEncoder_cap (e : Encoder) : (s.withEncoder e).cap = s.cap := rfl
@[simp] theorem State.withEncoder_blksz (e : Encoder) : (s.withEncoder e).blksz = s.blksz := rfl
@[simp] theorem State.withEncoder_status (e : Encoder) : (s.withEncoder e).status = s.status := rfl
@[simp] theorem State.withEncoder_ie (e : Encoder) : (s.withEncoder e).ie = s.ie := rfl
@[simp] theorem State.withEncoder_errcode (e : Encoder) : (s.withEncoder e).errcode = s.errcode := rfl
@[simp] theorem State.withEncoder_errseq (e : Encoder) : (s.withEncoder e).errseq = s.errseq := rfl
@[simp] theorem State.withEncoder_errinfo (e : Encoder) : (s.withEncoder e).errinfo = s.errinfo := rfl
@[simp] theorem State.withEncoder_seq (e : Encoder) : (s.withEncoder e).seq = s.seq := rfl
@[simp] theorem State.withEncoder_zrun (e : Encoder) : (s.withEncoder e).zrun = e.zrun := rfl
@[simp] theorem State.withEncoder_block (e : Encoder) : (s.withEncoder e).block = s.block := rfl
@[simp] theorem State.withEncoder_stripe (e : Encoder) : (s.withEncoder e).stripe = s.stripe := rfl
@[simp] theorem State.withEncoder_ptr (e : Encoder) : (s.withEncoder e).ptr = s.ptr := rfl
@[simp] theorem State.withEncoder_bt (e : Encoder) : (s.withEncoder e).bt = s.bt := rfl
@[simp] theorem State.withEncoder_bord (e : Encoder) : (s.withEncoder e).bord = s.bord := rfl
@[simp] theorem State.withEncoder_mtf (e : Encoder) : (s.withEncoder e).mtf = Memory.load s.mtf 0 e.list := rfl
@[simp] theorem State.withEncoder_cmds (e : Encoder) : (s.withEncoder e).cmds = s.cmds := rfl
@[simp] theorem State.withEncoder_rsps (e : Encoder) : (s.withEncoder e).rsps = s.rsps := rfl
@[simp] theorem State.withEncoder_toks (e : Encoder) : (s.withEncoder e).toks = s.toks ++ e.toks := rfl

/-! ## `State.send` -/

@[simp] theorem State.send_cap (cw : CommandWord) : (s.send cw).cap = s.cap := rfl
@[simp] theorem State.send_blksz (cw : CommandWord) : (s.send cw).blksz = s.blksz := rfl
@[simp] theorem State.send_status (cw : CommandWord) : (s.send cw).status = s.status := rfl
@[simp] theorem State.send_ie (cw : CommandWord) : (s.send cw).ie = s.ie := rfl
@[simp] theorem State.send_errcode (cw : CommandWord) : (s.send cw).errcode = s.errcode := rfl
@[simp] theorem State.send_errseq (cw : CommandWord) : (s.send cw).errseq = s.errseq := rfl
@[simp] theorem State.send_errinfo (cw : CommandWord) : (s.send cw).errinfo = s.errinfo := rfl
@[simp] theorem State.send_seq (cw : CommandWord) : (s.send cw).seq = s.seq := rfl
@[simp] theorem State.send_zrun (cw : CommandWord) : (s.send cw).zrun = s.zrun := rfl
@[simp] theorem State.send_block (cw : CommandWord) : (s.send cw).block = s.block := rfl
@[simp] theorem State.send_stripe (cw : CommandWord) : (s.send cw).stripe = s.stripe := rfl
@[simp] theorem State.send_ptr (cw : CommandWord) : (s.send cw).ptr = s.ptr := rfl
@[simp] theorem State.send_bt (cw : CommandWord) : (s.send cw).bt = s.bt := rfl
@[simp] theorem State.send_bord (cw : CommandWord) : (s.send cw).bord = s.bord := rfl
@[simp] theorem State.send_mtf (cw : CommandWord) : (s.send cw).mtf = s.mtf := rfl
@[simp] theorem State.send_cmds (cw : CommandWord) : (s.send cw).cmds = s.cmds ++ [cw] := rfl
@[simp] theorem State.send_rsps (cw : CommandWord) : (s.send cw).rsps = s.rsps := rfl
@[simp] theorem State.send_toks (cw : CommandWord) : (s.send cw).toks = s.toks := rfl

/-! ## `State.place` -/

@[simp] theorem State.place_cap (cw : CommandWord) : (s.place cw).cap = s.cap := rfl
@[simp] theorem State.place_blksz (cw : CommandWord) : (s.place cw).blksz = s.blksz := rfl
@[simp] theorem State.place_status (cw : CommandWord) : (s.place cw).status = s.status := rfl
@[simp] theorem State.place_ie (cw : CommandWord) : (s.place cw).ie = s.ie := rfl
@[simp] theorem State.place_errcode (cw : CommandWord) : (s.place cw).errcode = s.errcode := rfl
@[simp] theorem State.place_errseq (cw : CommandWord) : (s.place cw).errseq = s.errseq := rfl
@[simp] theorem State.place_errinfo (cw : CommandWord) : (s.place cw).errinfo = s.errinfo := rfl
@[simp] theorem State.place_seq (cw : CommandWord) : (s.place cw).seq = s.seq := rfl
@[simp] theorem State.place_zrun (cw : CommandWord) : (s.place cw).zrun = s.zrun := rfl
@[simp] theorem State.place_block (cw : CommandWord) : (s.place cw).block = s.block := rfl
@[simp] theorem State.place_stripe (cw : CommandWord) : (s.place cw).stripe = s.stripe := rfl
@[simp] theorem State.place_ptr (cw : CommandWord) : (s.place cw).ptr = s.ptr := rfl
@[simp] theorem State.place_bt (cw : CommandWord) : (s.place cw).bt = s.bt := rfl
@[simp] theorem State.place_bord (cw : CommandWord) : (s.place cw).bord = s.bord := rfl
@[simp] theorem State.place_mtf (cw : CommandWord) : (s.place cw).mtf = s.mtf := rfl
@[simp] theorem State.place_cmds (cw : CommandWord) : (s.place cw).cmds = cw :: s.cmds := rfl
@[simp] theorem State.place_rsps (cw : CommandWord) : (s.place cw).rsps = s.rsps := rfl
@[simp] theorem State.place_toks (cw : CommandWord) : (s.place cw).toks = s.toks := rfl

/-! ## `State.raise`: the error registers are written only when no error is recorded yet -/

@[simp] theorem State.raise_cap (e : Err) (info : Word) : (s.raise e info).cap = s.cap := by
  unfold State.raise
  split <;> rfl
@[simp] theorem State.raise_blksz (e : Err) (info : Word) : (s.raise e info).blksz = s.blksz := by
  unfold State.raise
  split <;> rfl
@[simp] theorem State.raise_ie (e : Err) (info : Word) : (s.raise e info).ie = s.ie := by
  unfold State.raise
  split <;> rfl
@[simp] theorem State.raise_seq (e : Err) (info : Word) : (s.raise e info).seq = s.seq + 1 := by
  unfold State.raise
  split <;> rfl
@[simp] theorem State.raise_zrun (e : Err) (info : Word) : (s.raise e info).zrun = s.zrun := by
  unfold State.raise
  split <;> rfl
@[simp] theorem State.raise_block (e : Err) (info : Word) : (s.raise e info).block = s.block := by
  unfold State.raise
  split <;> rfl
@[simp] theorem State.raise_stripe (e : Err) (info : Word) : (s.raise e info).stripe = s.stripe := by
  unfold State.raise
  split <;> rfl
@[simp] theorem State.raise_ptr (e : Err) (info : Word) : (s.raise e info).ptr = s.ptr := by
  unfold State.raise
  split <;> rfl
@[simp] theorem State.raise_bt (e : Err) (info : Word) : (s.raise e info).bt = s.bt := by
  unfold State.raise
  split <;> rfl
@[simp] theorem State.raise_bord (e : Err) (info : Word) : (s.raise e info).bord = s.bord := by
  unfold State.raise
  split <;> rfl
@[simp] theorem State.raise_mtf (e : Err) (info : Word) : (s.raise e info).mtf = s.mtf := by
  unfold State.raise
  split <;> rfl
@[simp] theorem State.raise_cmds (e : Err) (info : Word) : (s.raise e info).cmds = s.cmds := by
  unfold State.raise
  split <;> rfl
@[simp] theorem State.raise_rsps (e : Err) (info : Word) : (s.raise e info).rsps = s.rsps ++ [response e.code 0] := by
  unfold State.raise
  split <;> rfl
@[simp] theorem State.raise_toks (e : Err) (info : Word) : (s.raise e info).toks = s.toks := by
  unfold State.raise
  split <;> rfl

theorem State.raise_of_fault (e : Err) (info : Word) (h : s.status.fault = true) :
    s.raise e info = s.complete e.code 0 := by
  simp [State.raise, h]

theorem State.raise_of_no_fault (e : Err) (info : Word) (h : s.status.fault = false) :
    s.raise e info = (s.recordError e info).complete e.code 0 := by
  simp [State.raise, h]

@[simp] theorem State.raise_status (e : Err) (info : Word) :
    (s.raise e info).status = { s.status with fault := true } := by
  unfold State.raise
  split
  · next h => simp [← h]
  · rfl

/-! ## The flags each command writes -/

@[simp] theorem Status.dropDerived_cfgValid (f : Status) : f.dropDerived.cfgValid = f.cfgValid := rfl
@[simp] theorem Status.dropDerived_stripeValid (f : Status) : f.dropDerived.stripeValid = false := rfl
@[simp] theorem Status.dropDerived_stripeTagged (f : Status) : f.dropDerived.stripeTagged = false := rfl
@[simp] theorem Status.dropDerived_rsStage (f : Status) : f.dropDerived.rsStage = .idle := rfl
@[simp] theorem Status.dropDerived_bigordValid (f : Status) : f.dropDerived.bigordValid = false := rfl
@[simp] theorem Status.dropDerived_mtfValid (f : Status) : f.dropDerived.mtfValid = f.mtfValid := rfl
@[simp] theorem Status.dropDerived_fault (f : Status) : f.dropDerived.fault = f.fault := rfl
@[simp] theorem Status.afterCfg_cfgValid (f : Status) : f.afterCfg.cfgValid = true := rfl
@[simp] theorem Status.afterCfg_stripeValid (f : Status) : f.afterCfg.stripeValid = false := rfl
@[simp] theorem Status.afterCfg_stripeTagged (f : Status) : f.afterCfg.stripeTagged = false := rfl
@[simp] theorem Status.afterCfg_rsStage (f : Status) : f.afterCfg.rsStage = .idle := rfl
@[simp] theorem Status.afterCfg_bigordValid (f : Status) : f.afterCfg.bigordValid = false := rfl
@[simp] theorem Status.afterCfg_mtfValid (f : Status) : f.afterCfg.mtfValid = true := rfl
@[simp] theorem Status.afterCfg_fault (f : Status) : f.afterCfg.fault = f.fault := rfl
@[simp] theorem Status.afterClear_cfgValid (f : Status) : f.afterClear.cfgValid = false := rfl
@[simp] theorem Status.afterClear_stripeValid (f : Status) : f.afterClear.stripeValid = false := rfl
@[simp] theorem Status.afterClear_stripeTagged (f : Status) : f.afterClear.stripeTagged = false := rfl
@[simp] theorem Status.afterClear_rsStage (f : Status) : f.afterClear.rsStage = .idle := rfl
@[simp] theorem Status.afterClear_bigordValid (f : Status) : f.afterClear.bigordValid = false := rfl
@[simp] theorem Status.afterClear_mtfValid (f : Status) : f.afterClear.mtfValid = false := rfl
@[simp] theorem Status.afterClear_fault (f : Status) : f.afterClear.fault = f.fault := rfl
@[simp] theorem Status.afterBuild_cfgValid (f : Status) : f.afterBuild.cfgValid = f.cfgValid := rfl
@[simp] theorem Status.afterBuild_stripeValid (f : Status) : f.afterBuild.stripeValid = true := rfl
@[simp] theorem Status.afterBuild_stripeTagged (f : Status) : f.afterBuild.stripeTagged = false := rfl
@[simp] theorem Status.afterBuild_rsStage (f : Status) : f.afterBuild.rsStage = f.rsStage := rfl
@[simp] theorem Status.afterBuild_bigordValid (f : Status) : f.afterBuild.bigordValid = f.bigordValid := rfl
@[simp] theorem Status.afterBuild_mtfValid (f : Status) : f.afterBuild.mtfValid = f.mtfValid := rfl
@[simp] theorem Status.afterBuild_fault (f : Status) : f.afterBuild.fault = f.fault := rfl
@[simp] theorem Status.afterTag_cfgValid (f : Status) : f.afterTag.cfgValid = f.cfgValid := rfl
@[simp] theorem Status.afterTag_stripeValid (f : Status) : f.afterTag.stripeValid = f.stripeValid := rfl
@[simp] theorem Status.afterTag_stripeTagged (f : Status) : f.afterTag.stripeTagged = true := rfl
@[simp] theorem Status.afterTag_rsStage (f : Status) : f.afterTag.rsStage = f.rsStage := rfl
@[simp] theorem Status.afterTag_bigordValid (f : Status) : f.afterTag.bigordValid = f.bigordValid := rfl
@[simp] theorem Status.afterTag_mtfValid (f : Status) : f.afterTag.mtfValid = f.mtfValid := rfl
@[simp] theorem Status.afterTag_fault (f : Status) : f.afterTag.fault = f.fault := rfl
@[simp] theorem Status.afterCount_cfgValid (f : Status) : f.afterCount.cfgValid = f.cfgValid := rfl
@[simp] theorem Status.afterCount_stripeValid (f : Status) : f.afterCount.stripeValid = f.stripeValid := rfl
@[simp] theorem Status.afterCount_stripeTagged (f : Status) : f.afterCount.stripeTagged = f.stripeTagged := rfl
@[simp] theorem Status.afterCount_rsStage (f : Status) : f.afterCount.rsStage = .counted := rfl
@[simp] theorem Status.afterCount_bigordValid (f : Status) : f.afterCount.bigordValid = false := rfl
@[simp] theorem Status.afterCount_mtfValid (f : Status) : f.afterCount.mtfValid = f.mtfValid := rfl
@[simp] theorem Status.afterCount_fault (f : Status) : f.afterCount.fault = f.fault := rfl
@[simp] theorem Status.afterCumulate_cfgValid (f : Status) : f.afterCumulate.cfgValid = f.cfgValid := rfl
@[simp] theorem Status.afterCumulate_stripeValid (f : Status) : f.afterCumulate.stripeValid = f.stripeValid := rfl
@[simp] theorem Status.afterCumulate_stripeTagged (f : Status) : f.afterCumulate.stripeTagged = f.stripeTagged := rfl
@[simp] theorem Status.afterCumulate_rsStage (f : Status) : f.afterCumulate.rsStage = .cumulated := rfl
@[simp] theorem Status.afterCumulate_bigordValid (f : Status) : f.afterCumulate.bigordValid = f.bigordValid := rfl
@[simp] theorem Status.afterCumulate_mtfValid (f : Status) : f.afterCumulate.mtfValid = f.mtfValid := rfl
@[simp] theorem Status.afterCumulate_fault (f : Status) : f.afterCumulate.fault = f.fault := rfl
@[simp] theorem Status.afterScatter_cfgValid (f : Status) : f.afterScatter.cfgValid = f.cfgValid := rfl
@[simp] theorem Status.afterScatter_stripeValid (f : Status) : f.afterScatter.stripeValid = f.stripeValid := rfl
@[simp] theorem Status.afterScatter_stripeTagged (f : Status) : f.afterScatter.stripeTagged = f.stripeTagged := rfl
@[simp] theorem Status.afterScatter_rsStage (f : Status) : f.afterScatter.rsStage = .scattered := rfl
@[simp] theorem Status.afterScatter_bigordValid (f : Status) : f.afterScatter.bigordValid = f.bigordValid := rfl
@[simp] theorem Status.afterScatter_mtfValid (f : Status) : f.afterScatter.mtfValid = f.mtfValid := rfl
@[simp] theorem Status.afterScatter_fault (f : Status) : f.afterScatter.fault = f.fault := rfl
@[simp] theorem Status.afterOrder_cfgValid (f : Status) : f.afterOrder.cfgValid = f.cfgValid := rfl
@[simp] theorem Status.afterOrder_stripeValid (f : Status) : f.afterOrder.stripeValid = f.stripeValid := rfl
@[simp] theorem Status.afterOrder_stripeTagged (f : Status) : f.afterOrder.stripeTagged = f.stripeTagged := rfl
@[simp] theorem Status.afterOrder_rsStage (f : Status) : f.afterOrder.rsStage = f.rsStage := rfl
@[simp] theorem Status.afterOrder_bigordValid (f : Status) : f.afterOrder.bigordValid = true := rfl
@[simp] theorem Status.afterOrder_mtfValid (f : Status) : f.afterOrder.mtfValid = f.mtfValid := rfl
@[simp] theorem Status.afterOrder_fault (f : Status) : f.afterOrder.fault = f.fault := rfl
@[simp] theorem Status.afterMtfInit_cfgValid (f : Status) : f.afterMtfInit.cfgValid = f.cfgValid := rfl
@[simp] theorem Status.afterMtfInit_stripeValid (f : Status) : f.afterMtfInit.stripeValid = f.stripeValid := rfl
@[simp] theorem Status.afterMtfInit_stripeTagged (f : Status) : f.afterMtfInit.stripeTagged = f.stripeTagged := rfl
@[simp] theorem Status.afterMtfInit_rsStage (f : Status) : f.afterMtfInit.rsStage = f.rsStage := rfl
@[simp] theorem Status.afterMtfInit_bigordValid (f : Status) : f.afterMtfInit.bigordValid = f.bigordValid := rfl
@[simp] theorem Status.afterMtfInit_mtfValid (f : Status) : f.afterMtfInit.mtfValid = true := rfl
@[simp] theorem Status.afterMtfInit_fault (f : Status) : f.afterMtfInit.fault = f.fault := rfl

/-! ## Reads that an update leaves alone -/

@[simp] theorem State.emit_blockAt (ts : List Token) (x : Nat) : (s.emit ts).blockAt x = s.blockAt x := rfl
@[simp] theorem State.emit_stripeAt (ts : List Token) (x : Nat) : (s.emit ts).stripeAt x = s.stripeAt x := rfl
@[simp] theorem State.emit_ptrAt (ts : List Token) (x : Nat) : (s.emit ts).ptrAt x = s.ptrAt x := rfl
@[simp] theorem State.emit_btAt (ts : List Token) (x : Nat) : (s.emit ts).btAt x = s.btAt x := rfl
@[simp] theorem State.emit_bordAt (ts : List Token) (x : Nat) : (s.emit ts).bordAt x = s.bordAt x := rfl
@[simp] theorem State.emit_mtfAt (ts : List Token) (x : Nat) : (s.emit ts).mtfAt x = s.mtfAt x := rfl
@[simp] theorem State.emit_size (ts : List Token) : (s.emit ts).size = s.size := rfl
@[simp] theorem State.complete_blockAt (st : BitVec 8) (data : Word) (x : Nat) : (s.complete st data).blockAt x = s.blockAt x := rfl
@[simp] theorem State.complete_stripeAt (st : BitVec 8) (data : Word) (x : Nat) : (s.complete st data).stripeAt x = s.stripeAt x := rfl
@[simp] theorem State.complete_ptrAt (st : BitVec 8) (data : Word) (x : Nat) : (s.complete st data).ptrAt x = s.ptrAt x := rfl
@[simp] theorem State.complete_btAt (st : BitVec 8) (data : Word) (x : Nat) : (s.complete st data).btAt x = s.btAt x := rfl
@[simp] theorem State.complete_bordAt (st : BitVec 8) (data : Word) (x : Nat) : (s.complete st data).bordAt x = s.bordAt x := rfl
@[simp] theorem State.complete_mtfAt (st : BitVec 8) (data : Word) (x : Nat) : (s.complete st data).mtfAt x = s.mtfAt x := rfl
@[simp] theorem State.complete_size (st : BitVec 8) (data : Word) : (s.complete st data).size = s.size := rfl
@[simp] theorem State.recordError_blockAt (e : Err) (info : Word) (x : Nat) : (s.recordError e info).blockAt x = s.blockAt x := rfl
@[simp] theorem State.recordError_stripeAt (e : Err) (info : Word) (x : Nat) : (s.recordError e info).stripeAt x = s.stripeAt x := rfl
@[simp] theorem State.recordError_ptrAt (e : Err) (info : Word) (x : Nat) : (s.recordError e info).ptrAt x = s.ptrAt x := rfl
@[simp] theorem State.recordError_btAt (e : Err) (info : Word) (x : Nat) : (s.recordError e info).btAt x = s.btAt x := rfl
@[simp] theorem State.recordError_bordAt (e : Err) (info : Word) (x : Nat) : (s.recordError e info).bordAt x = s.bordAt x := rfl
@[simp] theorem State.recordError_mtfAt (e : Err) (info : Word) (x : Nat) : (s.recordError e info).mtfAt x = s.mtfAt x := rfl
@[simp] theorem State.recordError_size (e : Err) (info : Word) : (s.recordError e info).size = s.size := rfl
@[simp] theorem State.clearError_blockAt (x : Nat) : (s.clearError).blockAt x = s.blockAt x := rfl
@[simp] theorem State.clearError_stripeAt (x : Nat) : (s.clearError).stripeAt x = s.stripeAt x := rfl
@[simp] theorem State.clearError_ptrAt (x : Nat) : (s.clearError).ptrAt x = s.ptrAt x := rfl
@[simp] theorem State.clearError_btAt (x : Nat) : (s.clearError).btAt x = s.btAt x := rfl
@[simp] theorem State.clearError_bordAt (x : Nat) : (s.clearError).bordAt x = s.bordAt x := rfl
@[simp] theorem State.clearError_mtfAt (x : Nat) : (s.clearError).mtfAt x = s.mtfAt x := rfl
@[simp] theorem State.clearError_size : (s.clearError).size = s.size := rfl
@[simp] theorem State.initList_blockAt (x : Nat) : (s.initList).blockAt x = s.blockAt x := rfl
@[simp] theorem State.initList_stripeAt (x : Nat) : (s.initList).stripeAt x = s.stripeAt x := rfl
@[simp] theorem State.initList_ptrAt (x : Nat) : (s.initList).ptrAt x = s.ptrAt x := rfl
@[simp] theorem State.initList_btAt (x : Nat) : (s.initList).btAt x = s.btAt x := rfl
@[simp] theorem State.initList_bordAt (x : Nat) : (s.initList).bordAt x = s.bordAt x := rfl
@[simp] theorem State.initList_size : (s.initList).size = s.size := rfl
@[simp] theorem State.configure_blockAt (n : Word) (x : Nat) : (s.configure n).blockAt x = s.blockAt x := rfl
@[simp] theorem State.configure_stripeAt (n : Word) (x : Nat) : (s.configure n).stripeAt x = s.stripeAt x := rfl
@[simp] theorem State.configure_ptrAt (n : Word) (x : Nat) : (s.configure n).ptrAt x = s.ptrAt x := rfl
@[simp] theorem State.configure_btAt (n : Word) (x : Nat) : (s.configure n).btAt x = s.btAt x := rfl
@[simp] theorem State.configure_bordAt (n : Word) (x : Nat) : (s.configure n).bordAt x = s.bordAt x := rfl
@[simp] theorem State.deconfigure_blockAt (x : Nat) : (s.deconfigure).blockAt x = s.blockAt x := rfl
@[simp] theorem State.deconfigure_stripeAt (x : Nat) : (s.deconfigure).stripeAt x = s.stripeAt x := rfl
@[simp] theorem State.deconfigure_ptrAt (x : Nat) : (s.deconfigure).ptrAt x = s.ptrAt x := rfl
@[simp] theorem State.deconfigure_btAt (x : Nat) : (s.deconfigure).btAt x = s.btAt x := rfl
@[simp] theorem State.deconfigure_bordAt (x : Nat) : (s.deconfigure).bordAt x = s.bordAt x := rfl
@[simp] theorem State.deconfigure_mtfAt (x : Nat) : (s.deconfigure).mtfAt x = s.mtfAt x := rfl
@[simp] theorem State.writeBlock_stripeAt (a : Nat) (bs : List Byte) (x : Nat) : (s.writeBlock a bs).stripeAt x = s.stripeAt x := rfl
@[simp] theorem State.writeBlock_ptrAt (a : Nat) (bs : List Byte) (x : Nat) : (s.writeBlock a bs).ptrAt x = s.ptrAt x := rfl
@[simp] theorem State.writeBlock_btAt (a : Nat) (bs : List Byte) (x : Nat) : (s.writeBlock a bs).btAt x = s.btAt x := rfl
@[simp] theorem State.writeBlock_bordAt (a : Nat) (bs : List Byte) (x : Nat) : (s.writeBlock a bs).bordAt x = s.bordAt x := rfl
@[simp] theorem State.writeBlock_mtfAt (a : Nat) (bs : List Byte) (x : Nat) : (s.writeBlock a bs).mtfAt x = s.mtfAt x := rfl
@[simp] theorem State.writeBlock_size (a : Nat) (bs : List Byte) : (s.writeBlock a bs).size = s.size := rfl
@[simp] theorem State.tagStripe_blockAt (p : Nat) (w : Word) (x : Nat) : (s.tagStripe p w).blockAt x = s.blockAt x := rfl
@[simp] theorem State.tagStripe_ptrAt (p : Nat) (w : Word) (x : Nat) : (s.tagStripe p w).ptrAt x = s.ptrAt x := rfl
@[simp] theorem State.tagStripe_btAt (p : Nat) (w : Word) (x : Nat) : (s.tagStripe p w).btAt x = s.btAt x := rfl
@[simp] theorem State.tagStripe_bordAt (p : Nat) (w : Word) (x : Nat) : (s.tagStripe p w).bordAt x = s.bordAt x := rfl
@[simp] theorem State.tagStripe_mtfAt (p : Nat) (w : Word) (x : Nat) : (s.tagStripe p w).mtfAt x = s.mtfAt x := rfl
@[simp] theorem State.tagStripe_size (p : Nat) (w : Word) : (s.tagStripe p w).size = s.size := rfl
@[simp] theorem State.buildStripe_blockAt (x : Nat) : (s.buildStripe).blockAt x = s.blockAt x := rfl
@[simp] theorem State.buildStripe_ptrAt (x : Nat) : (s.buildStripe).ptrAt x = s.ptrAt x := rfl
@[simp] theorem State.buildStripe_btAt (x : Nat) : (s.buildStripe).btAt x = s.btAt x := rfl
@[simp] theorem State.buildStripe_bordAt (x : Nat) : (s.buildStripe).bordAt x = s.bordAt x := rfl
@[simp] theorem State.buildStripe_mtfAt (x : Nat) : (s.buildStripe).mtfAt x = s.mtfAt x := rfl
@[simp] theorem State.buildStripe_size : (s.buildStripe).size = s.size := rfl
@[simp] theorem State.countKeys_blockAt (x : Nat) : (s.countKeys).blockAt x = s.blockAt x := rfl
@[simp] theorem State.countKeys_stripeAt (x : Nat) : (s.countKeys).stripeAt x = s.stripeAt x := rfl
@[simp] theorem State.countKeys_ptrAt (x : Nat) : (s.countKeys).ptrAt x = s.ptrAt x := rfl
@[simp] theorem State.countKeys_bordAt (x : Nat) : (s.countKeys).bordAt x = s.bordAt x := rfl
@[simp] theorem State.countKeys_mtfAt (x : Nat) : (s.countKeys).mtfAt x = s.mtfAt x := rfl
@[simp] theorem State.countKeys_size : (s.countKeys).size = s.size := rfl
@[simp] theorem State.cumulate_blockAt (x : Nat) : (s.cumulate).blockAt x = s.blockAt x := rfl
@[simp] theorem State.cumulate_stripeAt (x : Nat) : (s.cumulate).stripeAt x = s.stripeAt x := rfl
@[simp] theorem State.cumulate_ptrAt (x : Nat) : (s.cumulate).ptrAt x = s.ptrAt x := rfl
@[simp] theorem State.cumulate_bordAt (x : Nat) : (s.cumulate).bordAt x = s.bordAt x := rfl
@[simp] theorem State.cumulate_mtfAt (x : Nat) : (s.cumulate).mtfAt x = s.mtfAt x := rfl
@[simp] theorem State.cumulate_size : (s.cumulate).size = s.size := rfl
@[simp] theorem State.scatter_blockAt (x : Nat) : (s.scatter).blockAt x = s.blockAt x := rfl
@[simp] theorem State.scatter_stripeAt (x : Nat) : (s.scatter).stripeAt x = s.stripeAt x := rfl
@[simp] theorem State.scatter_bordAt (x : Nat) : (s.scatter).bordAt x = s.bordAt x := rfl
@[simp] theorem State.scatter_mtfAt (x : Nat) : (s.scatter).mtfAt x = s.mtfAt x := rfl
@[simp] theorem State.scatter_size : (s.scatter).size = s.size := rfl
@[simp] theorem State.orderBuckets_blockAt (x : Nat) : (s.orderBuckets).blockAt x = s.blockAt x := rfl
@[simp] theorem State.orderBuckets_stripeAt (x : Nat) : (s.orderBuckets).stripeAt x = s.stripeAt x := rfl
@[simp] theorem State.orderBuckets_ptrAt (x : Nat) : (s.orderBuckets).ptrAt x = s.ptrAt x := rfl
@[simp] theorem State.orderBuckets_btAt (x : Nat) : (s.orderBuckets).btAt x = s.btAt x := rfl
@[simp] theorem State.orderBuckets_mtfAt (x : Nat) : (s.orderBuckets).mtfAt x = s.mtfAt x := rfl
@[simp] theorem State.orderBuckets_size : (s.orderBuckets).size = s.size := rfl
@[simp] theorem State.withEncoder_blockAt (e : Encoder) (x : Nat) : (s.withEncoder e).blockAt x = s.blockAt x := rfl
@[simp] theorem State.withEncoder_stripeAt (e : Encoder) (x : Nat) : (s.withEncoder e).stripeAt x = s.stripeAt x := rfl
@[simp] theorem State.withEncoder_ptrAt (e : Encoder) (x : Nat) : (s.withEncoder e).ptrAt x = s.ptrAt x := rfl
@[simp] theorem State.withEncoder_btAt (e : Encoder) (x : Nat) : (s.withEncoder e).btAt x = s.btAt x := rfl
@[simp] theorem State.withEncoder_bordAt (e : Encoder) (x : Nat) : (s.withEncoder e).bordAt x = s.bordAt x := rfl
@[simp] theorem State.withEncoder_size (e : Encoder) : (s.withEncoder e).size = s.size := rfl
@[simp] theorem State.send_blockAt (cw : CommandWord) (x : Nat) : (s.send cw).blockAt x = s.blockAt x := rfl
@[simp] theorem State.send_stripeAt (cw : CommandWord) (x : Nat) : (s.send cw).stripeAt x = s.stripeAt x := rfl
@[simp] theorem State.send_ptrAt (cw : CommandWord) (x : Nat) : (s.send cw).ptrAt x = s.ptrAt x := rfl
@[simp] theorem State.send_btAt (cw : CommandWord) (x : Nat) : (s.send cw).btAt x = s.btAt x := rfl
@[simp] theorem State.send_bordAt (cw : CommandWord) (x : Nat) : (s.send cw).bordAt x = s.bordAt x := rfl
@[simp] theorem State.send_mtfAt (cw : CommandWord) (x : Nat) : (s.send cw).mtfAt x = s.mtfAt x := rfl
@[simp] theorem State.send_size (cw : CommandWord) : (s.send cw).size = s.size := rfl
@[simp] theorem State.place_blockAt (cw : CommandWord) (x : Nat) : (s.place cw).blockAt x = s.blockAt x := rfl
@[simp] theorem State.place_stripeAt (cw : CommandWord) (x : Nat) : (s.place cw).stripeAt x = s.stripeAt x := rfl
@[simp] theorem State.place_ptrAt (cw : CommandWord) (x : Nat) : (s.place cw).ptrAt x = s.ptrAt x := rfl
@[simp] theorem State.place_btAt (cw : CommandWord) (x : Nat) : (s.place cw).btAt x = s.btAt x := rfl
@[simp] theorem State.place_bordAt (cw : CommandWord) (x : Nat) : (s.place cw).bordAt x = s.bordAt x := rfl
@[simp] theorem State.place_mtfAt (cw : CommandWord) (x : Nat) : (s.place cw).mtfAt x = s.mtfAt x := rfl
@[simp] theorem State.place_size (cw : CommandWord) : (s.place cw).size = s.size := rfl

end Sys2Proof.Machine
end

