-- ==== Sys2Proof/Laws/Command.lean ====
section
/-! SUPPORT. What a command and a step can do, said once: a command ends in an error or runs its effect, and it always
answers a next state. -/

namespace Sys2Proof.Machine

/-! ## The order of checks -/

@[simp] theorem firstError_nil : firstError [] = none := rfl

theorem firstError_cons (b : Bool) (e : Err) (cs : List (Bool × Err)) :
    firstError ((b, e) :: cs) = if b then some e else firstError cs := rfl

/-- All checks pass when none fails. -/
theorem firstError_eq_none_iff (cs : List (Bool × Err)) : firstError cs = none ↔ ∀ c ∈ cs, c.1 = false := by
  induction cs with
  | nil => simp
  | cons c cs ih =>
    obtain ⟨b, e⟩ := c
    cases b <;> simp [firstError_cons, ih]

theorem gated_eq_false_of_no_fault (s : State) (op : BitVec 8) (h : s.status.fault = false) :
    s.gated op = false := by simp [State.gated, h]

theorem gated_eq_false_of_exempt (s : State) (op : BitVec 8) (h : gateExempt op = true) :
    s.gated op = false := by simp [State.gated, h]

/-! ## One command -/

section
variable (i : Instr) (checks : List (Bool × Err)) (effect : State → State × Word) (s : State)

/-- Everything a command can answer: an error raised, or its effect completed, with every check passed. -/
theorem command_cases {t : State} (h : command i checks effect s = .next t) :
    (∃ e, firstError ((s.gated (opcode i), .faulted) :: checks) = some e ∧ t = s.raise e (infoOf i)) ∨
    (s.gated (opcode i) = false ∧ firstError checks = none ∧ t = (effect s).1.complete 0 (effect s).2) := by
  unfold command at h
  split at h
  · next e he =>
    injection h with h
    exact .inl ⟨e, he, h.symm⟩
  · next hn =>
    injection h with h
    rw [firstError_cons] at hn
    split at hn
    · exact absurd hn (by simp)
    · next hg => exact .inr ⟨by simpa using hg, hn, h.symm⟩

/-- A command always answers a next state. -/
theorem command_next : ∃ t, command i checks effect s = .next t := by
  unfold command
  split <;> exact ⟨_, rfl⟩

/-- A command whose checks pass runs its effect. -/
theorem command_of_pass (hg : s.gated (opcode i) = false) (hc : firstError checks = none) :
    command i checks effect s = .next ((effect s).1.complete 0 (effect s).2) := by
  simp [command, firstError_cons, hg, hc]

/-- A command one of whose checks fails raises the first that does. -/
theorem command_of_error (e : Err) (hg : s.gated (opcode i) = false) (hc : firstError checks = some e) :
    command i checks effect s = .next (s.raise e (infoOf i)) := by
  simp [command, firstError_cons, hg, hc]

/-- A command the fault gate refuses. -/
theorem command_of_gated (hg : s.gated (opcode i) = true) :
    command i checks effect s = .next (s.raise .faulted (infoOf i)) := by
  simp [command, firstError_cons, hg]

end

/-! ## exec and step -/

/-- Every command answers a next state, on every state. -/
theorem exec_next (i : Instr) (s : State) : ∃ t, exec i s = .next t := by
  cases i <;> simp only [exec, execNop, execCfg, execClear, execCsrrd, execCsrwr, execClrerr, execBlkwr,
    execBlkwr4, execBlkrd, execPtrrd, execPtrwr, execBtrd, execBtmark, execStrd, execStwr, execBordrd,
    execMtfrd, execStbuild, execCmp, execRscnt, execRscum, execRssct, execRsort, execBigord, execMtfinit,
    execMtfb, execMtfeob, execMtfword, execMtfblk] <;>
    exact command_next _ _ _ _

theorem fetch_nil (s : State) (h : s.cmds = []) : s.fetch = none := by simp [State.fetch, h]

theorem fetch_cons (s : State) (cw : CommandWord) (rest : List CommandWord) (h : s.cmds = cw :: rest) :
    s.fetch = some (cw, { s with cmds := rest }) := by simp [State.fetch, h]

theorem step_of_no_command (s : State) (h : s.cmds = []) : step s = .next s := by
  simp [step, fetch_nil s h]

theorem step_of_command (s : State) (cw : CommandWord) (rest : List CommandWord) (h : s.cmds = cw :: rest) :
    step s = match decode cw with
      | .ok i => exec i { s with cmds := rest }
      | .error _ => rejectWord cw { s with cmds := rest } := by
  simp only [step, fetch_cons s cw rest h] <;> rfl

/-- Everything a step can do: nothing, or one command, or the rejection of a word that is no command. -/
theorem step_cases {s t : State} (h : step s = .next t) :
    (s.cmds = [] ∧ t = s) ∨
    ∃ cw rest, s.cmds = cw :: rest ∧
      ((∃ i, decode cw = .ok i ∧ exec i { s with cmds := rest } = .next t) ∨
        (∃ r, decode cw = .error r ∧ rejectWord cw { s with cmds := rest } = .next t)) := by
  cases hc : s.cmds with
  | nil =>
    rw [step_of_no_command s hc] at h
    injection h with h
    exact .inl ⟨rfl, h.symm⟩
  | cons cw rest =>
    rw [step_of_command s cw rest hc] at h
    refine .inr ⟨cw, rest, rfl, ?_⟩
    split at h
    · next i hi => exact .inl ⟨i, hi, h⟩
    · next r hr => exact .inr ⟨r, hr, h⟩

end Sys2Proof.Machine
end

