-- ==== Sys2Proof/Laws/Encoding.lean ====
section
/-! SUPPORT. The fields of an assembled command word. -/

namespace Sys2Proof

section
variable (op : BitVec 8) (rsv : BitVec 24) (c a b : Word)

/-- Every bit of an assembled word is a bit of one of its fields. -/
theorem getLsbD_assemble (i : Nat) : (assemble op rsv c a b).getLsbD i =
    if i < 32 then b.getLsbD i else if i - 32 < 32 then a.getLsbD (i - 32)
    else if i - 32 - 32 < 32 then c.getLsbD (i - 32 - 32)
    else if i - 32 - 32 - 32 < 24 then rsv.getLsbD (i - 32 - 32 - 32)
    else op.getLsbD (i - 32 - 32 - 32 - 24) := by
  have h : ∀ j, (op ++ rsv ++ c ++ a ++ b : BitVec (8 + 24 + 32 + 32 + 32)).getLsbD j =
      if j < 32 then b.getLsbD j else if j - 32 < 32 then a.getLsbD (j - 32)
      else if j - 32 - 32 < 32 then c.getLsbD (j - 32 - 32)
      else if j - 32 - 32 - 32 < 24 then rsv.getLsbD (j - 32 - 32 - 32)
      else op.getLsbD (j - 32 - 32 - 32 - 24) := by
    intro j
    simp only [BitVec.getLsbD_append]
  exact h i

@[simp] theorem opField_assemble : opField (assemble op rsv c a b) = op := by
  apply BitVec.eq_of_getLsbD_eq
  intro i hi
  rw [opField, BitVec.getLsbD_extractLsb', getLsbD_assemble, if_neg (by omega), if_neg (by omega),
    if_neg (by omega), if_neg (by omega), show 120 + i - 32 - 32 - 32 - 24 = i by omega]
  simp [hi]

@[simp] theorem rsvField_assemble : rsvField (assemble op rsv c a b) = rsv := by
  apply BitVec.eq_of_getLsbD_eq
  intro i hi
  rw [rsvField, BitVec.getLsbD_extractLsb', getLsbD_assemble, if_neg (by omega), if_neg (by omega),
    if_neg (by omega), if_pos (by omega), show 96 + i - 32 - 32 - 32 = i by omega]
  simp [hi]

@[simp] theorem cField_assemble : cField (assemble op rsv c a b) = c := by
  apply BitVec.eq_of_getLsbD_eq
  intro i hi
  rw [cField, BitVec.getLsbD_extractLsb', getLsbD_assemble, if_neg (by omega), if_neg (by omega),
    if_pos (by omega), show 64 + i - 32 - 32 = i by omega]
  simp [hi]

@[simp] theorem aField_assemble : aField (assemble op rsv c a b) = a := by
  apply BitVec.eq_of_getLsbD_eq
  intro i hi
  rw [aField, BitVec.getLsbD_extractLsb', getLsbD_assemble, if_neg (by omega), if_pos (by omega),
    show 32 + i - 32 = i by omega]
  simp [hi]

@[simp] theorem bField_assemble : bField (assemble op rsv c a b) = b := by
  apply BitVec.eq_of_getLsbD_eq
  intro i hi
  rw [bField, BitVec.getLsbD_extractLsb', getLsbD_assemble, if_pos (by omega)]
  simp [hi]

@[simp] theorem infoField_assemble : infoField (assemble op rsv c a b) = op ++ rsv := by
  apply BitVec.eq_of_getLsbD_eq
  intro i hi
  rw [infoField, BitVec.getLsbD_extractLsb', getLsbD_assemble, if_neg (by omega), if_neg (by omega),
    if_neg (by omega), show 96 + i - 32 - 32 - 32 = i by omega]
  have h : (op ++ rsv : BitVec (8 + 24)).getLsbD i =
      if i < 24 then rsv.getLsbD i else op.getLsbD (i - 24) := BitVec.getLsbD_append
  simp only [hi, decide_true, Bool.true_and]
  exact h.symm

end

/-- A command word is assembled from its own fields: no bit stands outside them (30_encoding.md R90). -/
theorem assemble_fields (cw : CommandWord) :
    assemble (opField cw) (rsvField cw) (cField cw) (aField cw) (bField cw) = cw := by
  apply BitVec.eq_of_getLsbD_eq
  intro i hi
  rw [getLsbD_assemble]
  simp only [opField, rsvField, cField, aField, bField, BitVec.getLsbD_extractLsb']
  split
  · next h => simp [h]
  split
  · next h => simp [h, show 32 + (i - 32) = i by omega]
  split
  · next h => simp [h, show 64 + (i - 32 - 32) = i by omega]
  split
  · next h => simp [h, show 96 + (i - 32 - 32 - 32) = i by omega]
  · simp [show i - 32 - 32 - 32 - 24 < 8 by omega, show 120 + (i - 32 - 32 - 32 - 24) = i by omega]

/-- What a word with `RSV` zero decodes to: its opcode's row decides, by the operand fields alone. -/
theorem decode_assemble (op : BitVec 8) (c a b : Word) :
    decode (assemble op 0 c a b) = match opcodeTable.lookup op with
      | none => .error (.undefinedOpcode op)
      | some sh => match sh.build a b c with
        | some i => .ok i
        | none => .error (.unusedOperandNotZero op) := by
  simp only [decode, opField_assemble, rsvField_assemble, aField_assemble, bField_assemble, cField_assemble,
    if_true] <;> rfl

/-- What bits 127:96 of an encoded command are: its opcode and a zero `RSV`. -/
theorem infoField_encode (i : Instr) : infoField (encode i) = opcode i ++ (0#24) := by simp [encode]

end Sys2Proof
end

