-- ==== Sys2Proof/Laws/Answers.lean ====
section
/-! SUPPORT. The machine's operations in the terms of the statements: how a command ends, the packed words, the keys. -/

namespace Sys2Proof.Machine

open Sys2Proof.Safety

theorem complete_eq_answered (s : State) (d : Word) : s.complete 0 d = answered s d := rfl

theorem code_setWidth (e : Err) : e.code.setWidth 32 = 0#24 ++ e.code := by cases e <;> decide

theorem code_ne_zero (e : Err) : e.code ≠ 0 := by cases e <;> decide

theorem raise_eq_errored (s : State) (e : Err) (info : Word) : s.raise e info = errored s e.code info := by
  cases h : s.status.fault
  · rw [State.raise_of_no_fault s e info h]
    simp [State.complete, State.recordError, errored, h, code_setWidth, response]
  · rw [State.raise_of_fault s e info h]
    have hs : { s.status with fault := true } = s.status := by rw [← h]
    simp [State.complete, errored, h, hs, response]

theorem infoOf_eq_opInfo (i : Instr) : infoOf i = opInfo (opcode i) := infoField_encode i

/-- A command that passes its checks, in the terms of the statements. -/
theorem command_answers (i : Instr) (checks : List (Bool × Err)) (effect : State → State × Word) (s : State)
    (hg : s.gated (opcode i) = false) (hc : firstError checks = none) :
    command i checks effect s = .next (answered (effect s).1 (effect s).2) := command_of_pass i checks effect s hg hc

/-- A command that fails a check, in the terms of the statements. -/
theorem command_errs (i : Instr) (checks : List (Bool × Err)) (effect : State → State × Word) (s : State) (e : Err)
    (hg : s.gated (opcode i) = false) (hc : firstError checks = some e) :
    command i checks effect s = .next (errored s e.code (opInfo (opcode i))) := by
  rw [command_of_error i checks effect s e hg hc, raise_eq_errored, infoOf_eq_opInfo]

theorem size_eq (s : State) : s.size = s.blksz.toNat := rfl

theorem cyclicByte_of_lt (s : State) (p : Nat) (h : p < s.blksz.toNat) : s.cyclicByte p = s.blockAt p := by
  simp [State.cyclicByte, size_eq, Nat.mod_eq_of_lt h]

theorem packedWord_eq_packed (s : State) (p : Nat) (h : p < s.blksz.toNat) : s.packedWord p = packed s p := by
  rw [State.packedWord, cyclicByte_of_lt s p h]
  rfl

theorem key_eq_keyOf (s : State) (i : Nat) (h : i < s.blksz.toNat) : s.key i = keyOf s i := by
  rw [State.key, cyclicByte_of_lt s i h, BitVec.toNat_append, ← Nat.shiftLeft_add_eq_or_of_lt (BitVec.isLt _),
    Nat.shiftLeft_eq]
  rfl

theorem key_lt (s : State) (i : Nat) : s.key i < 65536 := BitVec.isLt _

theorem countAt_eq_bucketStart (s : State) (k : Nat) : s.countAt k = bucketStart s k := by
  rw [State.countAt, BitVec.toNat_and, bucketStart]
  exact Nat.and_two_pow_sub_one_eq_mod _ 31

theorem bigSize_eq_bucketSize (s : State) (b : Nat) : s.bigSize b = bucketSize s b := by
  rw [State.bigSize, countAt_eq_bucketStart, countAt_eq_bucketStart]
  rfl

/-! ## Values as the statements write them -/

/-- A byte zero-extended to a word (30_encoding.md R96). -/
theorem setWidth_eq_append (b : Byte) : (b.setWidth 32 : Word) = 0#24 ++ b := by
  apply BitVec.eq_of_toNat_eq
  rw [BitVec.toNat_append]
  simp
  omega

theorem lowByte_eq_extract (w : Word) : lowByte w = w.extractLsb' 0 8 := by
  apply BitVec.eq_of_toNat_eq
  simp [lowByte]

theorem pack_eq_statusWord (f : Status) : f.pack = statusWord f := by
  rcases f with ⟨a, b, c, d, e, g, k⟩
  cases a <;> cases b <;> cases c <;> cases d <;> cases e <;> cases g <;> cases k <;> decide

/-- The CSR numbers that do not exist (10_state.md R23). -/
theorem csr_isNone (s : State) (n : Nat) : (s.csr n).isNone = decide (9 < n) := by
  by_cases h : 9 < n
  · obtain ⟨m, rfl⟩ : ∃ m, n = m + 10 := ⟨n - 10, by omega⟩
    simp [State.csr]
  · have : n ≤ 9 := by omega
    interval_cases n <;> rfl

/-- A token as the number R98 gives. -/
theorem token_eq (ctx : Context) (width : BitVec 4) (sym : Byte) :
    (token ctx width sym).toNat = ctx.id.toNat * 4096 + width.toNat * 256 + sym.toNat := by
  have h : (ctx.id ++ width ++ sym).toNat = ctx.id.toNat * 4096 + width.toNat * 256 + sym.toNat := by
    rw [BitVec.toNat_append, BitVec.toNat_append, ← Nat.shiftLeft_add_eq_or_of_lt (BitVec.isLt _),
      ← Nat.shiftLeft_add_eq_or_of_lt (BitVec.isLt _), Nat.shiftLeft_eq, Nat.shiftLeft_eq]
    omega
  exact h

end Sys2Proof.Machine
end

