-- ==== Sys2Proof/Laws/Memory.lean ====
section
/-! SUPPORT. The laws of a memory: reading after writing, and that every write keeps the canonical form. -/

namespace Sys2Proof.Machine

variable {w : Nat}

/-! ## Reading -/

theorem Memory.find_append (a : Nat) :
    ∀ m n : Memory w, Memory.find (m ++ n) a = (Memory.find m a).or (Memory.find n a) := by
  intro m n
  induction m with
  | nil => simp [Memory.find]
  | cons c m ih =>
    simp only [List.cons_append, Memory.find]
    split <;> simp [ih]

theorem Memory.find_dropCell_of_ne (a b : Nat) (h : b ≠ a) (m : Memory w) :
    Memory.find (Memory.dropCell a m) b = Memory.find m b := by
  cases m with
  | nil => rfl
  | cons c m =>
    simp only [Memory.dropCell]
    split
    · next hk => simp only [Memory.find]; rw [if_neg (by omega)]
    · rfl

theorem Memory.find_takeWhile_self (a : Nat) (m : Memory w) :
    Memory.find (m.takeWhile (fun c => decide (c.1 < a))) a = none := by
  induction m with
  | nil => rfl
  | cons c m ih =>
    by_cases hc : c.1 < a
    · rw [List.takeWhile_cons_of_pos (by simpa using hc)]
      simp only [Memory.find]
      rw [if_neg (by omega), ih]
    · rw [List.takeWhile_cons_of_neg (by simpa using hc)]
      rfl

/-- Everything a one-element write does to the contents. -/
theorem Memory.find_put (m : Memory w) (a b : Nat) (v : BitVec w) :
    Memory.find (Memory.put m a v) b = if b = a then some v else Memory.find m b := by
  simp only [Memory.put, Memory.find_append, Memory.find]
  by_cases h : b = a
  · subst h
    simp [Memory.find_takeWhile_self]
  · rw [if_neg (by omega), if_neg h, Memory.find_dropCell_of_ne a b h, ← Memory.find_append,
      List.takeWhile_append_dropWhile]

theorem Memory.read_put (init : Nat → BitVec w) (m : Memory w) (a b : Nat) (v : BitVec w) :
    Memory.read init (Memory.put m a v) b = if b = a then v else Memory.read init m b := by
  simp only [Memory.read, Memory.find_put]
  split <;> rfl

theorem Memory.find_filter (p : Nat → Bool) (b : Nat) (m : Memory w) :
    Memory.find (m.filter (fun c => p c.1)) b = if p b then Memory.find m b else none := by
  induction m with
  | nil => simp [Memory.find]
  | cons c m ih =>
    by_cases hc : c.1 = b
    · subst hc
      cases hp : p c.1 <;> simp [Memory.find, hp]
      simpa [hp] using ih
    · cases hp : p c.1 <;> simp [Memory.find, hp, hc, ih]

theorem Memory.find_zipIdx (b : Nat) : ∀ (vs : List (BitVec w)) (lo : Nat),
    Memory.find ((vs.zipIdx lo).map (fun p => (p.2, p.1))) b = if lo ≤ b then vs[b - lo]? else none := by
  intro vs
  induction vs with
  | nil => intro lo; simp [Memory.find]
  | cons v vs ih =>
    intro lo
    simp only [List.zipIdx_cons, List.map_cons, Memory.find, ih]
    by_cases h : lo = b
    · subst h; simp
    · rw [if_neg h]
      by_cases h2 : lo ≤ b
      · obtain ⟨d, rfl⟩ : ∃ d, b = lo + 1 + d := ⟨b - (lo + 1), by omega⟩
        rw [if_pos (by omega), if_pos h2, show lo + 1 + d - lo = d + 1 by omega,
          show lo + 1 + d - (lo + 1) = d by omega, List.getElem?_cons_succ]
      · rw [if_neg (by omega), if_neg h2]

/-- Everything a write of consecutive elements does to the contents. -/
theorem Memory.find_load (m : Memory w) (lo b : Nat) (vs : List (BitVec w)) :
    Memory.find (Memory.load m lo vs) b =
      if lo ≤ b ∧ b < lo + vs.length then vs[b - lo]? else Memory.find m b := by
  have h1 := Memory.find_filter (fun k => decide (k < lo)) b m
  have h2 := Memory.find_filter (fun k => decide (lo + vs.length ≤ k)) b m
  simp only [Memory.load, Memory.find_append, h1, h2, Memory.find_zipIdx]
  by_cases hlo : b < lo
  · simp [hlo, show ¬ lo ≤ b by omega, show ¬ lo + vs.length ≤ b by omega]
  · by_cases hhi : b < lo + vs.length
    · simp [hlo, hhi, show lo ≤ b by omega, show ¬ lo + vs.length ≤ b by omega]
    · simp [hlo, hhi, show lo ≤ b by omega, show lo + vs.length ≤ b by omega,
        show vs.length ≤ b - lo by omega]

theorem Memory.read_load_of_mem (init : Nat → BitVec w) (m : Memory w) (lo b : Nat) (vs : List (BitVec w))
    (h1 : lo ≤ b) (h2 : b - lo < vs.length) : Memory.read init (Memory.load m lo vs) b = vs[b - lo] := by
  rw [Memory.read, Memory.find_load, if_pos ⟨h1, by omega⟩]
  simp [h2]

theorem Memory.read_load_of_not_mem (init : Nat → BitVec w) (m : Memory w) (lo b : Nat) (vs : List (BitVec w))
    (h : b < lo ∨ lo + vs.length ≤ b) : Memory.read init (Memory.load m lo vs) b = Memory.read init m b := by
  rw [Memory.read, Memory.find_load, if_neg (by omega), Memory.read]

@[simp] theorem Memory.length_slice (init : Nat → BitVec w) (m : Memory w) (lo n : Nat) :
    (Memory.slice init m lo n).length = n := by simp [Memory.slice]

@[simp] theorem Memory.getElem_slice (init : Nat → BitVec w) (m : Memory w) (lo n i : Nat)
    (h : i < (Memory.slice init m lo n).length) :
    (Memory.slice init m lo n)[i] = Memory.read init m (lo + i) := by simp [Memory.slice]

/-- What was loaded is what the same slice reads. -/
theorem Memory.slice_load (init : Nat → BitVec w) (m : Memory w) (lo : Nat) (vs : List (BitVec w)) :
    Memory.slice init (Memory.load m lo vs) lo vs.length = vs := by
  apply List.ext_getElem
  · simp
  · intro i h1 h2
    rw [Memory.getElem_slice, Memory.read_load_of_mem init m lo (lo + i) vs (by omega) (by omega)]
    simp

/-! ## The canonical form -/

theorem Memory.sortedFrom_mono {lo hi : Nat} (h : lo ≤ hi) (m : Memory w) (hm : Memory.sortedFrom hi m = true) :
    Memory.sortedFrom lo m = true := by
  cases m with
  | nil => rfl
  | cons c m =>
    simp only [Memory.sortedFrom, Bool.and_eq_true, decide_eq_true_eq] at hm ⊢
    exact ⟨by omega, hm.2⟩

/-- Two rising lists, the second above the first, make a rising list. -/
theorem Memory.sortedFrom_append (lo mid : Nat) :
    ∀ m n : Memory w, Memory.sortedFrom lo m = true → (∀ c ∈ m, c.1 < mid) → lo ≤ mid →
      Memory.sortedFrom mid n = true → Memory.sortedFrom lo (m ++ n) = true := by
  intro m
  induction m generalizing lo with
  | nil => intro n _ _ hle hn; exact Memory.sortedFrom_mono hle n hn
  | cons c m ih =>
    intro n hm hlt _ hn
    simp only [List.cons_append, Memory.sortedFrom, Bool.and_eq_true, decide_eq_true_eq] at hm ⊢
    have hc := hlt c List.mem_cons_self
    exact ⟨hm.1, ih (c.1 + 1) n hm.2 (fun d hd => hlt d (List.mem_cons_of_mem _ hd)) (by omega) hn⟩

theorem Memory.sortedFrom_filter (p : Nat × BitVec w → Bool) :
    ∀ (m : Memory w) (lo : Nat), Memory.sortedFrom lo m = true → Memory.sortedFrom lo (m.filter p) = true := by
  intro m
  induction m with
  | nil => intros; rfl
  | cons c m ih =>
    intro lo h
    simp only [Memory.sortedFrom, Bool.and_eq_true, decide_eq_true_eq] at h
    cases hp : p c
    · rw [List.filter_cons_of_neg (by simp [hp])]
      exact ih _ (Memory.sortedFrom_mono (by omega) m h.2)
    · rw [List.filter_cons_of_pos hp]
      simp only [Memory.sortedFrom, Bool.and_eq_true, decide_eq_true_eq]
      exact ⟨h.1, ih _ h.2⟩

theorem Memory.sortedFrom_of_bound (lo hi : Nat) :
    ∀ m : Memory w, Memory.sortedFrom lo m = true → (∀ c ∈ m, hi ≤ c.1) → Memory.sortedFrom hi m = true := by
  intro m hm hb
  cases m with
  | nil => rfl
  | cons c m =>
    simp only [Memory.sortedFrom, Bool.and_eq_true, decide_eq_true_eq] at hm ⊢
    exact ⟨hb c List.mem_cons_self, hm.2⟩

theorem Memory.sortedFrom_zipIdx : ∀ (vs : List (BitVec w)) (lo : Nat),
    Memory.sortedFrom lo ((vs.zipIdx lo).map (fun p => (p.2, p.1))) = true := by
  intro vs
  induction vs with
  | nil => intros; rfl
  | cons v vs ih => intro lo; simp [Memory.sortedFrom, ih]

theorem Memory.sortedFrom_takeWhile (a : Nat) :
    ∀ (m : Memory w) (lo : Nat), Memory.sortedFrom lo m = true →
      Memory.sortedFrom lo (m.takeWhile (fun c => decide (c.1 < a))) = true := by
  intro m
  induction m with
  | nil => intros; rfl
  | cons c m ih =>
    intro lo h
    simp only [Memory.sortedFrom, Bool.and_eq_true, decide_eq_true_eq] at h
    by_cases hc : c.1 < a
    · rw [List.takeWhile_cons_of_pos (by simpa using hc)]
      simp only [Memory.sortedFrom, Bool.and_eq_true, decide_eq_true_eq]
      exact ⟨h.1, ih _ h.2⟩
    · rw [List.takeWhile_cons_of_neg (by simpa using hc)]
      rfl

theorem Memory.sortedFrom_dropCell (a : Nat) (m : Memory w) (h : Memory.sortedFrom a m = true) :
    Memory.sortedFrom (a + 1) (Memory.dropCell a m) = true := by
  cases m with
  | nil => rfl
  | cons c m =>
    simp only [Memory.sortedFrom, Bool.and_eq_true, decide_eq_true_eq] at h
    simp only [Memory.dropCell]
    split
    · next hk => rw [← hk]; exact h.2
    · simp only [Memory.sortedFrom, Bool.and_eq_true, decide_eq_true_eq]
      exact ⟨by omega, h.2⟩

theorem Memory.put_keeps_wf (m : Memory w) (a : Nat) (v : BitVec w) (h : Memory.wf m = true) :
    Memory.wf (Memory.put m a v) = true := by
  refine Memory.sortedFrom_append 0 a _ _ (Memory.sortedFrom_takeWhile a m 0 h) ?_ (by omega) ?_
  · intro c hc
    simpa using List.mem_takeWhile_imp hc
  · simp only [Memory.sortedFrom, Bool.and_eq_true, decide_eq_true_eq]
    exact ⟨Nat.le_refl a, Memory.sortedFrom_dropCell a _ (Memory.sortedFrom_dropWhile a m 0 h)⟩

theorem Memory.load_keeps_wf (m : Memory w) (lo : Nat) (vs : List (BitVec w)) (h : Memory.wf m = true) :
    Memory.wf (Memory.load m lo vs) = true := by
  have hz : ∀ c ∈ (vs.zipIdx lo).map (fun p => (p.2, p.1)), c.1 < lo + vs.length := by
    intro c hc
    obtain ⟨p, hp, rfl⟩ := List.mem_map.mp hc
    have := List.mem_zipIdx hp
    simp only
    omega
  refine Memory.sortedFrom_append 0 (lo + vs.length) _ _
    (Memory.sortedFrom_append 0 lo _ _ (Memory.sortedFrom_filter _ m 0 h) ?_ (by omega)
      (Memory.sortedFrom_zipIdx vs lo)) ?_ (by omega)
    (Memory.sortedFrom_of_bound 0 _ _ (Memory.sortedFrom_filter _ m 0 h) ?_)
  · intro c hc
    simpa using (List.mem_filter.mp hc).2
  · intro c hc
    rcases List.mem_append.mp hc with hc | hc
    · have : c.1 < lo := by simpa using (List.mem_filter.mp hc).2
      omega
    · exact hz c hc
  · intro c hc
    simpa using (List.mem_filter.mp hc).2

theorem Memory.eq_of_find_of_sortedFrom :
    ∀ (m n : Memory w) (lo : Nat), Memory.sortedFrom lo m = true → Memory.sortedFrom lo n = true →
      (∀ a, Memory.find m a = Memory.find n a) → m = n := by
  intro m
  induction m with
  | nil =>
    intro n lo _ _ h
    cases n with
    | nil => rfl
    | cons d n => simpa [Memory.find] using h d.1
  | cons c m ih =>
    intro n lo hm hn h
    cases n with
    | nil => simpa [Memory.find] using h c.1
    | cons d n =>
      simp only [Memory.sortedFrom, Bool.and_eq_true, decide_eq_true_eq] at hm hn
      have hcd : c.1 = d.1 := by
        rcases Nat.lt_trichotomy c.1 d.1 with hlt | heq | hlt
        · have := h c.1
          simp [Memory.find, show d.1 ≠ c.1 by omega,
            Memory.find_of_sortedFrom n (d.1 + 1) c.1 hn.2 (by omega)] at this
        · exact heq
        · have := h d.1
          simp [Memory.find, show c.1 ≠ d.1 by omega,
            Memory.find_of_sortedFrom m (c.1 + 1) d.1 hm.2 (by omega)] at this
      have hv : c.2 = d.2 := by
        have := h c.1
        simpa [Memory.find, hcd] using this
      have hrest : m = n := by
        refine ih n (c.1 + 1) hm.2 (by rw [hcd]; exact hn.2) fun a => ?_
        have ha := h a
        simp only [Memory.find] at ha
        by_cases hk : c.1 = a
        · rw [Memory.find_of_sortedFrom m (c.1 + 1) a hm.2 (by omega),
            Memory.find_of_sortedFrom n (d.1 + 1) a hn.2 (by omega)]
        · rwa [if_neg hk, if_neg (by omega)] at ha
      rw [hrest, Prod.ext hcd hv]

/-- Equal contents in canonical form are equal data. -/
theorem Memory.eq_of_find (m n : Memory w) (hm : Memory.wf m = true) (hn : Memory.wf n = true)
    (h : ∀ a, Memory.find m a = Memory.find n a) : m = n := Memory.eq_of_find_of_sortedFrom m n 0 hm hn h

end Sys2Proof.Machine
end

