-- ==== Sys2Proof/Laws/Buckets.lean ====
section
/-! SUPPORT. The shell sort of the big buckets: every pass only reorders, and the last pass, with gap 1, sorts. -/

namespace Sys2Proof.Machine

open Sys2Proof.Safety

variable (size : Byte → Nat)

/-! ## Every pass reorders -/

theorem length_sinkEntry (h : Nat) (v : Byte) :
    ∀ fuel j l, (sinkEntry size h v fuel j l).length = l.length := by
  intro fuel
  induction fuel with
  | zero => intro j l; simp [sinkEntry]
  | succ fuel ih =>
    intro j l
    rw [sinkEntry]
    split
    · rw [ih, List.length_set]
    · rw [List.length_set]

/-- Moving an entry from place `i` to place `j` while `v` takes place `i` is putting `v` at `j` and swapping. -/
theorem set_set_perm (l : List Byte) (i j : Nat) (v : Byte) (hi : i < l.length) (hj : j < l.length) (hne : i ≠ j) :
    ((l.set j (l.getD i 0)).set i v).Perm (l.set j v) := by
  rw [List.perm_iff_count]
  intro x
  have hd : l.getD i 0 = l[i] := by simp [List.getD_eq_getElem?_getD, hi]
  rw [hd, List.count_set (h := by simpa using hi), List.count_set (h := hj), List.count_set (h := hj),
    List.getElem_set_of_ne (Ne.symm hne)]
  have h1 : 0 < l.count l[j] := List.count_pos_iff.mpr (List.getElem_mem hj)
  have h2 : 0 < l.count l[i] := List.count_pos_iff.mpr (List.getElem_mem hi)
  have h3 : l[j] = l[i] → 2 ≤ l.count l[i] := by
    intro he
    rw [← List.duplicate_iff_two_le_count]
    rcases Nat.lt_or_gt_of_ne hne with hlt | hlt
    · exact List.duplicate_iff_exists_distinct_get.mpr ⟨⟨i, hi⟩, ⟨j, hj⟩, hlt, rfl, he.symm⟩
    · exact List.duplicate_iff_exists_distinct_get.mpr ⟨⟨j, hj⟩, ⟨i, hi⟩, hlt, he.symm, rfl⟩
  by_cases c1 : l[j] = x <;> by_cases c2 : l[i] = x <;> by_cases c3 : v = x <;> simp_all

theorem sinkEntry_perm (h : Nat) (hh : 0 < h) (v : Byte) :
    ∀ fuel j l, j < l.length → (sinkEntry size h v fuel j l).Perm (l.set j v) := by
  intro fuel
  induction fuel with
  | zero => intro j l _; exact List.Perm.refl _
  | succ fuel ih =>
    intro j l hj
    rw [sinkEntry]
    split
    · next hc =>
      refine (ih (j - h) _ (by rw [List.length_set]; omega)).trans ?_
      exact set_set_perm l (j - h) j v (by omega) hj (by omega)
    · exact List.Perm.refl _

theorem foldl_sinkEntry_perm (h : Nat) (hh : 0 < h) :
    ∀ (is : List Nat) (l : List Byte), (∀ i ∈ is, i < l.length) →
      (is.foldl (fun l i => sinkEntry size h (l.getD i 0) i i l) l).Perm l := by
  intro is
  induction is with
  | nil => intro l _; exact List.Perm.refl _
  | cons i is ih =>
    intro l hl
    have hi := hl i List.mem_cons_self
    have hd : l.getD i 0 = l[i] := by simp [List.getD_eq_getElem?_getD, hi]
    rw [List.foldl_cons]
    refine (ih _ fun k hk => ?_).trans ?_
    · rw [length_sinkEntry]
      exact hl k (List.mem_cons_of_mem _ hk)
    · have := sinkEntry_perm size h hh (l.getD i 0) i i l hi
      rwa [hd, List.set_getElem_self, ← hd] at this

theorem gapPass_perm (h : Nat) (hh : 0 < h) (l : List Byte) (hl : l.length = 256) : (gapPass size l h).Perm l := by
  refine foldl_sinkEntry_perm size h hh _ l fun i hi => ?_
  have := List.mem_range'_1.mp hi
  omega

theorem foldl_gapPass_perm :
    ∀ (hs : List Nat) (l : List Byte), (∀ h ∈ hs, 0 < h) → l.length = 256 → (hs.foldl (gapPass size) l).Perm l := by
  intro hs
  induction hs with
  | nil => intro l _ _; exact List.Perm.refl _
  | cons h hs ih =>
    intro l hp hl
    have hp1 := gapPass_perm size h (hp h List.mem_cons_self) l hl
    exact (ih _ (fun k hk => hp k (List.mem_cons_of_mem _ hk)) (hp1.length_eq.trans hl)).trans hp1

/-- `BORD` is a permutation of the byte values (41_presort.md R148 (a)). -/
theorem bigOrder_perm : (bigOrder size).Perm identityBytes :=
  foldl_gapPass_perm size shellGaps identityBytes (by decide) (by simp [identityBytes])

theorem length_bigOrder : (bigOrder size).length = 256 := by
  rw [(bigOrder_perm size).length_eq]
  simp [identityBytes]

/-! ## The last pass sorts -/

/-- The first `n` entries are in ascending order of size. -/
def SortedUpTo (l : List Byte) (n : Nat) : Prop :=
  ∀ x y, x < y → y < n → size (l.getD x 0) ≤ size (l.getD y 0)

theorem getD_set (l : List Byte) (i j : Nat) (v : Byte) (hi : i < l.length) :
    (l.set i v).getD j 0 = if j = i then v else l.getD j 0 := by
  simp only [List.getD_eq_getElem?_getD, List.getElem?_set]
  by_cases h : j = i
  · subst h
    simp [hi]
  · simp [h, Ne.symm h]

/-- Sinking `v` from place `j`, when the entries before `j` are sorted, those after it up to `n` are sorted and
greater than `v`, and no entry before `j` is greater than one after it. -/
theorem sinkEntry_sorted (v : Byte) (n : Nat) :
    ∀ fuel j l, j ≤ fuel → j < n → n ≤ l.length →
      (∀ x y, x < y → y < n → x ≠ j → y ≠ j → size (l.getD x 0) ≤ size (l.getD y 0)) →
      (∀ y, j < y → y < n → size v ≤ size (l.getD y 0)) →
      SortedUpTo size (sinkEntry size 1 v fuel j l) n := by
  have place : ∀ (j : Nat) (l : List Byte), j < n → n ≤ l.length →
      (∀ x y, x < y → y < n → x ≠ j → y ≠ j → size (l.getD x 0) ≤ size (l.getD y 0)) →
      (∀ y, j < y → y < n → size v ≤ size (l.getD y 0)) →
      (∀ x, x < j → size (l.getD x 0) ≤ size v) → SortedUpTo size (l.set j v) n := by
    intro j l hj hn hs ha hb x y hxy hy
    rw [getD_set l j x v (by omega), getD_set l j y v (by omega)]
    by_cases hx : x = j
    · subst hx
      rw [if_pos rfl, if_neg (by omega)]
      exact ha y hxy hy
    · rw [if_neg hx]
      by_cases hyj : y = j
      · subst hyj
        rw [if_pos rfl]
        exact hb x hxy
      · rw [if_neg hyj]
        exact hs x y hxy hy hx hyj
  intro fuel
  induction fuel with
  | zero =>
    intro j l hf hj hn hs ha
    exact place j l hj hn hs ha fun x hx => by omega
  | succ fuel ih =>
    intro j l hf hj hn hs ha
    rw [sinkEntry]
    split
    · next hc =>
      refine ih (j - 1) _ (by omega) (by omega) (by rw [List.length_set]; exact hn) ?_ ?_
      · intro x y hxy hy hx hyj
        rw [getD_set l j x _ (by omega), getD_set l j y _ (by omega)]
        by_cases h1 : x = j
        · subst h1
          rw [if_pos rfl, if_neg (by omega)]
          exact hs _ y (by omega) hy (by omega) (by omega)
        · rw [if_neg h1]
          by_cases h2 : y = j
          · subst h2
            rw [if_pos rfl]
            exact hs x _ (by omega) (by omega) h1 (by omega)
          · rw [if_neg h2]
            exact hs x y hxy hy h1 h2
      · intro y h1 h2
        rw [getD_set l j y _ (by omega)]
        by_cases hyj : y = j
        · rw [if_pos hyj]
          exact Nat.le_of_lt hc.2
        · rw [if_neg hyj]
          exact ha y (by omega) h2
    · next hc =>
      refine place j l hj hn hs ha fun x hx => ?_
      have h1 : size (l.getD (j - 1) 0) ≤ size v := Nat.le_of_not_lt fun h => hc ⟨by omega, h⟩
      by_cases hxj : x = j - 1
      · rwa [hxj]
      · exact (hs x (j - 1) (by omega) (by omega) (by omega) (by omega)).trans h1

theorem foldl_sinkEntry_sorted :
    ∀ (n i : Nat) (l : List Byte), i + n ≤ l.length → SortedUpTo size l i →
      SortedUpTo size ((List.range' i n).foldl (fun l i => sinkEntry size 1 (l.getD i 0) i i l) l) (i + n) := by
  intro n
  induction n with
  | zero => intro i l _ h; exact h
  | succ n ih =>
    intro i l hl h
    rw [List.range'_succ, List.foldl_cons, show i + (n + 1) = i + 1 + n by omega]
    refine ih (i + 1) _ (by rw [length_sinkEntry]; omega) ?_
    refine sinkEntry_sorted size _ (i + 1) i i l (Nat.le_refl i) (by omega) (by omega) ?_ ?_
    · intro x y hxy hy hx hyi
      exact h x y hxy (by omega)
    · intro y h1 h2
      omega

/-- `BORD` is in ascending order of size (R148 (b)). -/
theorem bigOrder_sorted : SortedUpTo size (bigOrder size) 256 := by
  have hp := foldl_gapPass_perm size [121, 40, 13, 4] identityBytes (by decide) (by simp [identityBytes])
  have hl := hp.length_eq
  rw [bigOrder, show shellGaps = [121, 40, 13, 4] ++ [1] from rfl, List.foldl_append, List.foldl_cons, List.foldl_nil]
  generalize [121, 40, 13, 4].foldl (gapPass size) identityBytes = l at hl
  rw [gapPass]
  refine foldl_sinkEntry_sorted size 255 1 _ (by rw [hl]; simp [identityBytes]) ?_
  intro x y hxy hy
  omega

/-! ## `BORD` after `BIGORD` -/

theorem bordAt_orderBuckets (s : State) (j : Nat) :
    s.orderBuckets.bordAt j =
      if j < 256 then (bigOrder fun b => bucketSize s b.toNat).getD j 0 else s.bordAt j := by
  have hf : (fun b : Byte => ((List.range 256).map s.bigSize).getD b.toNat 0) = fun b => bucketSize s b.toNat := by
    funext b
    rw [List.getD_eq_getElem?_getD, List.getElem?_map, List.getElem?_range b.isLt]
    exact bigSize_eq_bucketSize s b.toNat
  show (Memory.find (Memory.load s.bord 0 (bigOrder _)) j).getD _ = _
  rw [hf, Memory.find_load, length_bigOrder]
  by_cases h : j < 256
  · rw [if_pos (by omega), if_pos h, Nat.sub_zero, List.getD_eq_getElem?_getD,
      List.getElem?_eq_getElem (by rw [length_bigOrder]; exact h)]
    rfl
  · rw [if_neg (by omega), if_neg h]
    rfl

/-! ## The list and the array of R147: the loops of the model and those of the statements leave the same -/

/-- The list holds what the array holds. -/
def Matches (l : List Byte) (bord : Nat → Nat) : Prop := l.length = 256 ∧ ∀ k < 256, (l.getD k 0).toNat = bord k

theorem matches_set (l : List Byte) (bord : Nat → Nat) (j : Nat) (v : Byte) (h : Matches l bord) (hj : j < 256) :
    Matches (l.set j v) (Function.update bord j v.toNat) := by
  refine ⟨by simpa using h.1, fun k hk => ?_⟩
  rw [getD_set _ _ _ _ (by rw [h.1]; exact hj)]
  by_cases hkj : k = j
  · subst hkj
    simp
  · simp only [if_neg hkj, Function.update_of_ne hkj]
    exact h.2 k hk

theorem matches_sinkEntry (sizeOf : Nat → Nat) (h : Nat) (v : Byte) :
    ∀ fuel j l bord, j < 256 → Matches l bord →
      Matches (sinkEntry (fun b => sizeOf b.toNat) h v fuel j l) (sinkInBord sizeOf h v.toNat fuel j bord) := by
  intro fuel
  induction fuel with
  | zero => exact fun j l bord hj hm => matches_set _ _ _ _ hm hj
  | succ fuel ih =>
    intro j l bord hj hm
    rw [sinkEntry, sinkInBord, hm.2 _ (by omega)]
    split
    · have hset := matches_set l bord j (l.getD (j - h) 0) hm hj
      rw [hm.2 _ (by omega)] at hset
      exact ih _ _ _ (by omega) hset
    · exact matches_set _ _ _ _ hm hj

theorem matches_foldl_sinkEntry (sizeOf : Nat → Nat) (h : Nat) :
    ∀ (is : List Nat) l bord, (∀ i ∈ is, i < 256) → Matches l bord →
      Matches (is.foldl (fun l i => sinkEntry (fun b => sizeOf b.toNat) h (l.getD i 0) i i l) l)
        (is.foldl (fun bord i => sinkInBord sizeOf h (bord i) i i bord) bord) := by
  intro is
  induction is with
  | nil => exact fun l bord _ hm => hm
  | cons i is ih =>
    intro l bord hi hm
    have h256 := hi i List.mem_cons_self
    refine ih _ _ (fun x hx => hi x (List.mem_cons_of_mem _ hx)) ?_
    beta_reduce
    rw [← hm.2 _ h256]
    exact matches_sinkEntry _ _ _ _ _ _ _ h256 hm

/-- The order of the model is what the loops of R147 leave, ties included. -/
theorem matches_bigOrder (sizeOf : Nat → Nat) :
    Matches (bigOrder fun b => sizeOf b.toNat) (bordAfterLoops sizeOf) := by
  have key : ∀ (gaps : List Nat) l bord, Matches l bord →
      Matches (gaps.foldl (gapPass fun b => sizeOf b.toNat) l)
        (gaps.foldl (fun bord h =>
          (List.range' h (256 - h)).foldl (fun bord i => sinkInBord sizeOf h (bord i) i i bord) bord) bord) := by
    intro gaps
    induction gaps with
    | nil => exact fun l bord hm => hm
    | cons h gaps ih =>
      exact fun l bord hm => ih _ _ (matches_foldl_sinkEntry _ _ _ _ _
        (fun i hi => by have := List.mem_range'.mp hi; omega) hm)
  refine key _ _ _ ⟨by simp [identityBytes], fun k hk => ?_⟩
  simp [identityBytes, List.getD_eq_getElem?_getD, hk, BitVec.toNat_ofNat, Nat.mod_eq_of_lt]

end Sys2Proof.Machine
end

