-- ==== Sys2Proof/Laws/Exec.lean ====
section
/-! SUPPORT. Every command in one form: its checks and its effect, so that a statement about all commands splits once on
how a command ends and then only on its effect. -/

namespace Sys2Proof.Machine

open Sys2Proof.Safety

/-- The checks a command makes after the fault gate, in order. -/
def checksOf (s : State) : Instr → List (Bool × Err)
  | .nop | .clear | .clrerr | .mtfinit | .mtfword _ => []
  | .cfg n => [outOfRange (decide (s.cap.toNat < n.toNat))]
  | .csrrd r => [((s.csr r.toNat).isNone, .csr)]
  | .csrwr r _ => [((s.csr r.toNat).isNone, .csr), (r.toNat != 4, .csr)]
  | .blkwr a v => [s.needConfig, outOfRange (decide (s.size ≤ a.toNat) || decide (255 < v.toNat))]
  | .blkwr4 a _ => [s.needConfig, outOfRange (decide (s.size < a.toNat + 4))]
  | .blkrd a => [s.needConfig, outOfRange (decide (s.size ≤ a.toNat))]
  | .ptrrd i | .ptrwr i _ => [s.needConfig, outOfRange (decide (s.size < i.toNat))]
  | .btrd k => [s.needConfig, outOfRange (decide (65536 < k.toNat))]
  | .btmark k => [s.needConfig, s.needStage .scattered, outOfRange (decide (65535 < k.toNat))]
  | .strd p => [s.needConfig, s.needLarge, s.needStripe, outOfRange (decide (s.size + 64 ≤ p.toNat))]
  | .stwr p _ => [s.needConfig, s.needLarge, s.needStripe, outOfRange (decide (s.size ≤ p.toNat))]
  | .bordrd j => [s.needConfig, (!s.status.bigordValid, .sequence), outOfRange (decide (255 < j.toNat))]
  | .mtfrd j => [s.needMtf, outOfRange (decide (255 < j.toNat))]
  | .stbuild => [s.needConfig, s.needLarge]
  | .cmp i1 i2 _ =>
    [s.needConfig, s.needLarge, s.needStripe,
      outOfRange (decide (s.size ≤ i1.toNat) || decide (s.size ≤ i2.toNat))]
  | .rscnt | .rsort => [s.needConfig]
  | .rscum => [s.needConfig, s.needStage .counted]
  | .rssct => [s.needConfig, s.needStage .cumulated]
  | .bigord => [s.needConfig, s.needStage .scattered]
  | .mtfb c =>
    [s.needMtf, outOfRange (decide (255 < c.toNat)),
      (decide (s.mtfAt 0 = lowByte c) && decide (s.zrun.toNat = 2 ^ 32 - 1), .zrunOverflow)]
  | .mtfeob => [s.needMtf]
  | .mtfblk => [s.needConfig, s.needMtf, (decide (2 ^ 32 - 1 < s.zrun.toNat + s.size), .zrunOverflow)]

/-- The state a command leaves when its checks pass, `SEQ` and the response apart. -/
def effectOf (s : State) : Instr → State
  | .nop | .csrrd _ | .blkrd _ | .ptrrd _ | .btrd _ | .strd _ | .bordrd _ | .mtfrd _ | .cmp _ _ _ => s
  | .cfg n => s.configure n
  | .clear => s.deconfigure
  | .csrwr _ v => { s with ie := v.getLsbD 0 }
  | .clrerr => s.clearError
  | .blkwr a v => s.writeBlock a.toNat [lowByte v]
  | .blkwr4 a w => s.writeBlock a.toNat (bytesOf w)
  | .ptrwr i v => { s with ptr := Memory.put s.ptr i.toNat v }
  | .btmark k => { s with bt := Memory.put s.bt k.toNat (s.btAt k.toNat ||| sortedMask) }
  | .stwr p w => s.tagStripe p.toNat w
  | .stbuild => s.buildStripe
  | .rscnt => s.countKeys
  | .rscum => s.cumulate
  | .rssct => s.scatter
  | .rsort => s.countKeys.cumulate.scatter
  | .bigord => s.orderBuckets
  | .mtfinit => { s.initList with status := s.status.afterMtfInit }
  | .mtfb c => s.withEncoder (encodeByte s.encoder (lowByte c))
  | .mtfeob => ({ s with zrun := 0 }).emit (flushTokens s.zrun ++ [eobToken])
  | .mtfword w => s.emit ((bytesOf w).map originToken)
  | .mtfblk => s.withEncoder (encodeEnd (s.lastColumn.foldl encodeByte s.encoder))

/-- The response data of a command whose checks pass. -/
def dataOf (s : State) : Instr → Word
  | .csrrd r => (s.csr r.toNat).getD 0
  | .blkrd a => (s.blockAt a.toNat).setWidth 32
  | .ptrrd i => s.ptrAt i.toNat
  | .btrd k => s.btAt k.toNat
  | .strd p => s.stripeAt p.toNat
  | .bordrd j => (s.bordAt j.toNat).setWidth 32
  | .mtfrd j => (s.mtfAt j.toNat).setWidth 32
  | .cmp i1 i2 depth => s.compare i1.toNat i2.toNat depth.toNat
  | .mtfb c => BitVec.ofNat 32 (rankIn s.mtfList (lowByte c))
  | .nop | .cfg _ | .clear | .csrwr _ _ | .clrerr | .blkwr _ _ | .blkwr4 _ _ | .ptrwr _ _ => 0
  | .btmark _ | .stwr _ _ | .stbuild | .rscnt | .rscum | .rssct | .rsort | .bigord => 0
  | .mtfinit | .mtfeob | .mtfword _ | .mtfblk => 0

/-- Every meaning is its checks and its effect. -/
theorem exec_eq_command (i : Instr) (s : State) :
    exec i s = command i (checksOf s i) (fun s => (effectOf s i, dataOf s i)) s := by
  cases i <;> rfl

/-- A check of a command never gives `ERR_FAULTED`: only the fault gate does (60_exceptions.md R246). -/
theorem firstError_checksOf_ne_faulted (s : State) (i : Instr) : firstError (checksOf s i) ≠ some .faulted := by
  have key : ∀ cs : List (Bool × Err), (∀ c ∈ cs, c.2 ≠ Err.faulted) → firstError cs ≠ some .faulted := by
    intro cs
    induction cs with
    | nil => simp
    | cons c cs ih =>
      obtain ⟨b, e⟩ := c
      intro h
      cases b
      · simpa [firstError_cons] using ih fun c hc => h c (List.mem_cons_of_mem _ hc)
      · simpa [firstError_cons] using h (true, e) List.mem_cons_self
  apply key
  cases i <;>
    simp [checksOf, State.needConfig, State.needLarge, State.needStripe, State.needStage, State.needMtf, outOfRange]

/-- Everything a command can do: it is refused in fault state, or a check of its own fails, or its effect happens. -/
theorem exec_cases {i : Instr} {s t : State} (h : exec i s = .next t) :
    (s.gated (opcode i) = true ∧ t = errored s 6 (opInfo (opcode i))) ∨
    (s.gated (opcode i) = false ∧ ∃ e, e ≠ .faulted ∧ firstError (checksOf s i) = some e ∧
      t = errored s e.code (opInfo (opcode i))) ∨
    (s.gated (opcode i) = false ∧ firstError (checksOf s i) = none ∧
      t = answered (effectOf s i) (dataOf s i)) := by
  rw [exec_eq_command] at h
  cases hg : s.gated (opcode i)
  · cases hc : firstError (checksOf s i) with
    | none =>
      rw [command_answers _ _ _ _ hg hc] at h
      injection h with h
      exact .inr (.inr ⟨rfl, rfl, h.symm⟩)
    | some e =>
      rw [command_errs _ _ _ _ _ hg hc] at h
      injection h with h
      exact .inr (.inl ⟨rfl, e, fun he => firstError_checksOf_ne_faulted s i (he ▸ hc), rfl, h.symm⟩)
  · rw [command_of_gated _ _ _ _ hg, raise_eq_errored, infoOf_eq_opInfo] at h
    injection h with h
    exact .inl ⟨rfl, h.symm⟩

/-- What an effect leaves alone whatever the command: `SEQ`, the channel and the responses; and tokens are only
appended. -/
theorem effectOf_frame (s : State) (i : Instr) :
    (effectOf s i).seq = s.seq ∧ (effectOf s i).cmds = s.cmds ∧ (effectOf s i).rsps = s.rsps ∧
      (effectOf s i).cap = s.cap ∧ ∃ ts, (effectOf s i).toks = s.toks ++ ts := by
  cases i <;> refine ⟨rfl, rfl, rfl, rfl, ?_⟩ <;>
    first
    | exact ⟨[], (List.append_nil _).symm⟩
    | exact ⟨_, rfl⟩

/-- What the rejection of a word leaves (60_exceptions.md R241, R246). -/
theorem rejectWord_eq (cw : CommandWord) (s : State) :
    rejectWord cw s =
      .next (errored s (if s.gated (opField cw) then 6 else 1) (infoField cw)) := by
  simp only [rejectWord, raise_eq_errored]
  split <;> rfl

/-- An invariant every step keeps, from what it must withstand: a word taken from the channel, an error, and the effect
of a command whose checks pass. -/
theorem step_keeps (Inv : State → Prop) (taken : ∀ s rest, Inv s → Inv { s with cmds := rest })
    (failed : ∀ (s : State) (e : Err) info, (e = .faulted → s.status.fault = true) → Inv s →
      Inv (errored s e.code info))
    (done : ∀ s i data, Inv s → firstError (checksOf s i) = none → Inv (answered (effectOf s i) data))
    {s t : State} (hs : Inv s) (h : step s = .next t) : Inv t := by
  have fault_of_gated : ∀ (s : State) op, s.gated op = true → s.status.fault = true := fun s op hg => by
    simp only [State.gated, Bool.and_eq_true] at hg
    exact hg.1
  obtain ⟨-, rfl⟩ | ⟨cw, rest, -, ⟨i, -, he⟩ | ⟨r, -, he⟩⟩ := step_cases h
  · exact hs
  · obtain ⟨hg, rfl⟩ | ⟨-, e, hne, -, rfl⟩ | ⟨-, hc, rfl⟩ := exec_cases he
    · exact failed _ .faulted _ (fun _ => fault_of_gated _ _ hg) (taken _ _ hs)
    · exact failed _ e _ (fun h => absurd h hne) (taken _ _ hs)
    · exact done _ i _ (taken _ _ hs) hc
  · rw [rejectWord_eq] at he
    injection he with he
    subst he
    split
    · next hg => exact failed _ .faulted _ (fun _ => fault_of_gated _ _ hg) (taken _ _ hs)
    · exact failed _ .illegal _ (by simp) (taken _ _ hs)

end Sys2Proof.Machine
end

