-- ==== Sys2Proof/Laws/Mtf.lean ====
section
/-! SUPPORT. The move-to-front encoder: what rank, update, flush and rank emission compute, and that the list keeps its
256 entries. -/

namespace Sys2Proof.Machine

open Sys2Proof.Safety

/-! ## Rank and update -/

theorem rankIn_le (l : List Byte) (c : Byte) : rankIn l c ≤ 255 := by
  have h := List.findIdx_le_length (xs := l.take 255) (p := fun x => x == c)
  rw [List.length_take] at h
  exact h.trans (Nat.min_le_left _ _)

/-- Nothing before the rank is the byte. -/
theorem ne_of_lt_rankIn (l : List Byte) (c : Byte) (j : Nat) (h : j < rankIn l c) (hj : j < l.length) : l[j] ≠ c := by
  have h2 := List.not_of_lt_findIdx (xs := l.take 255) (p := fun x => x == c) h
  rw [List.getElem_take] at h2
  simpa using h2

/-- The byte stands at its rank, in a list of 256 entries that holds it. -/
theorem getElem_rankIn (l : List Byte) (c : Byte) (hl : l.length = 256) (hc : c ∈ l) :
    l[rankIn l c]'(by have := rankIn_le l c; omega) = c := by
  by_cases hk : rankIn l c < 255
  · have h2 := List.findIdx_getElem (xs := l.take 255) (p := fun x => x == c)
      (w := by rw [List.length_take, hl]; exact hk)
    rw [List.getElem_take] at h2
    exact eq_of_beq h2
  · have h255 : rankIn l c = 255 := by have := rankIn_le l c; omega
    obtain ⟨j, hj, rfl⟩ := List.getElem_of_mem hc
    by_cases hj2 : j < 255
    · exact absurd rfl (ne_of_lt_rankIn l _ j (by omega) hj)
    · congr 1
      omega

theorem length_identityBytes : identityBytes.length = 256 := by simp [identityBytes]

/-- Every byte value stands in a permutation of the identity. -/
theorem mem_of_perm_identity (l : List Byte) (c : Byte) (h : l.Perm identityBytes) : c ∈ l := by
  rw [h.mem_iff, identityBytes, List.mem_map]
  exact ⟨c.toNat, List.mem_range.mpr c.isLt, by simp⟩

theorem length_moveToFront (l : List Byte) (c : Byte) (hl : l.length = 256) : (moveToFront l c).length = 256 := by
  have := rankIn_le l c
  simp [moveToFront, List.length_eraseIdx, hl]
  omega

/-- The update of R162, entry by entry. -/
theorem getElem?_moveToFront (l : List Byte) (c : Byte) (j : Nat) :
    (moveToFront l c)[j]? = if j = 0 then some c else if j ≤ rankIn l c then l[j - 1]? else l[j]? := by
  cases j with
  | zero => rfl
  | succ j =>
    rw [moveToFront, List.getElem?_cons_succ, List.getElem?_eraseIdx, if_neg (Nat.succ_ne_zero j)]
    by_cases h : j < rankIn l c
    · rw [if_pos h, if_pos (Nat.succ_le_of_lt h)]
      rfl
    · rw [if_neg h, if_neg (by omega)]

/-- The update only reorders a list that holds the byte. -/
theorem moveToFront_perm (l : List Byte) (c : Byte) (hl : l.length = 256) (hc : c ∈ l) :
    (moveToFront l c).Perm l := by
  have hk := rankIn_le l c
  have h := List.getElem_cons_eraseIdx_perm (l := l) (show rankIn l c < l.length by omega)
  rwa [getElem_rankIn l c hl hc] at h

/-! ## The list of a state -/

theorem length_mtfList (s : State) : s.mtfList.length = 256 := by simp [State.mtfList, Memory.slice]

theorem mtfList_eq_listOf (s : State) : s.mtfList = listOf s := by
  simp only [State.mtfList, Memory.slice, listOf, List.range_eq_range']
  rfl

theorem getElem?_mtfList (s : State) (j : Nat) (h : j < 256) : s.mtfList[j]? = some (s.mtfAt j) := by
  rw [mtfList_eq_listOf, listOf, List.getElem?_map, List.getElem?_range h]
  rfl

/-- The rank the machine computes is the one of R161. -/
theorem rankIn_eq_of_isRank (s : State) (c : Byte) (k : Nat) (h : IsRank s c k) : rankIn s.mtfList c = k := by
  obtain ⟨hk, hc, hn⟩ := h
  have hl := length_mtfList s
  have hat : ∀ j (hj : j < 256), s.mtfList[j]'(by omega) = s.mtfAt j := fun j hj => by
    have := getElem?_mtfList s j hj
    rw [List.getElem?_eq_getElem (by omega)] at this
    exact Option.some.inj this
  have hmem : c ∈ s.mtfList := by
    rw [← hc, ← hat k hk]
    exact List.getElem_mem _
  have hr := rankIn_le s.mtfList c
  have h1 := getElem_rankIn s.mtfList c hl hmem
  rw [hat _ (by omega)] at h1
  by_contra hne
  rcases Nat.lt_or_gt_of_ne hne with hlt | hgt
  · exact hn _ hlt h1
  · exact ne_of_lt_rankIn s.mtfList c k hgt (by omega) (by rw [hat k hk, hc])

/-- Reading the list after the encoder's results are stored. -/
theorem mtfAt_withEncoder (s : State) (e : Encoder) (hl : e.list.length = 256) (j : Nat) :
    (s.withEncoder e).mtfAt j = if j < 256 then e.list.getD j 0 else s.mtfAt j := by
  have h := Memory.find_load s.mtf 0 j e.list
  simp only [Nat.zero_le, true_and, Nat.zero_add, Nat.sub_zero, hl] at h
  show (Memory.find (Memory.load s.mtf 0 e.list) j).getD _ = _
  rw [h]
  split
  · next hj => simp [List.getD_eq_getElem?_getD, List.getElem?_eq_getElem (hl ▸ hj)]
  · rfl

theorem mtfList_withEncoder (s : State) (e : Encoder) (hl : e.list.length = 256) :
    (s.withEncoder e).mtfList = e.list := by
  apply List.ext_getElem?
  intro j
  by_cases hj : j < 256
  · rw [getElem?_mtfList _ j hj, mtfAt_withEncoder s e hl, if_pos hj, List.getD_eq_getElem?_getD,
      List.getElem?_eq_getElem (by omega)]
    rfl
  · rw [List.getElem?_eq_none (by have := length_mtfList (s.withEncoder e); omega),
      List.getElem?_eq_none (by omega)]

theorem length_encodeByte_list (e : Encoder) (c : Byte) (hl : e.list.length = 256) :
    (encodeByte e c).list.length = 256 := by
  simp only [encodeByte]
  split <;> exact length_moveToFront _ _ hl

theorem encodeByte_list (e : Encoder) (c : Byte) : (encodeByte e c).list = moveToFront e.list c := by
  simp only [encodeByte]
  split <;> rfl

theorem isPermutation_iff (s : State) : IsPermutation s.mtfAt ↔ s.mtfList.Perm identityBytes := by
  rw [mtfList_eq_listOf]
  rfl

/-- The per-byte step keeps the list a permutation (10_state.md R44 (a)). -/
theorem encodeByte_perm (e : Encoder) (c : Byte) (h : e.list.Perm identityBytes) :
    (encodeByte e c).list.Perm identityBytes := by
  rw [encodeByte_list]
  exact (moveToFront_perm _ _ (h.length_eq.trans length_identityBytes) (mem_of_perm_identity _ _ h)).trans h

/-- So do all the bytes of a block. -/
theorem foldl_encodeByte_perm (cs : List Byte) (e : Encoder) (h : e.list.Perm identityBytes) :
    (cs.foldl encodeByte e).list.Perm identityBytes := by
  induction cs generalizing e with
  | nil => exact h
  | cons c cs ih => exact ih _ (encodeByte_perm e c h)

/-- Tokens emitted before a byte stay in front: the step only appends. -/
theorem encodeByte_toks (e : Encoder) (c : Byte) :
    (encodeByte e c).toks = e.toks ++ (encodeByte { e with toks := [] } c).toks := by
  simp only [encodeByte]
  split <;> simp

/-- The initialised list, entry by entry (R160). -/
theorem mtfAt_initList (s : State) (j : Nat) :
    s.initList.mtfAt j = if j < 256 then BitVec.ofNat 8 j else s.mtfAt j := by
  have h := Memory.find_load s.mtf 0 j identityBytes
  simp only [length_identityBytes, Nat.zero_le, true_and, Nat.zero_add, Nat.sub_zero] at h
  show (Memory.find (Memory.load s.mtf 0 identityBytes) j).getD _ = _
  rw [h]
  split
  · next hj => simp [identityBytes, List.getElem?_range hj]
  · rfl

theorem isPermutation_initList (s : State) : IsPermutation s.initList.mtfAt := by
  rw [IsPermutation, List.map_congr_left fun j hj => (mtfAt_initList s j).trans (if_pos (List.mem_range.mp hj))]

/-! ## Tokens -/

/-- The binary digits of `v` below its leading 1, from the least significant. -/
theorem runDigits_eq (fuel : Nat) :
    ∀ v, 1 ≤ v → v ≤ 2 ^ fuel →
      (runDigits fuel v).map runToken = (Nat.digits 2 v).dropLast.map (BitVec.ofNat 16) := by
  induction fuel with
  | zero =>
    intro v h1 h2
    have : v = 1 := by simpa using Nat.le_antisymm (by simpa using h2) h1
    subst this
    decide
  | succ fuel ih =>
    intro v h1 h2
    by_cases hv : v ≤ 1
    · have : v = 1 := by omega
      subst this
      simp [runDigits]
    · rw [runDigits, if_neg hv, Nat.digits_def' (by decide) (by omega)]
      have hne : Nat.digits 2 (v / 2) ≠ [] := by
        rw [Ne, Nat.digits_eq_nil_iff_eq_zero]
        omega
      rw [List.dropLast_cons_of_ne_nil hne, List.map_cons, List.map_cons, ih (v / 2) (by omega) (by
        rw [Nat.pow_succ] at h2; omega)]
      congr 1
      rcases Nat.mod_two_eq_zero_or_one v with h | h <;> rw [h] <;> decide

/-- The flush emits the run code of R163. -/
theorem flushTokens_eq_runTokens (zrun : Word) : flushTokens zrun = runTokens zrun :=
  runDigits_eq 32 _ (by omega) (by have := zrun.isLt; omega)

theorem log2_eq_log (k : Nat) : Nat.log2 k = Nat.log 2 k := Nat.log2_eq_log_two

/-- A nonzero rank is emitted as R164 says. -/
theorem rankTokens_eq_tokensOfRank (k : Nat) (h : 1 ≤ k) (h2 : k ≤ 255) : rankTokens k = tokensOfRank k := by
  have hc : Nat.log 2 k < 8 := Nat.log_lt_of_lt_pow (by omega) (by omega)
  have hlo : 2 ^ Nat.log 2 k ≤ k := Nat.pow_log_le_self 2 (by omega)
  have hhi : k < 2 ^ (Nat.log 2 k + 1) := Nat.lt_pow_succ_log_self (by decide) k
  have cls : ∀ c < 8, classToken c = BitVec.ofNat 16 (0x0002 + c) := by decide
  have off : ∀ c < 8, ∀ d < 128, offsetToken c d = BitVec.ofNat 16 (0x1000 + 0x100 * c + d) := by decide
  simp only [rankTokens, tokensOfRank, log2_eq_log]
  rw [cls _ hc, off _ hc]
  have : 2 ^ Nat.log 2 k ≤ 128 := by
    have := Nat.pow_le_pow_right (n := 2) (by decide) (show Nat.log 2 k ≤ 7 by omega)
    simpa using this
  rw [Nat.pow_succ] at hhi
  omega

end Sys2Proof.Machine
end

