-- ==== Sys2Proof/Laws/PerInstr.lean ====
section
/-! SUPPORT. For each command: what the fields of its encoding are (30_encoding.md R90 to R94). -/

namespace Sys2Proof.Laws.EncodedFields

/-- The opcode field is the command's opcode, `RSV` is zero, and the operand fields are its operands. -/
def Statement (i : Instr) : Prop :=
  opField (encode i) = opcode i ∧ rsvField (encode i) = 0 ∧ aField (encode i) = operandA i ∧
    bField (encode i) = operandB i ∧ cField (encode i) = operandC i

/-- The one fact behind every case. -/
theorem of_encode (i : Instr) : Statement i := by simp [Statement, encode]

theorem nop : Statement .nop := of_encode _
theorem cfg (n : Word) : Statement (.cfg n) := of_encode _
theorem clear : Statement .clear := of_encode _
theorem csrrd (r : Word) : Statement (.csrrd r) := of_encode _
theorem csrwr (r v : Word) : Statement (.csrwr r v) := of_encode _
theorem clrerr : Statement .clrerr := of_encode _
theorem blkwr (a v : Word) : Statement (.blkwr a v) := of_encode _
theorem blkwr4 (a w : Word) : Statement (.blkwr4 a w) := of_encode _
theorem blkrd (a : Word) : Statement (.blkrd a) := of_encode _
theorem ptrrd (i : Word) : Statement (.ptrrd i) := of_encode _
theorem ptrwr (i v : Word) : Statement (.ptrwr i v) := of_encode _
theorem btrd (k : Word) : Statement (.btrd k) := of_encode _
theorem btmark (k : Word) : Statement (.btmark k) := of_encode _
theorem strd (p : Word) : Statement (.strd p) := of_encode _
theorem stwr (p w : Word) : Statement (.stwr p w) := of_encode _
theorem bordrd (j : Word) : Statement (.bordrd j) := of_encode _
theorem mtfrd (j : Word) : Statement (.mtfrd j) := of_encode _
theorem stbuild : Statement .stbuild := of_encode _
theorem cmp (i1 i2 depth : Word) : Statement (.cmp i1 i2 depth) := of_encode _
theorem rscnt : Statement .rscnt := of_encode _
theorem rscum : Statement .rscum := of_encode _
theorem rssct : Statement .rssct := of_encode _
theorem rsort : Statement .rsort := of_encode _
theorem bigord : Statement .bigord := of_encode _
theorem mtfinit : Statement .mtfinit := of_encode _
theorem mtfb (c : Word) : Statement (.mtfb c) := of_encode _
theorem mtfeob : Statement .mtfeob := of_encode _
theorem mtfword (w : Word) : Statement (.mtfword w) := of_encode _
theorem mtfblk : Statement .mtfblk := of_encode _

end Sys2Proof.Laws.EncodedFields
end

