-- ==== Sys2Proof/Laws/Presort.lean ====
section
/-! SUPPORT. The presort stages word by word: what counting, cumulating and scattering leave in `BT` and `PTR`. -/

namespace Sys2Proof.Machine

open Sys2Proof.Safety

/-! ## Counting (41_presort.md R141) -/

theorem read_bumpCount (bt : Memory 32) (k x : Nat) :
    Memory.read Config.btInit (bumpCount bt k) x =
      if x = k then Memory.read Config.btInit bt k + 1 else Memory.read Config.btInit bt x := Memory.read_put ..

/-- Counting a list of rotations adds to each word the number of those with its key. -/
theorem read_foldl_bumpCount (key : Nat → Nat) (x : Nat) :
    ∀ (l : List Nat) (bt : Memory 32),
      Memory.read Config.btInit (l.foldl (fun bt i => bumpCount bt (key i)) bt) x =
        Memory.read Config.btInit bt x + BitVec.ofNat 32 (l.countP fun i => key i == x) := by
  intro l
  induction l with
  | nil => intro bt; simp
  | cons i l ih =>
    intro bt
    rw [List.foldl_cons, ih, read_bumpCount, List.countP_cons]
    by_cases h : key i = x
    · subst h
      simp [BitVec.ofNat_add, BitVec.add_assoc, BitVec.add_comm 1#32]
    · rw [if_neg (Ne.symm h)]
      simp [h]

/-- The rotations counted with the machine's key are those of R140. -/
theorem countP_key_eq_rotationsWith (s : State) (p : Nat → Bool) :
    (List.range s.blksz.toNat).countP (fun i => p (s.key i)) = rotationsWith s p := by
  refine List.countP_congr fun i hi => ?_
  rw [key_eq_keyOf s i (List.mem_range.mp hi)]

/-- Every word of `BT` after stage 1. -/
theorem btAt_countKeys (s : State) (x : Nat) :
    s.countKeys.btAt x =
      if x < 65536 then BitVec.ofNat 32 (rotationsWith s (fun k => k == x))
      else if x = 65536 then 0 else s.btAt x := by
  have hz : Memory.read Config.btInit (Memory.load s.bt 0 (List.replicate btLen 0)) x =
      if x ≤ 65536 then 0 else s.btAt x := by
    rw [Memory.read, Memory.find_load, List.length_replicate, btLen]
    by_cases h : x ≤ 65536
    · rw [if_pos (by omega), if_pos h, Nat.sub_zero, List.getElem?_replicate, if_pos (by omega)]
      rfl
    · rw [if_neg (by omega), if_neg h]
      rfl
  have hc := countP_key_eq_rotationsWith s (fun k => k == x)
  have hr := read_foldl_bumpCount s.key x (List.range s.size) (Memory.load s.bt 0 (List.replicate btLen 0))
  show Memory.read Config.btInit (List.foldl _ _ _) x = _
  rw [hr, hz, hc]
  by_cases h : x < 65536
  · simp [h, show x ≤ 65536 by omega]
  · have h0 : rotationsWith s (fun k => k == x) = 0 := by
      rw [← hc, List.countP_eq_zero]
      intro i _
      have := key_lt s i
      simp only [beq_iff_eq]
      omega
    rw [if_neg h, h0]
    by_cases h2 : x = 65536
    · simp [h2]
    · simp [h2, show ¬ x ≤ 65536 by omega]

/-! ## Cumulating (R142) -/

theorem length_runningSums (acc : Word) (vs : List Word) : (runningSums acc vs).length = vs.length := by
  induction vs generalizing acc with
  | nil => rfl
  | cons v vs ih => simp [runningSums, ih]

/-- A running sum is the sum of the words up to its place. -/
theorem getElem?_runningSums (acc : Word) (vs : List Word) (k : Nat) (h : k < vs.length) :
    (runningSums acc vs)[k]? = some (acc + (vs.take (k + 1)).sum) := by
  induction vs generalizing acc k with
  | nil => simp at h
  | cons v vs ih =>
    cases k with
    | zero => simp [runningSums]
    | succ k =>
      rw [runningSums, List.getElem?_cons_succ, ih _ _ (by simpa using h)]
      simp [BitVec.add_assoc]

/-- Every word of `BT` after stage 2. -/
theorem btAt_cumulate (s : State) (x : Nat) :
    s.cumulate.btAt x = if x ≤ 65536 then ((List.range (x + 1)).map s.btAt).sum else s.btAt x := by
  show (Memory.find (Memory.load s.bt 0 (runningSums 0 (Memory.slice Config.btInit s.bt 0 btLen))) x).getD _ = _
  have hl : (Memory.slice Config.btInit s.bt 0 btLen).length = btLen := by simp [Memory.slice]
  rw [Memory.find_load, length_runningSums, hl, btLen]
  by_cases h : x ≤ 65536
  · rw [if_pos (by omega), if_pos h, Nat.sub_zero, ← btLen, getElem?_runningSums _ _ _ (by rw [hl, btLen]; omega)]
    rw [Memory.slice, ← List.map_take, List.range_eq_range', List.take_range'_of_length_ge (by rw [btLen]; omega)]
    rw [Option.getD_some]
    exact BitVec.zero_add _
  · rw [if_neg (by omega), if_neg h]
    rfl

/-! ## Scattering (R143) -/

/-- The pair of memories after the rotations of `l` are scattered, the last of `l` first. -/
def scatterAll (key : Nat → Nat) (l : List Nat) (mems : Memory 32 × Memory 32) : Memory 32 × Memory 32 :=
  l.foldr (fun i mems => scatterOne (key i) i mems) mems

theorem scatter_eq (s : State) :
    s.scatter = { s with
      bt := (scatterAll s.key (List.range s.size) (s.bt, s.ptr)).1
      ptr := (scatterAll s.key (List.range s.size) (s.bt, s.ptr)).2
      status := s.status.afterScatter } := rfl

/-- Scattering takes from each word the number of rotations with its key. -/
theorem read_scatterAll_bt (key : Nat → Nat) (x : Nat) (mems : Memory 32 × Memory 32) (l : List Nat) :
    Memory.read Config.btInit (scatterAll key l mems).1 x =
      Memory.read Config.btInit mems.1 x - BitVec.ofNat 32 (l.countP fun i => key i == x) := by
  induction l with
  | nil => simp [scatterAll]
  | cons i l ih =>
    show Memory.read Config.btInit (Memory.put (scatterAll key l mems).1 (key i)
      (Memory.read Config.btInit (scatterAll key l mems).1 (key i) - 1)) x = _
    rw [Memory.read_put, List.countP_cons]
    by_cases h : x = key i
    · subst h
      rw [if_pos rfl, ih]
      simp [BitVec.ofNat_add, BitVec.sub_sub]
    · rw [if_neg h, ih]
      simp [Ne.symm h]

/-- The place rotation `i` goes to, when those of `later` went before it. -/
def placeOf (key : Nat → Nat) (bt : Memory 32) (i : Nat) (later : List Nat) : Nat :=
  (Memory.read Config.btInit bt (key i) - BitVec.ofNat 32 ((i :: later).countP fun j => key j == key i)).toNat

/-- One more rotation scattered: it goes to its place, every other element of `PTR` stays. -/
theorem read_scatterAll_ptr (key : Nat → Nat) (x i : Nat) (mems : Memory 32 × Memory 32) (l : List Nat) :
    Memory.read Config.ptrInit (scatterAll key (i :: l) mems).2 x =
      if x = placeOf key mems.1 i l then BitVec.ofNat 32 i
      else Memory.read Config.ptrInit (scatterAll key l mems).2 x := by
  have hp : (Memory.read Config.btInit (scatterAll key l mems).1 (key i) - 1).toNat = placeOf key mems.1 i l := by
    rw [read_scatterAll_bt, placeOf, List.countP_cons]
    simp [BitVec.ofNat_add, BitVec.sub_sub]
  show Memory.read Config.ptrInit (Memory.put (scatterAll key l mems).2
    (Memory.read Config.btInit (scatterAll key l mems).1 (key i) - 1).toNat _) x = _
  rw [Memory.read_put, hp]

/-- An element no rotation goes to stays. -/
theorem read_scatterAll_ptr_of_ne (key : Nat → Nat) (x : Nat) (mems : Memory 32 × Memory 32) (l : List Nat)
    (h : ∀ i later, (i :: later) <:+ l → x ≠ placeOf key mems.1 i later) :
    Memory.read Config.ptrInit (scatterAll key l mems).2 x = Memory.read Config.ptrInit mems.2 x := by
  induction l with
  | nil => rfl
  | cons i l ih =>
    rw [read_scatterAll_ptr, if_neg (h i l List.suffix_rfl)]
    exact ih fun j later hj => h j later (hj.trans (List.suffix_cons i l))

/-- A rotation stays where it went, when no rotation scattered after it goes to the same place. -/
theorem read_scatterAll_ptr_of_mem (key : Nat → Nat) (mems : Memory 32 × Memory 32) (l : List Nat) (i : Nat)
    (later : List Nat) (hs : (i :: later) <:+ l)
    (h : ∀ j mid, (j :: mid) <:+ l → (i :: later) <:+ mid → placeOf key mems.1 i later ≠ placeOf key mems.1 j mid) :
    Memory.read Config.ptrInit (scatterAll key l mems).2 (placeOf key mems.1 i later) = BitVec.ofNat 32 i := by
  induction l with
  | nil => simp at hs
  | cons j l ih =>
    rw [read_scatterAll_ptr]
    rcases List.suffix_cons_iff.mp hs with heq | hsl
    · injection heq with h1 h2
      subst h1 h2
      rw [if_pos rfl]
    · rw [if_neg (h j l List.suffix_rfl hsl)]
      exact ih hsl fun j' mid hj hm => h j' mid (hj.trans (List.suffix_cons j l)) hm

end Sys2Proof.Machine
end

