-- ==== Sys2Proof/Laws/Stripe.lean ====
section
/-! SUPPORT. The stripe word by word after a build and after a tag, and the compare loop as the order of the first
unequal pair. -/

namespace Sys2Proof.Machine

open Sys2Proof.Safety

/-! ## Writers of the stripe -/

/-- Every word of `STRIPE` after a build (40_stripe_compare.md R121). -/
theorem stripeAt_buildStripe (s : State) (hN : 64 ≤ s.blksz.toNat) (x : Nat) :
    s.buildStripe.stripeAt x =
      if x < s.blksz.toNat then packed s x
      else if x < s.blksz.toNat + 64 then packed s (x - s.blksz.toNat)
      else s.stripeAt x := by
  have hb : ∀ y, Memory.read Config.stripeInit (Memory.load s.stripe 0 ((List.range s.size).map s.packedWord)) y =
      if y < s.blksz.toNat then packed s y else s.stripeAt y := by
    intro y
    by_cases h : y < s.blksz.toNat
    · rw [Memory.read_load_of_mem _ _ _ _ _ (Nat.zero_le y) (by simpa using h), if_pos h]
      simp only [List.getElem_map, List.getElem_range, Nat.sub_zero]
      exact packedWord_eq_packed s y h
    · rw [Memory.read_load_of_not_mem _ _ _ _ _ (by right; simpa using h), if_neg h]
      rfl
  show Memory.read Config.stripeInit (Memory.load _ s.size (Memory.slice Config.stripeInit _ 0 64)) x = _
  by_cases h1 : s.blksz.toNat ≤ x ∧ x < s.blksz.toNat + 64
  · rw [Memory.read_load_of_mem _ _ _ _ _ h1.1 (by rw [Memory.length_slice]; exact (by omega : x - s.blksz.toNat < 64)),
      Memory.getElem_slice, hb, Nat.zero_add, if_pos (by omega), if_neg (by omega), if_pos h1.2]
  · rw [Memory.read_load_of_not_mem _ _ _ _ _ (by rw [Memory.length_slice]; simp only [State.size]; omega), hb]
    split
    · rfl
    · rw [if_neg (by omega)]

/-- Every word of `STRIPE` after a tag (43_memory_access.md R198). -/
theorem stripeAt_tagStripe (s : State) (p : Nat) (w : Word) (x : Nat) :
    (s.tagStripe p w).stripeAt x =
      if x = p ∨ (p < 64 ∧ x = s.blksz.toNat + p) then w else s.stripeAt x := by
  show Memory.read Config.stripeInit (if p < 64 then _ else _) x = _
  by_cases hp : p < 64
  · rw [if_pos hp, Memory.read_put, Memory.read_put]
    by_cases h1 : x = s.blksz.toNat + p
    · rw [if_pos h1, if_pos (.inr ⟨hp, h1⟩)]
    · rw [if_neg h1]
      by_cases h2 : x = p
      · rw [if_pos h2, if_pos (.inl h2)]
      · rw [if_neg h2, if_neg (by tauto)]
        rfl
  · rw [if_neg hp, Memory.read_put]
    by_cases h2 : x = p
    · rw [if_pos h2, if_pos (.inl h2)]
    · rw [if_neg h2, if_neg (by tauto)]
      rfl

/-! ## The compare loop (R123) -/

/-- The pair of words `CMP` reads in place `p`, on sides that start at `a` and `b`. -/
def pairAt (s : State) (a b p : Nat) : Word × Word := (s.stripeAt (pairIndex s a p), s.stripeAt (pairIndex s b p))

theorem stripePairs_eq (s : State) (a b : Nat) :
    stripePairs s a b = (List.range' 0 (16 * ((s.blksz.toNat + 63) / 64))).map (pairAt s a b) := by
  rw [stripePairs, List.range_eq_range']
  rfl

theorem nextBatch_eq (s : State) (hN : 64 ≤ s.blksz.toNat) (a q : Nat) :
    s.nextBatch ((a + 64 * q) % s.blksz.toNat) = (a + 64 * (q + 1)) % s.blksz.toNat := by
  have hlt : (a + 64 * q) % s.blksz.toNat < s.blksz.toNat := Nat.mod_lt _ (by omega)
  rw [show a + 64 * (q + 1) = (a + 64 * q) + 64 by omega, Nat.add_mod (a + 64 * q) 64]
  generalize (a + 64 * q) % s.blksz.toNat = r at hlt
  simp only [State.nextBatch, State.size]
  by_cases h : s.blksz.toNat ≤ r + 64
  · rw [if_pos h]
    by_cases h64 : s.blksz.toNat = 64
    · rw [h64, Nat.mod_self, Nat.add_zero, Nat.mod_eq_of_lt (by omega)]
      omega
    · rw [Nat.mod_eq_of_lt (show 64 < s.blksz.toNat by omega), Nat.mod_eq_sub_mod h, Nat.mod_eq_of_lt (by omega)]
  · rw [if_neg h, Nat.mod_eq_of_lt (show 64 < s.blksz.toNat by omega), Nat.mod_eq_of_lt (by omega)]

/-- One batch looks at its 16 pairs in order. -/
theorem firstUnequal_eq (s : State) (a b q : Nat) :
    s.firstUnequal ((a + 64 * q) % s.blksz.toNat) ((b + 64 * q) % s.blksz.toNat) =
      ((List.range' (16 * q) 16).map (pairAt s a b)).find? (fun p => p.1 != p.2) := by
  have hp : ∀ k < 16, pairAt s a b (16 * q + k) =
      (s.stripeAt ((a + 64 * q) % s.blksz.toNat + 4 * k), s.stripeAt ((b + 64 * q) % s.blksz.toNat + 4 * k)) := by
    intro k hk
    simp only [pairAt, pairIndex]
    rw [show (16 * q + k) / 16 = q by omega, show (16 * q + k) % 16 = k by omega]
  have hl : (List.range' (16 * q) 16).map (pairAt s a b) = (List.range 16).map fun k =>
      (s.stripeAt ((a + 64 * q) % s.blksz.toNat + 4 * k), s.stripeAt ((b + 64 * q) % s.blksz.toNat + 4 * k)) := by
    rw [List.range'_eq_map_range, List.map_map]
    exact List.map_congr_left fun k hk => hp k (List.mem_range.mp hk)
  rw [hl, State.firstUnequal]
  generalize List.range 16 = l
  induction l with
  | nil => rfl
  | cons k l ih =>
    simp only [List.findSome?_cons, List.map_cons, List.find?_cons]
    by_cases h : s.stripeAt ((a + 64 * q) % s.blksz.toNat + 4 * k) = s.stripeAt ((b + 64 * q) % s.blksz.toNat + 4 * k)
    · simpa [h] using ih
    · simp [h, bne_iff_ne.mpr h]

theorem firstPairOrder_append (l m : List (Word × Word)) :
    firstPairOrder (l ++ m) = match l.find? (fun p => p.1 != p.2) with
      | some p => if p.1.toNat < p.2.toNat then 0xFFFFFFFF else 0x00000001
      | none => firstPairOrder m := by
  rw [firstPairOrder, List.find?_append]
  cases l.find? (fun p => p.1 != p.2) <;> rfl

/-- The loop from batch `q` on, with fuel for the batches left. -/
theorem compareLoop_eq (s : State) (hN : 64 ≤ s.blksz.toNat) (a b : Nat) :
    ∀ fuel q, q < (s.blksz.toNat + 63) / 64 → (s.blksz.toNat + 63) / 64 ≤ q + fuel →
      s.compareLoop fuel ((a + 64 * q) % s.blksz.toNat) ((b + 64 * q) % s.blksz.toNat) (64 * q) =
        firstPairOrder ((List.range' (16 * q) (16 * ((s.blksz.toNat + 63) / 64 - q))).map (pairAt s a b)) := by
  intro fuel
  induction fuel with
  | zero => intro q h1 h2; omega
  | succ fuel ih =>
    intro q h1 h2
    obtain ⟨d, hd⟩ : ∃ d, (s.blksz.toNat + 63) / 64 = q + (d + 1) :=
      ⟨(s.blksz.toNat + 63) / 64 - q - 1, by omega⟩
    rw [hd, show q + (d + 1) - q = d + 1 by omega, show 16 * (d + 1) = 16 + 16 * d by omega,
      ← List.range'_append_1, List.map_append, firstPairOrder_append, ← firstUnequal_eq, State.compareLoop]
    cases hf : s.firstUnequal ((a + 64 * q) % s.blksz.toNat) ((b + 64 * q) % s.blksz.toNat) with
    | some p => rfl
    | none =>
      simp only [State.size]
      by_cases hend : s.blksz.toNat ≤ 64 * q + 64
      · have : d = 0 := by omega
        subst this
        rw [if_pos hend]
        rfl
      · have ih := ih (q + 1) (by omega) (by omega)
        rw [hd, show q + (d + 1) - (q + 1) = d by omega] at ih
        rw [if_neg hend, nextBatch_eq s hN, nextBatch_eq s hN, show 16 * q + 16 = 16 * (q + 1) by omega, ← ih]
        rfl

/-- The result of `CMP` is the order of the first unequal pair. -/
theorem compare_eq_firstPairOrder (s : State) (hN : 64 ≤ s.blksz.toNat) (i1 i2 depth : Nat) :
    s.compare i1 i2 depth = firstPairOrder (stripePairs s ((i1 + depth) % s.blksz.toNat)
      ((i2 + depth) % s.blksz.toNat)) := by
  have h := compareLoop_eq s hN ((i1 + depth) % s.blksz.toNat) ((i2 + depth) % s.blksz.toNat)
    (s.blksz.toNat / 64 + 1) 0 (by omega) (by omega)
  simp only [Nat.mul_zero, Nat.add_zero, Nat.mod_mod, Nat.sub_zero] at h
  rw [stripePairs_eq, ← h]
  rfl

end Sys2Proof.Machine
end

