-- ==== Sys2Proof/Tests/Slice0.lean ====
section
/-! SUPPORT. Tests, with results taken from spec/ (the examples of the rules and 95_test_vectors.md), and a witness for
the hypotheses of each statement that has some. -/

namespace Sys2Proof.Tests

open Sys2Proof.Machine Sys2Proof.Safety

/-! ## WellFormed refuses an ill-formed term of each check (60_exceptions.md R243, R253) -/

theorem test_csrrd_number_is_bounded : (Instr.csrrd 10).wellFormed = false ∧ (Instr.csrrd 9).wellFormed = true := by
  decide

theorem test_csrwr_number_is_ctrl : (Instr.csrwr 2 5).wellFormed = false ∧ (Instr.csrwr 4 5).wellFormed = true := by
  decide

theorem test_blkwr_value_is_a_byte :
    (Instr.blkwr 0 256).wellFormed = false ∧ (Instr.blkwr 0 255).wellFormed = true := by decide

theorem test_btrd_index_is_bounded :
    (Instr.btrd 65537).wellFormed = false ∧ (Instr.btrd 65536).wellFormed = true := by decide

theorem test_btmark_index_is_bounded :
    (Instr.btmark 65536).wellFormed = false ∧ (Instr.btmark 65535).wellFormed = true := by decide

theorem test_bordrd_index_is_bounded :
    (Instr.bordrd 256).wellFormed = false ∧ (Instr.bordrd 255).wellFormed = true := by decide

theorem test_mtfrd_index_is_bounded :
    (Instr.mtfrd 256).wellFormed = false ∧ (Instr.mtfrd 255).wellFormed = true := by decide

theorem test_mtfb_operand_is_a_byte :
    (Instr.mtfb 256).wellFormed = false ∧ (Instr.mtfb 255).wellFormed = true := by decide

/-! ## Words written out from the encodings (30_encoding.md R90, R94 and the words of the command rules) -/

theorem test_decode_system :
    decode 0x00000000000000000000000000000000 = .ok .nop ∧
    decode 0x01000000000000000000000600000000 = .ok (.cfg 6) ∧
    decode 0x02000000000000000000000000000000 = .ok .clear ∧
    decode 0x03000000000000000000000A00000000 = .ok (.csrrd 10) ∧
    decode 0x04000000000000000000000400000001 = .ok (.csrwr 4 1) ∧
    decode 0x05000000000000000000000000000000 = .ok .clrerr := by decide

theorem test_decode_memory_access :
    decode 0x10000000000000000000000000000062 = .ok (.blkwr 0 0x62) ∧
    decode 0x11000000000000000000000462616E61 = .ok (.blkwr4 4 0x62616E61) ∧
    decode 0x12000000000000000000000200000000 = .ok (.blkrd 2) ∧
    decode 0x13000000000000000000000500000000 = .ok (.ptrrd 5) ∧
    decode 0x14000000000000000000000100000003 = .ok (.ptrwr 1 3) ∧
    decode 0x15000000000000000001000000000000 = .ok (.btrd 65536) ∧
    decode 0x16000000000000000000414100000000 = .ok (.btmark 0x4141) ∧
    decode 0x17000000000000000000003E00000000 = .ok (.strd 62) ∧
    decode 0x18000000000000000000000341410007 = .ok (.stwr 3 0x41410007) ∧
    decode 0x1900000000000000000000FD00000000 = .ok (.bordrd 253) ∧
    decode 0x1A000000000000000000000300000000 = .ok (.mtfrd 3) := by decide

theorem test_decode_stripe_and_compare :
    decode 0x20000000000000000000000000000000 = .ok .stbuild ∧
    decode 0x21000000000000070000000500000032 = .ok (.cmp 5 50 7) := by decide

theorem test_decode_presort :
    decode 0x30000000000000000000000000000000 = .ok .rscnt ∧
    decode 0x31000000000000000000000000000000 = .ok .rscum ∧
    decode 0x32000000000000000000000000000000 = .ok .rssct ∧
    decode 0x33000000000000000000000000000000 = .ok .rsort ∧
    decode 0x34000000000000000000000000000000 = .ok .bigord := by decide

theorem test_decode_move_to_front :
    decode 0x40000000000000000000000000000000 = .ok .mtfinit ∧
    decode 0x41000000000000000000006E00000000 = .ok (.mtfb 0x6E) ∧
    decode 0x42000000000000000000000000000000 = .ok .mtfeob ∧
    decode 0x4300000000000000FFFFFFFF00000000 = .ok (.mtfword 0xFFFFFFFF) ∧
    decode 0x44000000000000000000000000000000 = .ok .mtfblk := by decide

/-- One word of each family bit by bit, in the order `OP`, `RSV`, `C`, `A`, `B` (R90). -/
theorem test_decode_bits :
    decode (0b00000100#8 ++ 0b000000000000000000000000#24 ++ 0b00000000000000000000000000000000#32 ++
      0b00000000000000000000000000000100#32 ++ 0b00000000000000000000000000000001#32) = .ok (.csrwr 4 1) ∧
    decode (0b00010100#8 ++ 0b000000000000000000000000#24 ++ 0b00000000000000000000000000000000#32 ++
      0b00000000000000000000000000000110#32 ++ 0b11011110101011011011111011101111#32) =
        .ok (.ptrwr 6 0xDEADBEEF) ∧
    decode (0b00100001#8 ++ 0b000000000000000000000000#24 ++ 0b11111111111111111111111111111111#32 ++
      0b00000000000000000000000000000000#32 ++ 0b00000000000000000000000000101101#32) =
        .ok (.cmp 0 45 0xFFFFFFFF) ∧
    decode (0b00110010#8 ++ 0b000000000000000000000000#24 ++ 0b00000000000000000000000000000000#32 ++
      0b00000000000000000000000000000000#32 ++ 0b00000000000000000000000000000000#32) = .ok .rssct ∧
    decode (0b01000001#8 ++ 0b000000000000000000000000#24 ++ 0b00000000000000000000000000000000#32 ++
      0b00000000000000000000000001101110#32 ++ 0b00000000000000000000000000000000#32) = .ok (.mtfb 110) := by decide

/-- The illegal words of V-SYS-5, by the name of their fault. -/
theorem test_decode_rejects :
    decode 0xFF000000000000000000000000000000 = .error (.undefinedOpcode 0xFF) ∧
    decode 0x00000001000000000000000000000000 = .error (.reservedNotZero 0x00) ∧
    decode 0x12000000000000000000000000000001 = .error (.unusedOperandNotZero 0x12) ∧
    decode 0x20000000000000010000000000000000 = .error (.unusedOperandNotZero 0x20) := by decide

/-! ## States for the tests -/

/-- The reset state with the `NMAX = 4096` of the test vectors. -/
def fresh : State := { State.reset with cap := 4096 }

/-- After `CFG n` (44_system.md R221). -/
def sized (n : Word) : State :=
  { fresh with
    blksz := n
    status := { Status.reset with cfgValid := true, mtfValid := true }
    mtf := Memory.load [] 0 identityBytes }

/-- The block `banana`. -/
def banana : State := { sized 6 with block := Memory.load [] 0 [0x62, 0x61, 0x6E, 0x61, 0x6E, 0x61] }

/-- A state with another presort stage. -/
def staged (st : RsStage) (s : State) : State := { s with status := { s.status with rsStage := st } }

/-- `T64`, the 64-byte block of the test vectors, as its sixteen words (program P2). -/
def textWords : List Word :=
  [0x74686520, 0x71756963, 0x6B206272, 0x6F776E20, 0x666F7820, 0x6A756D70, 0x73206F76, 0x65722074] ++
  [0x6865206C, 0x617A7920, 0x646F673B, 0x20746865, 0x20717569, 0x636B2062, 0x726F776E, 0x20636174]

/-- The block `T64`. -/
def text : State := { sized 64 with block := Memory.load [] 0 (textWords.flatMap bytesOf) }

/-- A block of 64 bytes `0x41` with its pure stripe. -/
def plain : State :=
  { sized 64 with
    status := { Status.reset with cfgValid := true, mtfValid := true, stripeValid := true }
    block := Memory.load [] 0 (List.replicate 64 0x41)
    stripe := Memory.load [] 0 (List.replicate 128 0x41414141) }

/-- The state after the block takes one word. -/
def ran (cw : CommandWord) (s : State) : State :=
  match step { s with cmds := [cw] } with
  | .next t => t
  | .fault f => nomatch f
  | .refused _ => s

/-! ## Single steps -/

/-- V-SYS-1, program P4: a step from reset with a word placed runs it. -/
theorem test_step_from_reset :
    (match step (State.reset.withFetchWord 128 0x01000000000000000000000600000000) with
      | .next t => some (t.blksz, t.status.pack, t.rsps, t.seq)
      | .fault _ => none
      | .refused _ => none) = some (6, 0x41, [0x0000000000000000], 1) := by decide

/-- 44_system.md R220: `NOP` responds and counts. -/
theorem test_nop : (ran 0x00000000000000000000000000000000 fresh).rsps = [0x0000000000000000] ∧
    (ran 0x00000000000000000000000000000000 { fresh with seq := 0xFFFFFFFF }).seq = 0 := by decide

/-- V-SYS-3: the capacity itself is accepted, one more is not. -/
theorem test_cfg : (ran 0x01000000000000000000100000000000 fresh).blksz = 4096 ∧
    (ran 0x01000000000000000000100100000000 fresh).rsps = [0x0300000000000000] ∧
    (ran 0x01000000000000000000100100000000 fresh).errinfo = 0x01000000 := by decide

/-- V-SYS-2. -/
theorem test_clear : (ran 0x02000000000000000000000000000000 banana).status.pack = 0 ∧
    (ran 0x02000000000000000000000000000000 banana).blockAt 0 = 0x62 := by decide

/-- V-SYS-1: `SEQ` returns the sequence number of the `CSRRD` itself; V-SYS-4: number 10 does not exist. -/
theorem test_csrrd : (ran 0x03000000000000000000000800000000 { fresh with seq := 8 }).rsps = [0x0000000000000008] ∧
    (ran 0x03000000000000000000000100000000 fresh).rsps = [0x0000000000001000] ∧
    (ran 0x03000000000000000000000A00000000 fresh).rsps = [0x0700000000000000] := by decide

/-- V-SYS-4: only bit 0 of `CTRL` is written. -/
theorem test_csrwr : (ran 0x040000000000000000000004FFFFFFFE fresh).ie = false ∧
    (ran 0x040000000000000000000004FFFFFFFF fresh).ie = true ∧
    (ran 0x04000000000000000000000200000005 fresh).rsps = [0x0700000000000000] := by decide

/-- Program P4: `CLRERR` after `RSORT` on an unconfigured block. -/
theorem test_clrerr : (ran 0x33000000000000000000000000000000 fresh).errinfo = 0x33000000 ∧
    (ran 0x05000000000000000000000000000000 (ran 0x33000000000000000000000000000000 fresh)).status.pack = 0 ∧
    (ran 0x05000000000000000000000000000000 (ran 0x33000000000000000000000000000000 fresh)).errcode = 0 := by decide

/-- V-SYS-6, program P4: in fault state another word is refused and the first error is kept. -/
theorem test_fault_state :
    (ran 0xFF000000000000000000000000000000 (ran 0x33000000000000000000000000000000 fresh)).rsps =
      [0x0200000000000000, 0x0600000000000000] ∧
    (ran 0xFF000000000000000000000000000000 (ran 0x33000000000000000000000000000000 fresh)).errcode = 2 := by decide

/-- V-MEM-4: writing the byte that is there clears the flags. -/
theorem test_blkwr :
    (ran 0x10000000000000000000000000000062 (staged .scattered banana)).status.pack = 0x41 ∧
    (ran 0x10000000000000000000000500000100 banana).rsps = [0x0300000000000000] := by decide

/-- V-MEM-1: most significant byte first, no alignment; the write does not wrap. -/
theorem test_blkwr4 :
    (ran 0x11000000000000000000000201020304 banana).blockAt 2 = 0x01 ∧
    (ran 0x11000000000000000000000201020304 banana).blockAt 5 = 0x04 ∧
    (ran 0x11000000000000000000000300000000 banana).rsps = [0x0300000000000000] := by decide

theorem test_blkrd : (ran 0x12000000000000000000000200000000 banana).rsps = [0x000000000000006E] ∧
    (ran 0x12000000000000000000000600000000 banana).rsps = [0x0300000000000000] := by decide

/-- V-MEM-2: `PTR[N]` is written and read, `PTR[N + 1]` is out of range. -/
theorem test_ptr_end :
    (ran 0x13000000000000000000000600000000 (ran 0x140000000000000000000006DEADBEEF banana)).rsps =
      [0x0000000000000000, 0x00000000DEADBEEF] ∧
    (ran 0x13000000000000000000000700000000 banana).rsps = [0x0300000000000000] := by decide

/-- V-MEM-3. -/
theorem test_btrd : (ran 0x15000000000000000001000000000000 { banana with bt := [(65536, 6)] }).rsps =
      [0x0000000000000006] ∧
    (ran 0x15000000000000000001000100000000 banana).rsps = [0x0300000000000000] := by decide

/-- V-MEM-3: the bit is set and `COUNT` kept. -/
theorem test_btmark :
    (ran 0x16000000000000000000616E00000000 banana).rsps = [0x0400000000000000] ∧
    (ran 0x16000000000000000000616E00000000 (staged .scattered { banana with bt := [(0x616E, 1)] })).btAt 0x616E =
      0x80000001 := by decide

/-- V-ST-3: without a stripe it is out of sequence. -/
theorem test_strd : (ran 0x17000000000000000000000000000000 text).rsps = [0x0400000000000000] ∧
    (ran 0x17000000000000000000007F00000000 plain).rsps = [0x0000000041414141] ∧
    (ran 0x17000000000000000000008000000000 plain).rsps = [0x0300000000000000] := by decide

/-- 43_memory_access.md R198: the mirror is written with the word, and not directly (V-ST-3). -/
theorem test_stwr :
    (ran 0x18000000000000000000000341410007 plain).stripeAt 67 = 0x41410007 ∧
    (ran 0x18000000000000000000000341410007 plain).status.pack = 0x47 ∧
    (ran 0x18000000000000000000004000000000 plain).rsps = [0x0300000000000000] := by decide

/-- V-MEM-4. -/
theorem test_bordrd : (ran 0x19000000000000000000000000000000 banana).rsps = [0x0400000000000000] ∧
    (ran 0x19000000000000000000000000000000
      { banana with bord := [(0, 0x61)], status := { banana.status with bigordValid := true } }).rsps =
      [0x0000000000000061] := by decide

/-- V-MEM-5, V-MTF-6. -/
theorem test_mtfrd : (ran 0x1A000000000000000000000300000000 banana).rsps = [0x0000000000000003] ∧
    (ran 0x1A000000000000000000000000000000 fresh).rsps = [0x0400000000000000] := by decide

/-- V-ST-1: the words at the start, at the end of the block, and in the mirror. -/
theorem test_stbuild :
    (text.buildStripe).stripeAt 0 = 0x74686520 ∧ (text.buildStripe).stripeAt 62 = 0x61747468 ∧
    (text.buildStripe).stripeAt 63 = 0x74746865 ∧ (text.buildStripe).stripeAt 127 = 0x74746865 := by decide +kernel

theorem test_stbuild_step : (ran 0x20000000000000000000000000000000 text).status.pack = 0x43 ∧
    (ran 0x20000000000000000000000000000000 banana).rsps = [0x0500000000000000] := by decide +kernel

/-- V-CMP-1: the fifth pair differs; the sum is over the naturals. -/
theorem test_cmp :
    (text.buildStripe).compare 0 45 0 = 0x00000001 ∧ (text.buildStripe).compare 45 0 0 = 0xFFFFFFFF ∧
    (text.buildStripe).compare 0 45 0xFFFFFFFF = 0x00000001 := by decide +kernel

/-- V-CMP-5, scaled to 64 bytes: the mirror word is what is read, and a whole rotation with no unequal pair is 0. -/
theorem test_cmp_step :
    (ran 0x21000000000000000000000700000004
      (ran 0x18000000000000000000000341410007 plain)).rsps = [0x0000000000000000, 0x00000000FFFFFFFF] ∧
    (ran 0x21000000000000000000000000000005 plain).rsps = [0x0000000000000000] := by decide +kernel

/-- V-PRE-1: the counts of the keys of `banana`, from words at 0. -/
theorem test_rscnt :
    (List.range 6).foldl (fun bt i => bumpCount bt (banana.key i))
      [(0x6162, 0), (0x616E, 0), (0x6261, 0), (0x6E61, 0)] =
        [(0x6162, 1), (0x616E, 2), (0x6261, 1), (0x6E61, 2)] := by decide +kernel

/-- V-PRE-1: the four counts cumulated; V-PRE-2: out of sequence. -/
theorem test_rscum : runningSums 0 [0, 1, 2, 0, 1, 2, 0] = [0, 1, 3, 3, 4, 6, 6] ∧
    (ran 0x31000000000000000000000000000000 banana).rsps = [0x0400000000000000] := by decide +kernel

/-- V-PRE-1: `PTR` and the bucket starts of `banana`. -/
theorem test_rssct :
    (ran 0x32000000000000000000000000000000
      (staged .cumulated { banana with bt := [(0x6162, 1), (0x616E, 3), (0x6261, 4), (0x6E61, 6)] })).ptr =
        [(0, 5), (1, 1), (2, 3), (3, 0), (4, 2), (5, 4)] ∧
    (ran 0x32000000000000000000000000000000
      (staged .cumulated { banana with bt := [(0x6162, 1), (0x616E, 3), (0x6261, 4), (0x6E61, 6)] })).bt =
        [(0x6162, 0), (0x616E, 1), (0x6261, 3), (0x6E61, 4)] := by decide +kernel

/-- 60_exceptions.md R242. -/
theorem test_rsort_not_configured : (ran 0x33000000000000000000000000000000 fresh).rsps = [0x0200000000000000] := by
  decide

/-- V-PRE-2. -/
theorem test_bigord_out_of_sequence : (ran 0x34000000000000000000000000000000 banana).rsps = [0x0400000000000000] := by
  decide

/-- 41_presort.md R147's inner loop by hand: with gap 2 an entry passes greater ones only, and equal ones not. -/
theorem test_bigord_inner_loop :
    sinkEntry (fun b => b.toNat / 10) 2 15 6 6 [11, 99, 14, 99, 31, 99, 15] = [11, 99, 14, 99, 15, 99, 31] ∧
    sinkEntry (fun b => b.toNat / 10) 1 5 3 3 [11, 14, 31, 5] = [5, 11, 14, 31] := by decide

/-- R147: the gaps. -/
theorem test_bigord_gaps : shellGaps = [121, 40, 13, 4, 1] := by decide

/-- R160. -/
theorem test_mtfinit : (ran 0x40000000000000000000000000000000 { fresh with zrun := 5 }).zrun = 0 ∧
    (ran 0x40000000000000000000000000000000 fresh).mtfAt 255 = 255 := by decide +kernel

/-- R165's example; V-MTF-2's last rank. -/
theorem test_mtfb :
    (ran 0x41000000000000000000006E00000000 (sized 6)).toks = [0x0008, 0x162E] ∧
    (ran 0x41000000000000000000006E00000000 (sized 6)).rsps = [0x000000000000006E] ∧
    (ran 0x4100000000000000000000FF00000000 (sized 6)).toks = [0x0009, 0x177F] := by decide +kernel

/-- V-MTF-4: a run at its largest. -/
theorem test_mtfb_overflow :
    (ran 0x41000000000000000000000000000000 { sized 6 with zrun := 0xFFFFFFFF }).rsps = [0x0800000000000000] ∧
    (ran 0x41000000000000000000000100000000 { sized 6 with zrun := 0xFFFFFFFF }).toks =
      List.replicate 32 0x0000 ++ [0x0002] := by decide +kernel

/-- V-MTF-3: the code of a run of 100. -/
theorem test_mtfeob :
    (ran 0x42000000000000000000000000000000 { sized 6 with zrun := 100 }).toks = [1, 0, 1, 0, 0, 1, 0x000A] ∧
    (ran 0x42000000000000000000000000000000 fresh).rsps = [0x0400000000000000] := by decide +kernel

/-- V-MTF-5. -/
theorem test_mtfword :
    (ran 0x43000000000000000102030400000000 fresh).toks = [0x2001, 0x2002, 0x2003, 0x2004] := by decide

/-- V-MTF-7 (the stream of V-MTF-1), V-MTF-9. -/
theorem test_mtfblk :
    (ran 0x44000000000000000000000000000000
      { banana with ptr := [(0, 5), (1, 3), (2, 1), (3, 0), (4, 4), (5, 2)] }).toks =
        [0x0008, 0x162E, 0x0000, 0x0008, 0x1623, 0x0008, 0x1623, 0x0001, 0x000A] ∧
    (ran 0x44000000000000000000000000000000 (sized 0)).toks = [0x000A] := by decide +kernel

/-! ## Witnesses: the hypotheses of each statement hold together somewhere

One theorem per statement that has hypotheses, named after it; each clause at the boundary of its range. -/

/-- A state in fault state. -/
def faulted : State := { fresh with status := { Status.reset with fault := true }, errcode := 2 }

/-- A state with one word waiting. -/
def waiting (cw : CommandWord) (s : State) : State := { s with cmds := [cw] }

/-- A waiting word that is a command is executed. -/
theorem waiting_steps (cw : CommandWord) (s : State) (i : Instr) (h : decode cw = .ok i) :
    ∃ t, step (waiting cw s) = .next t := by
  obtain ⟨t, ht⟩ := exec_next i { waiting cw s with cmds := [] }
  exact ⟨t, by rw [step_of_command _ cw [] rfl, h]; exact ht⟩

theorem witness_encodeOfDecodeIsIdentity : decode 0x21FFFFFF000000000000000000000000 ≠ .ok .nop ∧
    decode 0x21000000FFFFFFFFFFFFFFFFFFFFFFFF = .ok (.cmp 0xFFFFFFFF 0xFFFFFFFF 0xFFFFFFFF) := by decide

/-- An undefined opcode, a bit in `RSV`, an operand of a command that has none. -/
theorem witness_unfitWordRaisesIllegal :
    ((waiting 0x06000000000000000000000000000000 fresh).cmds = [0x06000000000000000000000000000000] ∧
      (waiting 0x06000000000000000000000000000000 fresh).status.fault = false ∧
      ∀ r ∈ rows, r.fits 0x06000000000000000000000000000000 = false) ∧
    (∀ r ∈ rows, r.fits 0x00000001000000000000000000000000 = false) ∧
    ∀ r ∈ rows, r.fits 0x12000000000000000000000000000001 = false := by decide +kernel

theorem witness_stepRunsTheDecodedCommand :
    (waiting 0x33000000000000000000000000000000 fresh).cmds = [0x33000000000000000000000000000000] ∧
    decode 0x33000000000000000000000000000000 = .ok .rsort ∧ fresh.cmds = [] ∧
    decodeTableWord 128 0x33000000000000000000000000000000 = some .rsort := by decide

theorem witness_checksAreMadeInTheirFixedOrder :
    (waiting 0xFF000000000000000000000000000000 fresh).cmds = [0xFF000000000000000000000000000000] := rfl

theorem witness_errorChangesOnlyTheErrorRegisters :
    (waiting 0x33000000000000000000000000000000 fresh).cmds = [0x33000000000000000000000000000000] ∧
    ∃ t, step (waiting 0x33000000000000000000000000000000 fresh) = .next t :=
  ⟨rfl, waiting_steps _ _ .rsort (by decide)⟩

theorem witness_oneResponsePerWordTaken :
    (waiting 0x44000000000000000000000000000000 banana).cmds = [0x44000000000000000000000000000000] ∧
    ∃ t, step (waiting 0x44000000000000000000000000000000 banana) = .next t :=
  ⟨rfl, waiting_steps _ _ .mtfblk (by decide)⟩

/-- The opcodes on both sides of the exempt ones. -/
theorem witness_faultStateRefusesOtherWords :
    (waiting 0x06000000000000000000000000000000 faulted).cmds = [0x06000000000000000000000000000000] ∧
    (waiting 0x06000000000000000000000000000000 faulted).status.fault = true ∧
    (0x06000000000000000000000000000000 : CommandWord).extractLsb' 120 8 = 0x06#8 ∧
    (0x02000000000000000000000000000000 : CommandWord).extractLsb' 120 8 = 0x02#8 := by decide

theorem witness_illFormedCommandNeverCompletes :
    ∀ i ∈ [Instr.csrrd 10, .csrwr 3 0, .csrwr 5 0, .blkwr 0 256, .btrd 65537, .btmark 65536, .bordrd 256, .mtfrd 256,
      .mtfb 256], i.wellFormed = false := by decide

theorem witness_nopOnlyResponds : fresh.status.fault = false := by decide

theorem witness_cfgConfigures : fresh.status.fault = false ∧ fresh.cap.toNat < (4097 : Word).toNat ∧
    (4096 : Word).toNat ≤ fresh.cap.toNat ∧ (0 : Word).toNat ≤ fresh.cap.toNat := by decide

theorem witness_clearDeconfigures : banana.status.fault = false := by decide

theorem witness_csrrdReadsTheRegister : (csrs fresh)[(0 : Word).toNat]? = some 0x524C4331 ∧
    (csrs fresh)[(9 : Word).toNat]? = some 0 ∧ 9 < (10 : Word).toNat := by decide

theorem witness_csrwrWritesOnlyInterruptEnable : (4 : Word) = 4 ∧ (3 : Word) ≠ 4 ∧ (5 : Word) ≠ 4 := by decide

theorem witness_clrerrLeavesFaultState : (∃ t, exec .clrerr faulted = .next t) ∧ fresh.status.fault = false ∧
    ErrorsConsistent fresh :=
  ⟨exec_next _ _, rfl, by decide, by decide, by decide⟩

theorem witness_interruptIsFaultAndEnable :
    (∃ t, exec .clrerr faulted = .next t) ∧ (∃ t, exec (.csrwr 4 1) faulted = .next t) ∧
    ∃ t, exec (.cfg 4097) { fresh with ie := true } = .next t ∧ t.status.fault = true ∧
      ∀ v, Instr.cfg 4097 ≠ .csrwr 4 v :=
  ⟨exec_next _ _, exec_next _ _, _, rfl, rfl, fun _ h => by injection h⟩

theorem witness_blkwrWritesOneByte : fresh.status.fault = false ∧ fresh.status.cfgValid = false ∧
    banana.status.fault = false ∧ banana.status.cfgValid = true ∧ banana.blksz.toNat ≤ (6 : Word).toNat ∧
    255 < (256 : Word).toNat ∧ (5 : Word).toNat < banana.blksz.toNat ∧ (255 : Word).toNat ≤ 255 := by decide

theorem witness_blkwr4WritesFourBytes : fresh.status.cfgValid = false ∧ banana.status.fault = false ∧
    banana.status.cfgValid = true ∧ banana.blksz.toNat < (3 : Word).toNat + 4 ∧
    banana.blksz.toNat < (0xFFFFFFFF : Word).toNat + 4 ∧ (2 : Word).toNat + 4 ≤ banana.blksz.toNat := by decide

theorem witness_blockPtrAndBtReadsReturnTheElement : fresh.status.cfgValid = false ∧ banana.status.fault = false ∧
    banana.status.cfgValid = true ∧ banana.blksz.toNat ≤ (6 : Word).toNat ∧ (5 : Word).toNat < banana.blksz.toNat ∧
    banana.blksz.toNat < (7 : Word).toNat ∧ (6 : Word).toNat ≤ banana.blksz.toNat ∧ 65536 < (65537 : Word).toNat ∧
    (65536 : Word).toNat ≤ 65536 := by decide

theorem witness_ptrwrWritesOneIndex : fresh.status.cfgValid = false ∧ banana.status.fault = false ∧
    banana.status.cfgValid = true ∧ banana.blksz.toNat < (7 : Word).toNat ∧
    (6 : Word).toNat ≤ banana.blksz.toNat := by decide

theorem witness_btmarkSetsTheSortedBit : fresh.status.cfgValid = false ∧ banana.status.fault = false ∧
    banana.status.cfgValid = true ∧ banana.status.rsStage ≠ .scattered ∧
    (staged .scattered banana).status.rsStage = .scattered ∧ (staged .scattered banana).status.fault = false ∧
    65535 < (65536 : Word).toNat ∧ (65535 : Word).toNat ≤ 65535 := by decide

theorem witness_strdReadsOneStripeWord : fresh.status.cfgValid = false ∧ (sized 63).status.cfgValid = true ∧
    (sized 63).blksz.toNat < 64 ∧ text.status.cfgValid = true ∧ 64 ≤ text.blksz.toNat ∧
    text.status.stripeValid = false ∧ plain.status.fault = false ∧ plain.status.cfgValid = true ∧
    64 ≤ plain.blksz.toNat ∧ plain.status.stripeValid = true ∧ plain.blksz.toNat + 64 ≤ (128 : Word).toNat ∧
    (127 : Word).toNat < plain.blksz.toNat + 64 := by decide

theorem witness_stwrWritesTheWordAndItsMirror : plain.status.fault = false ∧ plain.status.cfgValid = true ∧
    64 ≤ plain.blksz.toNat ∧ plain.status.stripeValid = true ∧ plain.blksz.toNat ≤ (64 : Word).toNat ∧
    (63 : Word).toNat < plain.blksz.toNat ∧ (63 : Word).toNat < 64 ∧ (sized 63).blksz.toNat < 64 ∧
    text.status.stripeValid = false := by decide

theorem witness_bordrdReadsOneEntry : banana.status.fault = false ∧ banana.status.cfgValid = true ∧
    banana.status.bigordValid = false ∧ { banana.status with bigordValid := true }.bigordValid = true ∧
    255 < (256 : Word).toNat ∧ (255 : Word).toNat ≤ 255 := by decide

theorem witness_mtfrdReadsOneEntry : fresh.status.fault = false ∧ fresh.status.mtfValid = false ∧
    banana.status.fault = false ∧ banana.status.mtfValid = true ∧ 255 < (256 : Word).toNat ∧
    (255 : Word).toNat ≤ 255 := by decide

theorem witness_stbuildBuildsThePureStripe : fresh.status.cfgValid = false ∧ (sized 63).status.cfgValid = true ∧
    (sized 63).blksz.toNat < 64 ∧ text.status.fault = false ∧ text.status.cfgValid = true ∧
    64 ≤ text.blksz.toNat := by decide

theorem witness_cmpIsTheOrderOfTheFirstUnequalPair : plain.status.fault = false ∧ plain.status.cfgValid = true ∧
    64 ≤ plain.blksz.toNat ∧ plain.status.stripeValid = true ∧ plain.blksz.toNat ≤ (64 : Word).toNat ∧
    (63 : Word).toNat < plain.blksz.toNat ∧ text.status.stripeValid = false ∧ (sized 63).blksz.toNat < 64 := by decide

theorem plain_pure : PureStripe plain := by
  have hb : ∀ a < 64, plain.blockAt a = 0x41 := fun a h => by
    show Memory.read _ (Memory.load [] 0 (List.replicate 64 0x41)) a = _
    rw [Memory.read_load_of_mem _ _ _ _ _ (Nat.zero_le a) (by simpa using h), List.getElem_replicate]
  have hN : plain.blksz.toNat = 64 := rfl
  intro x hx
  rw [hN] at hx
  have hs : plain.stripeAt x = 0x41414141 := by
    show Memory.read _ (Memory.load [] 0 (List.replicate 128 0x41414141)) x = _
    rw [Memory.read_load_of_mem _ _ _ _ _ (Nat.zero_le x) (by simpa using hx), List.getElem_replicate]
  rw [hs, packed, hN, hb _ (Nat.mod_lt _ (by decide)), hb _ (Nat.mod_lt _ (by decide)),
    hb _ (Nat.mod_lt _ (by decide)), hb _ (Nat.mod_lt _ (by decide))]
  rfl

theorem witness_cmpOrdersRotationsOnAPureStripe : plain.status.fault = false ∧ plain.status.cfgValid = true ∧
    64 ≤ plain.blksz.toNat ∧ plain.status.stripeValid = true ∧ PureStripe plain ∧
    (0 : Word).toNat < plain.blksz.toNat ∧ (63 : Word).toNat < plain.blksz.toNat :=
  ⟨rfl, rfl, by decide, rfl, plain_pure, by decide, by decide⟩

theorem witness_cmpWithEqualLeadingBytesOrdersTheRotations : PureStripe plain ∧ plain.status.stripeValid = true ∧
    (0 : Word).toNat < plain.blksz.toNat ∧ (63 : Word).toNat < plain.blksz.toNat ∧
    ∀ k < (2 : Word).toNat, plain.blockAt (((0 : Word).toNat + k) % plain.blksz.toNat) =
      plain.blockAt (((63 : Word).toNat + k) % plain.blksz.toNat) :=
  ⟨plain_pure, rfl, by decide, by decide, by decide +kernel⟩

theorem witness_cmpIsReflexiveAndAntisymmetric : plain.status.fault = false ∧ plain.status.cfgValid = true ∧
    64 ≤ plain.blksz.toNat ∧ plain.status.stripeValid = true ∧ (0 : Word).toNat < plain.blksz.toNat ∧
    (63 : Word).toNat < plain.blksz.toNat := by decide

/-! ### A block of one byte `0x41` at each presort stage: its one key is `0x4141` (41_presort.md R149) -/

/-- `BT` with `a` words 0, then `b` words 1. -/
def table (a b : Nat) : Memory 32 := Memory.load [] 0 (List.replicate a 0 ++ List.replicate b 1)

theorem read_table (a b k : Nat) (h : k < a + b) :
    Memory.read Config.btInit (table a b) k = if k < a then 0 else 1 := by
  rw [table, Memory.read_load_of_mem _ _ _ _ _ (Nat.zero_le k) (by simpa using h)]
  simp only [Nat.sub_zero, List.getElem_append, List.length_replicate, List.getElem_replicate]
  split <;> rfl

/-- The block, at stage `st`, with `BT` of `bt`. -/
def single (st : RsStage) (bt : Memory 32) : State :=
  { staged st (sized 1) with block := [(0, 0x41)], bt := bt }

theorem keyOf_single (st : RsStage) (bt : Memory 32) : keyOf (single st bt) 0 = 0x4141 := by
  rw [keyOf, show (0 + 1) % (single st bt).blksz.toNat = 0 from Nat.mod_one _,
    show (single st bt).blockAt 0 = 0x41 from rfl]
  rfl

theorem rotationsWith_single (st : RsStage) (bt : Memory 32) (p : Nat → Bool) :
    rotationsWith (single st bt) p = if p 0x4141 then 1 else 0 := by
  show List.countP (fun i => p (keyOf (single st bt) i)) [0] = _
  rw [List.countP_cons, List.countP_nil, Nat.zero_add, keyOf_single]

/-- After `RSCNT`: one word is 1. -/
def counted : State := single .counted (Memory.put (table 65537 0) 0x4141 1)

/-- After `RSCUM`: the words from the key on are 1. -/
def cumulated : State := single .cumulated (table 0x4141 48832)

/-- After `RSSCT`: the words above the key are 1. -/
def scattered : State := single .scattered (table 0x4142 48831)

theorem counted_counts : (∀ k < 65536, (counted.btAt k).toNat = rotationsWith counted (fun x => x == k)) ∧
    counted.btAt 65536 = 0 := by
  have h : ∀ k < 65537, counted.btAt k = if k = 0x4141 then 1 else 0 := fun k hk => by
    show Memory.read _ (Memory.put _ _ _) k = _
    rw [Memory.read_put, read_table _ _ _ hk, if_pos hk]
  refine ⟨fun k hk => ?_, by rw [h _ (by decide)]; rfl⟩
  rw [h k (by omega), counted, rotationsWith_single]
  by_cases hk2 : k = 0x4141
  · subst hk2
    rfl
  · rw [if_neg hk2, if_neg (by simpa using Ne.symm hk2)]
    rfl

theorem cumulated_counts :
    ∀ k ≤ 65536, (cumulated.btAt k).toNat = rotationsWith cumulated (fun x => decide (x ≤ k)) := by
  intro k hk
  rw [show cumulated.btAt k = _ from read_table 0x4141 48832 k (by omega), cumulated, rotationsWith_single]
  by_cases h : k < 0x4141
  · rw [if_pos h, if_neg (by simpa using h)]
    rfl
  · rw [if_neg h, if_pos (by simpa using h)]
    rfl

theorem scattered_counts :
    ∀ k ≤ 65536, bucketStart scattered k = rotationsWith scattered (fun x => decide (x < k)) := by
  intro k hk
  rw [bucketStart, show scattered.btAt k = _ from read_table 0x4142 48831 k (by omega), scattered,
    rotationsWith_single]
  by_cases h : k < 0x4142
  · rw [if_pos h, if_neg (by simpa using Nat.le_of_lt_succ h)]
    rfl
  · rw [if_neg h, if_pos (by simp; omega)]
    rfl

theorem witness_rscntCountsTheKeys : fresh.status.cfgValid = false ∧ banana.status.fault = false ∧
    banana.status.cfgValid = true ∧ banana.blksz.toNat ≤ 2 ^ 31 - 1 := by decide

theorem witness_rscumCumulates : banana.status.rsStage ≠ .counted ∧ counted.status.fault = false ∧
    counted.status.cfgValid = true ∧ counted.status.rsStage = .counted ∧
    (∀ k < 65536, (counted.btAt k).toNat = rotationsWith counted (fun x => x == k)) ∧ counted.btAt 65536 = 0 :=
  ⟨by decide, rfl, rfl, rfl, counted_counts⟩

theorem witness_rssctScatters : banana.status.rsStage ≠ .cumulated ∧ cumulated.status.fault = false ∧
    cumulated.status.cfgValid = true ∧ cumulated.status.rsStage = .cumulated ∧
    ∀ k ≤ 65536, (cumulated.btAt k).toNat = rotationsWith cumulated (fun x => decide (x ≤ k)) :=
  ⟨by decide, rfl, rfl, rfl, cumulated_counts⟩

theorem witness_rsortSortsByKey : fresh.status.cfgValid = false ∧ banana.status.fault = false ∧
    banana.status.cfgValid = true ∧ (4 : Nat) < 5 ∧ 5 < banana.blksz.toNat ∧ banana.blksz.toNat ≤ 2 ^ 31 - 1 := by
  decide

theorem witness_rsortIsTheThreeStages : fresh.status.fault = false ∧ fresh.status.cfgValid = false ∧
    banana.status.fault = false ∧ banana.status.cfgValid = true := by decide

/-- The empty block after `RSORT`: all sizes are 0 (V-PRE-5). -/
def emptySorted : State :=
  { staged .scattered (sized 0) with bt := table 65537 0, bord := Memory.load [] 0 identityBytes }

theorem emptySorted_sizes : ∀ b < 256, bucketSize emptySorted b = 0 := by
  intro b hb
  have h : ∀ k < 65537, emptySorted.btAt k = 0 := fun k hk => by
    rw [show emptySorted.btAt k = _ from read_table 65537 0 k hk, if_pos hk]
  rw [bucketSize, bucketStart, bucketStart, h _ (by omega), h _ (by omega)]
  rfl

theorem witness_bigordOrdersBucketsBySize : banana.status.rsStage ≠ .scattered ∧ emptySorted.status.fault = false ∧
    emptySorted.status.cfgValid = true ∧ emptySorted.status.rsStage = .scattered ∧
    ∀ x < 256, bucketSize emptySorted x = bucketSize emptySorted 0 :=
  ⟨by decide, rfl, rfl, rfl, fun x hx => by rw [emptySorted_sizes x hx, emptySorted_sizes 0 (by decide)]⟩

theorem witness_bigordDependsOnSizesAlone : emptySorted.status.rsStage = .scattered ∧
    emptySorted.status.fault = false ∧ emptySorted.status.cfgValid = true ∧
    (∀ b < 256, bucketSize emptySorted b = bucketSize { emptySorted with seq := 7 } b) ∧
    (∃ t, exec .bigord emptySorted = .next t) ∧ ∃ t, exec .bigord { emptySorted with seq := 7 } = .next t :=
  ⟨rfl, rfl, rfl, fun _ _ => rfl, exec_next _ _, exec_next _ _⟩

theorem witness_mtfinitInitialisesTheList : fresh.status.fault = false := by decide

/-- Ranks 0, 110 and 255 of the initial list. -/
theorem witness_mtfbEncodesOneByte : fresh.status.mtfValid = false ∧ banana.status.fault = false ∧
    banana.status.mtfValid = true ∧ 255 < (256 : Word).toNat ∧ (255 : Word).toNat ≤ 255 ∧
    banana.mtfAt 0 = (0 : Word).extractLsb' 0 8 ∧ { banana with zrun := 0xFFFFFFFF }.zrun.toNat = 2 ^ 32 - 1 ∧
    ¬ (banana.mtfAt 0 = (0 : Word).extractLsb' 0 8 ∧ banana.zrun.toNat = 2 ^ 32 - 1) ∧
    IsRank banana ((0 : Word).extractLsb' 0 8) 0 ∧ IsRank banana ((110 : Word).extractLsb' 0 8) 110 ∧
    IsRank banana ((255 : Word).extractLsb' 0 8) 255 := by
  refine ⟨by decide, by decide, by decide, by decide, by decide, by decide +kernel, by decide, by decide +kernel,
    ⟨by decide, by decide +kernel, by decide⟩, ⟨by decide, by decide +kernel, by decide +kernel⟩,
    ⟨by decide, by decide +kernel, by decide +kernel⟩⟩

theorem witness_mtfeobEndsTheBlock : fresh.status.mtfValid = false ∧ banana.status.fault = false ∧
    banana.status.mtfValid = true := by decide

theorem witness_mtfwordEmitsFourBytes : fresh.status.fault = false := by decide

/-- The largest pending run a block of 6 bytes may meet, and one more. -/
theorem witness_mtfblkIsMtfbsThenMtfeob : fresh.status.cfgValid = false ∧ banana.status.fault = false ∧
    banana.status.cfgValid = true ∧ (({ banana.status with mtfValid := false } : Status)).mtfValid = false ∧
    banana.status.mtfValid = true ∧ 2 ^ 32 - 1 < (0xFFFFFFFA : Word).toNat + banana.blksz.toNat ∧
    (0xFFFFFFF9 : Word).toNat + banana.blksz.toNat ≤ 2 ^ 32 - 1 := by decide

theorem witness_runTokensRecoverTheRun : banana.status.fault = false ∧ banana.status.mtfValid = true ∧
    ∃ t, exec .mtfeob { banana with zrun := 0xFFFFFFFF } = .next t := ⟨rfl, rfl, exec_next _ _⟩

theorem banana_permutation : IsPermutation banana.mtfAt := isPermutation_initList { banana with mtf := [] }

theorem witness_mtfblkTokensDecodeToTheBytes : banana.status.fault = false ∧ banana.status.cfgValid = true ∧
    banana.status.mtfValid = true ∧ IsPermutation banana.mtfAt ∧
    banana.zrun.toNat + banana.blksz.toNat ≤ 2 ^ 32 - 1 := ⟨rfl, rfl, rfl, banana_permutation, by decide⟩

theorem witness_onlyTheListedCommandsWrite : ∃ t, exec .rssct cumulated = .next t := exec_next _ _

theorem witness_flagsChangeOnlyAsTabulated : ∃ t, exec .stbuild text = .next t := exec_next _ _

/-! ### The invariants, each in a state where it says something, before a command that could break it -/

theorem witness_stepsKeepMemoriesCanonical :
    MemoriesCanonical (waiting 0x18000000000000000000000341410007 plain) ∧
    ∃ t, step (waiting 0x18000000000000000000000341410007 plain) = .next t :=
  ⟨⟨by decide +kernel, by decide +kernel, rfl, rfl, rfl, by decide +kernel⟩,
    waiting_steps _ _ (.stwr 3 0x41410007) (by decide)⟩

theorem waiting_consistent (cw : CommandWord) (s : State) (h : ConfigConsistent s) :
    ConfigConsistent (waiting cw s) := ⟨h.1, h.2, h.3, h.4, h.5, h.6, h.7⟩

theorem plain_consistent : ConfigConsistent plain :=
  ⟨by decide, by decide, (fun h => nomatch h), by decide, by decide, by decide, by decide⟩

theorem witness_stepsKeepConfigConsistent :
    ConfigConsistent (waiting 0x02000000000000000000000000000000 plain) ∧
    ∃ t, step (waiting 0x02000000000000000000000000000000 plain) = .next t :=
  ⟨waiting_consistent _ _ plain_consistent, waiting_steps _ _ .clear (by decide)⟩

theorem witness_stepsKeepErrorsConsistent :
    ErrorsConsistent (waiting 0x00000000000000000000000000000000 faulted) ∧
    ∃ t, step (waiting 0x00000000000000000000000000000000 faulted) = .next t :=
  ⟨⟨by decide, by decide, by decide⟩, waiting_steps _ _ .nop (by decide)⟩

theorem witness_stepsKeepMtfAPermutation :
    MtfConsistent (waiting 0x41000000000000000000006E00000000 banana) ∧
    ∃ t, step (waiting 0x41000000000000000000006E00000000 banana) = .next t :=
  ⟨fun _ => banana_permutation, waiting_steps _ _ (.mtfb 0x6E) (by decide)⟩

theorem witness_stepsKeepStripeConsistent :
    StripeConsistent (waiting 0x18000000000000000000000341410007 plain) ∧
    ∃ t, step (waiting 0x18000000000000000000000341410007 plain) = .next t :=
  ⟨⟨fun _ => by decide +kernel, fun _ _ => plain_pure⟩, waiting_steps _ _ (.stwr 3 0x41410007) (by decide)⟩

theorem cumulated_consistent : ConfigConsistent cumulated :=
  ⟨by decide, by decide, (fun h => nomatch h), by decide, by decide, by decide, by decide⟩

theorem cumulated_presort (cw : CommandWord) : PresortConsistent (waiting cw cumulated) :=
  ⟨(fun h => nomatch h), fun _ => cumulated_counts, (fun h => nomatch h)⟩

theorem witness_stepsKeepPresortConsistent :
    ConfigConsistent (waiting 0x32000000000000000000000000000000 cumulated) ∧
    PresortConsistent (waiting 0x32000000000000000000000000000000 cumulated) ∧
    (∃ t, step (waiting 0x32000000000000000000000000000000 cumulated) = .next t) ∧
    PresortConsistent (waiting 0x31000000000000000000000000000000 counted) ∧
    PresortConsistent (waiting 0x16000000000000000000414100000000 scattered) :=
  ⟨waiting_consistent _ _ cumulated_consistent, cumulated_presort _, waiting_steps _ _ .rssct (by decide),
    ⟨fun _ => counted_counts, (fun h => nomatch h), (fun h => nomatch h)⟩,
    ⟨(fun h => nomatch h), (fun h => nomatch h), fun _ => scattered_counts⟩⟩

/-- `emptySorted` with its buckets ordered. -/
def emptyOrdered : State := { emptySorted with status := { emptySorted.status with bigordValid := true } }

theorem emptyOrdered_bord (j : Nat) (h : j < 256) : emptyOrdered.bordAt j = BitVec.ofNat 8 j := by
  show Memory.read _ (Memory.load [] 0 identityBytes) j = _
  rw [Memory.read_load_of_mem _ _ _ _ _ (Nat.zero_le j) (by rw [length_identityBytes]; exact h)]
  simp [identityBytes]

theorem witness_stepsKeepOrderConsistent :
    ConfigConsistent (waiting 0x16000000000000000000414100000000 emptyOrdered) ∧
    OrderConsistent (waiting 0x16000000000000000000414100000000 emptyOrdered) ∧
    ∃ t, step (waiting 0x16000000000000000000414100000000 emptyOrdered) = .next t := by
  refine ⟨⟨by decide, by decide, (fun h => nomatch h), by decide, by decide, by decide, by decide⟩, fun _ => ⟨?_, ?_⟩,
    waiting_steps _ _ (.btmark 0x4141) (by decide)⟩
  · show List.Perm ((List.range 256).map emptyOrdered.bordAt) _
    rw [List.map_congr_left fun j hj => emptyOrdered_bord j (List.mem_range.mp hj)]
  · intro x y hxy hy
    exact (emptySorted_sizes _ (emptyOrdered.bordAt x).isLt).le.trans (Nat.zero_le _)

theorem lt_of_mem_load_nil {w : Nat} (vs : List (BitVec w)) (n : Nat) (h : vs.length ≤ n) :
    ∀ c ∈ Memory.load [] 0 vs, c.1 < n := by
  intro c hc
  simp only [Memory.load, List.filter_nil, List.nil_append, List.append_nil, List.mem_map] at hc
  obtain ⟨p, hp, rfl⟩ := hc
  have := List.mem_zipIdx hp
  simp only
  omega

theorem lt_of_mem_table (a b : Nat) : ∀ c ∈ table a b, c.1 < a + b :=
  lt_of_mem_load_nil _ _ (by rw [List.length_append, List.length_replicate, List.length_replicate])

theorem witness_stepsStayWithinCapacity :
    ConfigConsistent (waiting 0x32000000000000000000000000000000 cumulated) ∧
    PresortConsistent (waiting 0x32000000000000000000000000000000 cumulated) ∧
    WithinCapacity (waiting 0x32000000000000000000000000000000 cumulated) ∧
    ∃ t, step (waiting 0x32000000000000000000000000000000 cumulated) = .next t :=
  ⟨waiting_consistent _ _ cumulated_consistent, cumulated_presort _,
    ⟨by decide, (fun _ h => nomatch h), (fun _ h => nomatch h), lt_of_mem_table 0x4141 48832,
      (fun _ h => nomatch h), lt_of_mem_load_nil identityBytes 256 length_identityBytes.le⟩,
    waiting_steps _ _ .rssct (by decide)⟩

end Sys2Proof.Tests
end

section
/-! PROOFS of the family 00_scope.md: what a step runs, the reset state, the configuration every step keeps, and the
second presort stage. -/

namespace Sys2Proof.Machine

open Sys2Proof.Safety

/-! ## The step and the reset state -/

theorem toOption_eq_some_iff {ε α : Type} (x : Except ε α) (a : α) : x.toOption = some a ↔ x = .ok a := by
  cases x <;> simp [Except.toOption]

/-- A step that takes a word which decodes runs its command on the state without that word. -/
theorem step_of_decode (s : State) (cw : CommandWord) (rest : List CommandWord) (i : Instr)
    (hc : s.cmds = cw :: rest) (hd : decode cw = .ok i) : step s = exec i { s with cmds := rest } := by
  rw [step_of_command s cw rest hc, hd]

/-- Settles O6: a step takes the head of the channel, and `withFetchWord` puts its word there. -/
theorem stepRunsTheDecodedCommand : Obligations.StepRunsTheDecodedCommand := by
  refine ⟨step_of_decode, step_of_no_command, fun s nbits w i h => ?_⟩
  exact step_of_decode (s.withFetchWord nbits w) (tableWord nbits w) s.cmds i rfl
    ((toOption_eq_some_iff _ _).mp h)

theorem nmaxWord_eq_ofNat : Config.nmaxWord = BitVec.ofNat 32 Config.nmax :=
  BitVec.eq_of_toNat_eq (by rw [Config.nmaxWord_toNat, BitVec.toNat_ofNat, Nat.mod_eq_of_lt Config.nmax_lt])

theorem csrs_reset : csrs State.reset = [0x524C4331, BitVec.ofNat 32 Config.nmax, 0, 0, 0, 0, 0, 0, 0, 0] := by
  rw [← nmaxWord_eq_ofNat]
  rfl

/-- Settles O51: every field of the reset state is the tabulated one; the range is that of `NMAX` (R6). -/
theorem resetStateIsAsTabulated : Obligations.ResetStateIsAsTabulated :=
  ⟨csrs_reset, Config.nmax_range, fun _ => ⟨rfl, rfl, rfl, rfl, rfl, rfl⟩, rfl, rfl, rfl, rfl⟩

/-! ## When a shared check passes (60_exceptions.md R247) -/

section
variable (s : State)

@[simp] theorem State.needConfig_passes : s.needConfig.1 = false ↔ s.status.cfgValid = true := by
  simp [State.needConfig]

@[simp] theorem State.needLarge_passes : s.needLarge.1 = false ↔ 64 ≤ s.blksz.toNat := by
  simp [State.needLarge]

@[simp] theorem State.needStripe_passes : s.needStripe.1 = false ↔ s.status.stripeValid = true := by
  simp [State.needStripe]

@[simp] theorem State.needStage_passes (st : RsStage) : (s.needStage st).1 = false ↔ s.status.rsStage = st := by
  simp [State.needStage]

@[simp] theorem State.needMtf_passes : s.needMtf.1 = false ↔ s.status.mtfValid = true := by
  simp [State.needMtf]

@[simp] theorem outOfRange_passes (bad : Bool) : (outOfRange bad).1 = false ↔ bad = false := Iff.rfl

end

/-! ## The configuration and the flags -/

section
variable {s t : State}

/-- A configuration stays consistent when its registers and flags stay, `FAULT` apart, and a pending run has its
list. -/
theorem configConsistent_of_same_flags (h : ConfigConsistent s) (hcap : t.cap = s.cap) (hsize : t.blksz = s.blksz)
    (hflags : t.status = { s.status with fault := t.status.fault })
    (hrun : t.zrun ≠ 0 → s.status.mtfValid = true) : ConfigConsistent t where
  capacity := hcap ▸ h.capacity
  size := hcap ▸ hsize ▸ h.size
  unconfigured := by rw [hflags, hsize]; exact h.unconfigured
  stripe := by rw [hflags, hsize]; exact h.stripe
  tagged := by rw [hflags]; exact h.tagged
  ordered := by rw [hflags]; exact h.ordered
  run := by rw [hflags]; exact hrun

theorem configConsistent_configure (n : Word) (h : ConfigConsistent s) (hn : n.toNat ≤ s.cap.toNat) :
    ConfigConsistent (s.configure n) :=
  ⟨h.capacity, hn, by simp, by simp, by simp, by simp, by simp⟩

theorem configConsistent_deconfigure (h : ConfigConsistent s) : ConfigConsistent s.deconfigure :=
  ⟨h.capacity, by simp, by simp, by simp, by simp, by simp, by simp⟩

theorem configConsistent_writeBlock (a : Nat) (bytes : List Byte) (h : ConfigConsistent s) :
    ConfigConsistent (s.writeBlock a bytes) :=
  ⟨h.capacity, h.size, fun hc => ⟨(h.unconfigured hc).1, rfl, rfl⟩, by simp, by simp, by simp, h.run⟩

theorem configConsistent_tagStripe (p : Nat) (w : Word) (h : ConfigConsistent s) (hv : s.status.stripeValid = true) :
    ConfigConsistent (s.tagStripe p w) :=
  ⟨h.capacity, h.size, h.unconfigured, h.stripe, fun _ => hv, h.ordered, h.run⟩

theorem configConsistent_buildStripe (h : ConfigConsistent s) (hc : s.status.cfgValid = true)
    (hN : 64 ≤ s.blksz.toNat) : ConfigConsistent s.buildStripe :=
  ⟨h.capacity, h.size, by simp [hc], fun _ => hN, by simp, h.ordered, h.run⟩

theorem configConsistent_countKeys (h : ConfigConsistent s) (hc : s.status.cfgValid = true) :
    ConfigConsistent s.countKeys :=
  ⟨h.capacity, h.size, by simp [hc], h.stripe, h.tagged, by simp, h.run⟩

/-- Between the stages no bucket order is valid, so the stage may move on. -/
theorem configConsistent_cumulate (h : ConfigConsistent s) (hc : s.status.cfgValid = true)
    (hst : s.status.rsStage = .counted) : ConfigConsistent s.cumulate :=
  ⟨h.capacity, h.size, by simp [hc], h.stripe, h.tagged, fun ho => by simp [h.ordered ho] at hst, h.run⟩

theorem configConsistent_scatter (h : ConfigConsistent s) (hc : s.status.cfgValid = true) :
    ConfigConsistent s.scatter :=
  ⟨h.capacity, h.size, by simp [hc], h.stripe, h.tagged, by simp, h.run⟩

theorem configConsistent_orderBuckets (h : ConfigConsistent s) (hst : s.status.rsStage = .scattered) :
    ConfigConsistent s.orderBuckets :=
  ⟨h.capacity, h.size, h.unconfigured, h.stripe, h.tagged, fun _ => hst, h.run⟩

theorem configConsistent_mtfinit (h : ConfigConsistent s) :
    ConfigConsistent { s.initList with status := s.status.afterMtfInit } :=
  ⟨h.capacity, h.size, h.unconfigured, h.stripe, h.tagged, h.ordered, fun _ => rfl⟩

/-- Every command whose checks pass keeps the configuration consistent: its checks give what its flags need. -/
theorem configConsistent_effectOf (i : Instr) (h : ConfigConsistent s) (hc : firstError (checksOf s i) = none) :
    ConfigConsistent (effectOf s i) := by
  rw [firstError_eq_none_iff] at hc
  cases i with
  | nop | csrrd | blkrd | ptrrd | btrd | strd | bordrd | mtfrd | cmp => exact h
  | csrwr | clrerr | ptrwr | btmark | mtfword => exact configConsistent_of_same_flags h rfl rfl rfl h.run
  | mtfb | mtfblk =>
    simp only [checksOf, List.forall_mem_cons, State.needMtf_passes] at hc
    exact configConsistent_of_same_flags h rfl rfl rfl fun _ => by simp [hc]
  | mtfeob => exact configConsistent_of_same_flags h rfl rfl rfl fun hz => absurd rfl hz
  | mtfinit => exact configConsistent_mtfinit h
  | cfg n => exact configConsistent_configure n h (by simpa [checksOf] using hc)
  | clear => exact configConsistent_deconfigure h
  | blkwr | blkwr4 => exact configConsistent_writeBlock _ _ h
  | stwr p w =>
    simp only [checksOf, List.forall_mem_cons, State.needStripe_passes] at hc
    obtain ⟨-, -, hv, -⟩ := hc
    exact configConsistent_tagStripe _ _ h hv
  | stbuild =>
    simp only [checksOf, List.forall_mem_cons, State.needConfig_passes, State.needLarge_passes] at hc
    obtain ⟨hcfg, hN, -⟩ := hc
    exact configConsistent_buildStripe h hcfg hN
  | rscnt => exact configConsistent_countKeys h (by simpa [checksOf] using hc)
  | rscum =>
    simp only [checksOf, List.forall_mem_cons, State.needConfig_passes, State.needStage_passes] at hc
    obtain ⟨hcfg, hst, -⟩ := hc
    exact configConsistent_cumulate h hcfg hst
  | rssct =>
    simp only [checksOf, List.forall_mem_cons, State.needConfig_passes] at hc
    exact configConsistent_scatter h hc.1
  | rsort =>
    have hcfg : s.status.cfgValid = true := by simpa [checksOf] using hc
    exact configConsistent_scatter (configConsistent_cumulate (configConsistent_countKeys h hcfg) hcfg rfl) hcfg
  | bigord =>
    simp only [checksOf, List.forall_mem_cons, State.needStage_passes] at hc
    obtain ⟨-, hst, -⟩ := hc
    exact configConsistent_orderBuckets h hst

end

/-- Settles O54: neither taking a word nor an error nor the response touches what `ConfigConsistent` speaks of, and
every effect keeps it. -/
theorem stepsKeepConfigConsistent : Obligations.StepsKeepConfigConsistent := by
  intro s t hs h
  refine step_keeps ConfigConsistent ?taken ?failed ?done hs h
  case taken => exact fun s rest hs => configConsistent_of_same_flags hs rfl rfl rfl hs.run
  case failed => exact fun s e info _ hs => configConsistent_of_same_flags hs rfl rfl rfl hs.run
  case done =>
    intro s i data hs hc
    have he := configConsistent_effectOf i hs hc
    exact configConsistent_of_same_flags he rfl rfl rfl he.run

/-! ## Cumulative counts (41_presort.md R142) -/

section
variable (s : State)

theorem keyOf_lt (i : Nat) : keyOf s i < 65536 := by
  have h1 := (s.blockAt i).isLt
  have h2 := (s.blockAt ((i + 1) % s.blksz.toNat)).isLt
  rw [keyOf]
  omega

theorem rotationsWith_le_size (p : Nat → Bool) : rotationsWith s p ≤ s.blksz.toNat :=
  List.countP_le_length.trans_eq List.length_range

/-- No rotation has a key that fails `p` for every key there is. -/
theorem rotationsWith_eq_zero (p : Nat → Bool) (h : ∀ x < 65536, p x = false) : rotationsWith s p = 0 :=
  List.countP_eq_zero.mpr fun i _ => by simp [h _ (keyOf_lt s i)]

/-- Every rotation has a key that meets `p` when every key there is does. -/
theorem rotationsWith_eq_size (p : Nat → Bool) (h : ∀ x < 65536, p x = true) : rotationsWith s p = s.blksz.toNat :=
  (List.countP_eq_length.mpr fun i _ => h _ (keyOf_lt s i)).trans List.length_range

/-- The rotations with a key up to `k + 1` are those with a key up to `k` and those with the key `k + 1`. -/
theorem rotationsWith_le_succ (k : Nat) :
    rotationsWith s (fun x => decide (x ≤ k + 1)) =
      rotationsWith s (fun x => decide (x ≤ k)) + rotationsWith s (fun x => x == k + 1) := by
  simp only [rotationsWith]
  induction List.range s.blksz.toNat with
  | nil => rfl
  | cons i l ih =>
    simp only [List.countP_cons, ih, beq_iff_eq, decide_eq_true_eq]
    split_ifs <;> omega

/-- Of the counts of stage 1, the sum of the words up to `k` is the number of rotations with a key up to `k`. -/
theorem sum_counts (k : Nat) (h : ∀ j ≤ k, (s.btAt j).toNat = rotationsWith s (fun x => x == j)) :
    ((List.range (k + 1)).map s.btAt).sum = BitVec.ofNat 32 (rotationsWith s (fun x => decide (x ≤ k))) := by
  have word : ∀ j ≤ k, s.btAt j = BitVec.ofNat 32 (rotationsWith s (fun x => x == j)) := fun j hj => by
    rw [← h j hj, BitVec.ofNat_toNat, BitVec.setWidth_eq]
  clear h
  induction k with
  | zero => simpa [beq_eq_decide] using word 0 le_rfl
  | succ k ih =>
    rw [List.range_succ, List.map_append, List.sum_append, ih fun j hj => word j (by omega),
      rotationsWith_le_succ, BitVec.ofNat_add, ← word (k + 1) le_rfl]
    simp

end

/-- Of the counts of `RSCNT`, stage 2 makes the cumulative counts. -/
theorem btAt_cumulate_of_counts (s : State)
    (hcount : ∀ k < 65536, (s.btAt k).toNat = rotationsWith s (fun x => x == k)) (hend : s.btAt 65536 = 0)
    (k : Nat) (hk : k ≤ 65536) :
    (s.cumulate.btAt k).toNat = rotationsWith s (fun x => decide (x ≤ k)) := by
  have hall : ∀ j ≤ 65536, (s.btAt j).toNat = rotationsWith s (fun x => x == j) := by
    intro j hj
    obtain hlt | rfl := hj.lt_or_eq
    · exact hcount j hlt
    · rw [hend, rotationsWith_eq_zero s _ fun x hx => beq_eq_false_iff_ne.mpr hx.ne]
      rfl
  rw [btAt_cumulate, if_pos hk, sum_counts s k fun j hj => hall j (hj.trans hk), BitVec.toNat_ofNat]
  exact Nat.mod_eq_of_lt ((rotationsWith_le_size s _).trans_lt s.blksz.isLt)

/-- Settles O36: its checks in order, `btAt_cumulate` at every index, and the counts of stage 1 as the premise. -/
theorem rscumCumulates : Obligations.RscumCumulates := by
  refine ⟨by decide, fun s hf => ?_⟩
  have hg := gated_eq_false_of_no_fault s (opcode .rscum) hf
  rw [exec_eq_command]
  refine ⟨fun hc => ?notConfigured, fun hc hst => ?notCounted, fun hc hst => ?counted⟩
  case notConfigured =>
    exact command_errs _ _ _ s .notConfigured hg (by simp [checksOf, firstError_cons, State.needConfig, hc])
  case notCounted =>
    exact command_errs _ _ _ s .sequence hg
      (by simp [checksOf, firstError_cons, State.needConfig, State.needStage, hc, hst])
  case counted =>
    have hp : firstError (checksOf s .rscum) = none := by
      simp [firstError_eq_none_iff, checksOf, hc, hst]
    refine ⟨s.cumulate.bt, command_answers _ _ _ s hg hp, btAt_cumulate s, fun hcount hend => ?_⟩
    have cum := btAt_cumulate_of_counts s hcount hend
    refine ⟨cum, fun k hk => ?rising, BitVec.eq_of_toNat_eq ?sentinel⟩
    case rising =>
      calc (s.cumulate.btAt k).toNat
          = rotationsWith s (fun x => decide (x ≤ k)) := cum k (by omega)
        _ ≤ rotationsWith s (fun x => decide (x ≤ k + 1)) := by
          rw [rotationsWith_le_succ]
          exact Nat.le_add_right _ _
        _ = (s.cumulate.btAt (k + 1)).toNat := (cum (k + 1) (by omega)).symm
    case sentinel =>
      exact (cum 65536 le_rfl).trans (rotationsWith_eq_size s _ fun x hx => decide_eq_true hx.le)

end Sys2Proof.Machine
end

section
/-! PROOFS of the family 10_state.md: the invariants every step keeps and that hold at reset, who writes each memory,
register and flag, and the one response of every word taken. -/

namespace Sys2Proof.Machine

open Sys2Proof.Safety

section
variable {s t : State}

/-! ## What an invariant of the data must withstand -/

/-- Two states that agree on what the invariants of the data speak of: they differ at most in the channels, `SEQ`,
`CTRL`, `FAULT` and the error registers. -/
structure SameData (s t : State) : Prop where
  cap : t.cap = s.cap
  blksz : t.blksz = s.blksz
  flags : t.status = { s.status with fault := t.status.fault }
  zrun : t.zrun = s.zrun
  block : t.block = s.block
  stripe : t.stripe = s.stripe
  ptr : t.ptr = s.ptr
  bt : t.bt = s.bt
  bord : t.bord = s.bord
  mtf : t.mtf = s.mtf

theorem sameData_taken (s : State) (rest : List CommandWord) : SameData s { s with cmds := rest } :=
  ⟨rfl, rfl, rfl, rfl, rfl, rfl, rfl, rfl, rfl, rfl⟩

theorem sameData_errored (s : State) (code : BitVec 8) (info : Word) : SameData s (errored s code info) :=
  ⟨rfl, rfl, rfl, rfl, rfl, rfl, rfl, rfl, rfl, rfl⟩

theorem sameData_answered (s : State) (data : Word) : SameData s (answered s data) :=
  ⟨rfl, rfl, rfl, rfl, rfl, rfl, rfl, rfl, rfl, rfl⟩

/-- An invariant of the data is kept by every step when every effect keeps it. -/
theorem step_keeps_of_effect (Inv : State → Prop) (same : ∀ s t, SameData s t → Inv s → Inv t)
    (effect : ∀ s i, Inv s → firstError (checksOf s i) = none → Inv (effectOf s i)) (hs : Inv s)
    (h : step s = .next t) : Inv t := by
  refine step_keeps Inv ?taken ?failed ?done hs h
  case taken => exact fun s rest hs => same _ _ (sameData_taken s rest) hs
  case failed => exact fun s e info _ hs => same _ _ (sameData_errored s e.code info) hs
  case done => exact fun s i data hs hc => same _ _ (sameData_answered _ data) (effect s i hs hc)

theorem SameData.configConsistent (hd : SameData s t) (h : ConfigConsistent s) : ConfigConsistent t :=
  configConsistent_of_same_flags h hd.cap hd.blksz hd.flags (hd.zrun ▸ h.run)

/-! ## The move-to-front list (10_state.md R44 (a)) -/

/-- The list stays a permutation when it stays and `MTF_VALID` does not rise. -/
theorem mtfConsistent_of_same_list (h : MtfConsistent s) (hmtf : t.mtf = s.mtf)
    (hv : t.status.mtfValid = true → s.status.mtfValid = true) : MtfConsistent t := by
  intro ht
  have hat : t.mtfAt = s.mtfAt := by
    funext j
    rw [State.mtfAt, hmtf, State.mtfAt]
  rw [hat]
  exact h (hv ht)

/-- The encoder stores a permutation when its list is one. -/
theorem isPermutation_withEncoder (s : State) (e : Encoder) (he : e.list.Perm identityBytes) :
    IsPermutation (s.withEncoder e).mtfAt := by
  rw [isPermutation_iff, mtfList_withEncoder s e (he.length_eq.trans length_identityBytes)]
  exact he

theorem mtfConsistent_effectOf (i : Instr) (h : MtfConsistent s) (hc : firstError (checksOf s i) = none) :
    MtfConsistent (effectOf s i) := by
  rw [firstError_eq_none_iff] at hc
  cases i with
  | cfg | mtfinit => exact fun _ => isPermutation_initList s
  | clear => exact fun hv => absurd hv (by simp [effectOf])
  | mtfb c =>
    simp only [checksOf, List.forall_mem_cons, State.needMtf_passes] at hc
    have hp : s.encoder.list.Perm identityBytes := (isPermutation_iff s).mp (h hc.1)
    exact fun _ => isPermutation_withEncoder s _ (encodeByte_perm _ _ hp)
  | mtfblk =>
    simp only [checksOf, List.forall_mem_cons, State.needMtf_passes] at hc
    obtain ⟨-, hv, -⟩ := hc
    have hp : s.encoder.list.Perm identityBytes := (isPermutation_iff s).mp (h hv)
    exact fun _ => isPermutation_withEncoder s _ (foldl_encodeByte_perm s.lastColumn _ hp)
  | _ => exact mtfConsistent_of_same_list h rfl id

end

/-- Settles O56: only an initialisation and the encoder write the list, and both leave a permutation. -/
theorem stepsKeepMtfAPermutation : Obligations.StepsKeepMtfAPermutation := by
  intro s t hs h
  refine step_keeps_of_effect MtfConsistent ?same ?effect hs h
  case same => exact fun s t hd hs => mtfConsistent_of_same_list hs hd.mtf (by rw [hd.flags]; exact id)
  case effect => exact fun s i hs hc => mtfConsistent_effectOf i hs hc

/-! ## The stripe and its mirror (R28, R39) -/

section
variable {s t : State}

theorem packed_of_same_block (hb : t.block = s.block) (hn : t.blksz = s.blksz) : packed t = packed s := by
  funext p
  simp only [packed, State.blockAt, hb, hn]

/-- The stripe stays consistent when it and the block it was built from stay, and its two flags do. -/
theorem stripeConsistent_of_same_block (h : StripeConsistent s) (hstripe : t.stripe = s.stripe)
    (hblock : t.block = s.block) (hsize : t.blksz = s.blksz) (hv : t.status.stripeValid = s.status.stripeValid)
    (ht : t.status.stripeTagged = s.status.stripeTagged) : StripeConsistent t := by
  have hat : t.stripeAt = s.stripeAt := by
    funext x
    rw [State.stripeAt, hstripe, State.stripeAt]
  constructor
  case mirror =>
    rw [hv, hat, hsize]
    exact h.mirror
  case pure =>
    rw [hv, ht, PureStripe, hat, hsize, packed_of_same_block hblock hsize]
    exact h.pure

theorem stripeConsistent_of_invalid (hv : s.status.stripeValid = false) : StripeConsistent s :=
  ⟨fun h => absurd h (by simp [hv]), fun h => absurd h (by simp [hv])⟩

/-- A pure stripe holds its mirror. -/
theorem stripeConsistent_of_pure (hN : 64 ≤ s.blksz.toNat) (hp : PureStripe s) : StripeConsistent s := by
  refine ⟨fun _ q hq => ?_, fun _ _ => hp⟩
  rw [hp _ (by omega), hp q (by omega), Nat.add_mod_left]

theorem pureStripe_buildStripe (hN : 64 ≤ s.blksz.toNat) : PureStripe s.buildStripe := by
  intro x hx
  show s.buildStripe.stripeAt x = packed s (x % s.blksz.toNat)
  rw [State.buildStripe_blksz] at hx
  rw [stripeAt_buildStripe s hN]
  by_cases h : x < s.blksz.toNat
  · rw [if_pos h, Nat.mod_eq_of_lt h]
  · rw [if_neg h, if_pos hx, Nat.mod_eq_sub_mod (by omega), Nat.mod_eq_of_lt (by omega)]

/-- A tag goes to a word and its mirror alike, and leaves a tagged stripe. -/
theorem stripeConsistent_tagStripe (p : Nat) (w : Word) (h : StripeConsistent s) (hN : 64 ≤ s.blksz.toNat)
    (hp : p < s.blksz.toNat) : StripeConsistent (s.tagStripe p w) := by
  constructor
  case mirror =>
    intro hv q hq
    rw [State.tagStripe_blksz, stripeAt_tagStripe, stripeAt_tagStripe]
    by_cases hqp : q = p
    · rw [if_pos (by omega), if_pos (by omega)]
    · rw [if_neg (by omega), if_neg (by omega)]
      exact h.mirror hv q hq
  case pure => exact fun _ ht => absurd ht (by simp)

theorem stripeConsistent_effectOf (i : Instr) (h : StripeConsistent s) (hc : firstError (checksOf s i) = none) :
    StripeConsistent (effectOf s i) := by
  rw [firstError_eq_none_iff] at hc
  cases i with
  | cfg | clear | blkwr | blkwr4 => exact stripeConsistent_of_invalid rfl
  | stbuild =>
    simp only [checksOf, List.forall_mem_cons, State.needLarge_passes] at hc
    obtain ⟨-, hN, -⟩ := hc
    exact stripeConsistent_of_pure hN (pureStripe_buildStripe hN)
  | stwr p w =>
    simp only [checksOf, List.forall_mem_cons, State.needLarge_passes, outOfRange_passes,
      decide_eq_false_iff_not, not_le] at hc
    obtain ⟨-, hN, -, hp, -⟩ := hc
    exact stripeConsistent_tagStripe _ _ h hN hp
  | _ => exact stripeConsistent_of_same_block h rfl rfl rfl rfl rfl

end

/-- Settles O57: the block's writers drop the stripe, a build makes it pure, and a tag writes the mirror too. -/
theorem stepsKeepStripeConsistent : Obligations.StepsKeepStripeConsistent := by
  intro s t hs h
  refine step_keeps_of_effect StripeConsistent ?same ?effect hs h
  case same =>
    exact fun s t hd hs => stripeConsistent_of_same_block hs hd.stripe hd.block hd.blksz (by rw [hd.flags])
      (by rw [hd.flags])
  case effect => exact fun s i hs hc => stripeConsistent_effectOf i hs hc

/-! ## What `BT` holds at each presort stage (41_presort.md R141 to R144) -/

section
variable {s t : State}

theorem rotationsWith_of_same_block (hb : t.block = s.block) (hn : t.blksz = s.blksz) :
    rotationsWith t = rotationsWith s := by
  funext p
  simp only [rotationsWith, keyOf, State.blockAt, hb, hn]

/-- The presort stays consistent when its stage, `BT` and the block stay. -/
theorem presortConsistent_of_same_block (h : PresortConsistent s) (hbt : t.bt = s.bt) (hblock : t.block = s.block)
    (hsize : t.blksz = s.blksz) (hst : t.status.rsStage = s.status.rsStage) : PresortConsistent t := by
  have hat : t.btAt = s.btAt := by
    funext k
    rw [State.btAt, hbt, State.btAt]
  constructor <;> simp only [hst, hat, bucketStart, rotationsWith_of_same_block hblock hsize]
  case counted => exact h.counted
  case cumulated => exact h.cumulated
  case scattered => exact h.scattered

theorem presortConsistent_of_idle (hst : s.status.rsStage = .idle) : PresortConsistent s := by
  constructor <;> simp [hst]

theorem presortConsistent_countKeys (s : State) : PresortConsistent s.countKeys := by
  constructor
  case counted =>
    refine fun _ => ⟨fun k hk => ?_, by simp [btAt_countKeys]⟩
    rw [btAt_countKeys, if_pos hk, BitVec.toNat_ofNat]
    exact Nat.mod_eq_of_lt ((rotationsWith_le_size s _).trans_lt s.blksz.isLt)
  case cumulated => simp
  case scattered => simp

theorem presortConsistent_cumulate (h : PresortConsistent s) (hst : s.status.rsStage = .counted) :
    PresortConsistent s.cumulate := by
  obtain ⟨hcount, hend⟩ := h.counted hst
  exact ⟨by simp, fun _ => btAt_cumulate_of_counts s hcount hend, by simp⟩

/-- The rotations with a key up to `k` are those with a key below `k` and those with the key `k`. -/
theorem rotationsWith_le_eq_add (s : State) (k : Nat) :
    rotationsWith s (fun x => decide (x ≤ k)) =
      rotationsWith s (fun x => decide (x < k)) + rotationsWith s (fun x => x == k) := by
  cases k with
  | zero => simp [rotationsWith, beq_eq_decide]
  | succ k => simpa only [Nat.lt_succ_iff] using rotationsWith_le_succ s k

/-- Every word of `BT` after stage 3 (R143). -/
theorem btAt_scatter (s : State) (k : Nat) :
    s.scatter.btAt k = s.btAt k - BitVec.ofNat 32 (rotationsWith s (fun x => x == k)) := by
  rw [← countP_key_eq_rotationsWith]
  exact read_scatterAll_bt s.key k (s.bt, s.ptr) (List.range s.size)

/-- Of the cumulated counts, stage 3 makes the bucket starts. -/
theorem btAt_scatter_of_cumulated (s : State) (k : Nat)
    (h : (s.btAt k).toNat = rotationsWith s (fun x => decide (x ≤ k))) :
    (s.scatter.btAt k).toNat = rotationsWith s (fun x => decide (x < k)) := by
  have hle := rotationsWith_le_size s (fun x => decide (x ≤ k))
  have hN := s.blksz.isLt
  rw [rotationsWith_le_eq_add] at h hle
  rw [btAt_scatter, BitVec.toNat_sub, BitVec.toNat_ofNat, h]
  omega

theorem presortConsistent_scatter (h : PresortConsistent s) (hst : s.status.rsStage = .cumulated)
    (hN : s.blksz.toNat ≤ 2 ^ 31 - 1) : PresortConsistent s.scatter := by
  refine ⟨by simp, by simp, fun _ k hk => ?_⟩
  rw [bucketStart, btAt_scatter_of_cumulated s k (h.cumulated hst k hk)]
  have hle := rotationsWith_le_size s (fun x => decide (x < k))
  exact Nat.mod_eq_of_lt (by omega)

theorem toNat_or_sortedMask_mod (w : Word) : (w ||| sortedMask).toNat % 2 ^ 31 = w.toNat % 2 ^ 31 := by
  rw [BitVec.toNat_or, Nat.or_mod_two_pow, show sortedMask.toNat % 2 ^ 31 = 0 by decide, Nat.or_zero]

/-- Marking a bucket sorted leaves every bucket start: bit 31 is no part of it (43_memory_access.md R196). -/
theorem bucketStart_effectOf_btmark (s : State) (a : Word) :
    bucketStart (effectOf s (.btmark a)) = bucketStart s := by
  funext k
  show (Memory.read _ (Memory.put s.bt a.toNat _) k).toNat % 2 ^ 31 = _
  rw [Memory.read_put]
  split
  · next hk => rw [toNat_or_sortedMask_mod, hk, bucketStart]
  · rfl

theorem presortConsistent_btmark (a : Word) (h : PresortConsistent s) (hst : s.status.rsStage = .scattered) :
    PresortConsistent (effectOf s (.btmark a)) := by
  refine ⟨fun hc => ?counted, fun hc => ?cumulated, fun _ => ?scattered⟩
  case counted => exact absurd (hst.symm.trans hc) (by decide)
  case cumulated => exact absurd (hst.symm.trans hc) (by decide)
  case scattered =>
    rw [bucketStart_effectOf_btmark]
    exact h.scattered hst

theorem presortConsistent_effectOf (i : Instr) (hcfg : ConfigConsistent s) (h : PresortConsistent s)
    (hc : firstError (checksOf s i) = none) : PresortConsistent (effectOf s i) := by
  have hN : s.blksz.toNat ≤ 2 ^ 31 - 1 := hcfg.size.trans hcfg.capacity.2
  rw [firstError_eq_none_iff] at hc
  cases i with
  | cfg | clear | blkwr | blkwr4 => exact presortConsistent_of_idle rfl
  | btmark a =>
    simp only [checksOf, List.forall_mem_cons, State.needStage_passes] at hc
    obtain ⟨-, hst, -⟩ := hc
    exact presortConsistent_btmark a h hst
  | rscnt => exact presortConsistent_countKeys s
  | rscum =>
    simp only [checksOf, List.forall_mem_cons, State.needStage_passes] at hc
    obtain ⟨-, hst, -⟩ := hc
    exact presortConsistent_cumulate h hst
  | rssct =>
    simp only [checksOf, List.forall_mem_cons, State.needStage_passes] at hc
    obtain ⟨-, hst, -⟩ := hc
    exact presortConsistent_scatter h hst hN
  | rsort =>
    exact presortConsistent_scatter (presortConsistent_cumulate (presortConsistent_countKeys s) rfl) rfl hN
  | _ => exact presortConsistent_of_same_block h rfl rfl rfl rfl

theorem SameData.presortConsistent (hd : SameData s t) (h : PresortConsistent s) : PresortConsistent t :=
  presortConsistent_of_same_block h hd.bt hd.block hd.blksz (by rw [hd.flags])

end

/-- Settles O58: each stage makes its claim from that of the stage before, and the block's writers drop the presort. -/
theorem stepsKeepPresortConsistent : Obligations.StepsKeepPresortConsistent := by
  intro s t hcfg hs h
  refine (step_keeps_of_effect (fun s => ConfigConsistent s ∧ PresortConsistent s) ?same ?effect ⟨hcfg, hs⟩ h).2
  case same => exact fun s t hd ⟨hcfg, hs⟩ => ⟨hd.configConsistent hcfg, hd.presortConsistent hs⟩
  case effect =>
    exact fun s i ⟨hcfg, hs⟩ hc => ⟨configConsistent_effectOf i hcfg hc, presortConsistent_effectOf i hcfg hs hc⟩

/-! ## The order of the big buckets (10_state.md R42, 41_presort.md R148) -/

section
variable {s t : State}

/-- The bucket order stays when `BORD` and the bucket starts stay and `BIGORD_VALID` does not rise. -/
theorem orderConsistent_of_same_order (h : OrderConsistent s) (hbord : t.bord = s.bord)
    (hstart : bucketStart t = bucketStart s) (hv : t.status.bigordValid = true → s.status.bigordValid = true) :
    OrderConsistent t := by
  have hat : t.bordAt = s.bordAt := by
    funext j
    rw [State.bordAt, hbord, State.bordAt]
  intro ht
  simp only [bucketSize, hstart, hat]
  exact h (hv ht)

theorem orderConsistent_of_invalid (hv : s.status.bigordValid = false) : OrderConsistent s :=
  fun h => absurd h (by simp [hv])

theorem bucketStart_of_same_table (hbt : t.bt = s.bt) : bucketStart t = bucketStart s := by
  funext k
  simp only [bucketStart, State.btAt, hbt]

theorem isPermutation_orderBuckets (s : State) : IsPermutation s.orderBuckets.bordAt := by
  have hl : (List.range 256).map s.orderBuckets.bordAt = bigOrder fun b => bucketSize s b.toNat := by
    refine List.ext_getElem (by simp [length_bigOrder]) fun j hj hj' => ?_
    rw [length_bigOrder] at hj'
    rw [List.getElem_map, List.getElem_range, bordAt_orderBuckets, if_pos hj', List.getD_eq_getElem]
  rw [IsPermutation, hl]
  exact bigOrder_perm _

theorem orderConsistent_orderBuckets (s : State) : OrderConsistent s.orderBuckets := by
  refine fun _ => ⟨isPermutation_orderBuckets s, fun x y hxy hy => ?_⟩
  rw [bordAt_orderBuckets, bordAt_orderBuckets, if_pos (hxy.trans hy), if_pos hy]
  exact bigOrder_sorted (fun b => bucketSize s b.toNat) x y hxy hy

/-- Before the last stage no bucket order is valid (R30). -/
theorem bigordValid_eq_false_of_stage (h : ConfigConsistent s) (hst : s.status.rsStage ≠ .scattered) :
    s.status.bigordValid = false :=
  Bool.eq_false_iff.mpr fun hv => hst (h.ordered hv)

theorem orderConsistent_effectOf (i : Instr) (hcfg : ConfigConsistent s) (h : OrderConsistent s)
    (hc : firstError (checksOf s i) = none) : OrderConsistent (effectOf s i) := by
  rw [firstError_eq_none_iff] at hc
  cases i with
  | cfg | clear | blkwr | blkwr4 | rscnt | rsort => exact orderConsistent_of_invalid rfl
  | rscum | rssct =>
    simp only [checksOf, List.forall_mem_cons, State.needStage_passes] at hc
    have hv := bigordValid_eq_false_of_stage hcfg (by simp [hc])
    exact orderConsistent_of_invalid hv
  | btmark a => exact orderConsistent_of_same_order h rfl (bucketStart_effectOf_btmark s a) id
  | bigord => exact orderConsistent_orderBuckets s
  | _ => exact orderConsistent_of_same_order h rfl rfl id

end

/-- Settles O59: `BIGORD` orders the buckets, a mark leaves their starts, and a stage or a change of the block drops the
order. -/
theorem stepsKeepOrderConsistent : Obligations.StepsKeepOrderConsistent := by
  intro s t hcfg hs h
  refine (step_keeps_of_effect (fun s => ConfigConsistent s ∧ OrderConsistent s) ?same ?effect ⟨hcfg, hs⟩ h).2
  case same =>
    exact fun s t hd ⟨hcfg, hs⟩ => ⟨hd.configConsistent hcfg, orderConsistent_of_same_order hs hd.bord
      (bucketStart_of_same_table hd.bt) (by rw [hd.flags]; exact id)⟩
  case effect =>
    exact fun s i ⟨hcfg, hs⟩ hc => ⟨configConsistent_effectOf i hcfg hc, orderConsistent_effectOf i hcfg hs hc⟩

/-! ## The error registers (R35, 60_exceptions.md R246, R248) -/

section
variable {s t : State}

theorem extended_code_ne_zero (e : Err) : (0#24 ++ e.code : Word) ≠ 0 := by cases e <;> decide

theorem toNat_extended_code_le (e : Err) : (0#24 ++ e.code : Word).toNat ≤ 8 := by cases e <;> decide

theorem extended_code_ne_six (e : Err) (h : e ≠ .faulted) : (0#24 ++ e.code : Word) ≠ 6 := by
  cases e with
  | faulted => exact absurd rfl h
  | _ => decide

/-- The error registers stay consistent when they and `FAULT` stay. -/
theorem errorsConsistent_of_same_registers (h : ErrorsConsistent s) (hfault : t.status.fault = s.status.fault)
    (hcode : t.errcode = s.errcode) (hseq : t.errseq = s.errseq) (hinfo : t.errinfo = s.errinfo) :
    ErrorsConsistent t where
  code := by rw [hfault, hcode]; exact h.code
  cleared := by rw [hfault, hseq, hinfo]; exact h.cleared
  known := by rw [hcode]; exact h.known

/-- The first error sets `FAULT` beside its nonzero code, a later one changes nothing here; the code of the fault gate
itself is never the first. -/
theorem errorsConsistent_errored (e : Err) (info : Word) (hg : e = .faulted → s.status.fault = true)
    (h : ErrorsConsistent s) : ErrorsConsistent (errored s e.code info) := by
  cases hf : s.status.fault with
  | true =>
    exact errorsConsistent_of_same_registers h hf.symm (if_pos hf) (if_pos hf) (if_pos hf)
  | false =>
    have hne : e ≠ .faulted := fun he => by simp [hg he] at hf
    have hcode : (errored s e.code info).errcode = 0#24 ++ e.code := if_neg (by simp [hf])
    constructor
    case code => exact iff_of_false (hcode ▸ extended_code_ne_zero e) (by simp [errored])
    case cleared => exact fun h => nomatch h
    case known => exact hcode ▸ ⟨toNat_extended_code_le e, extended_code_ne_six e hne⟩

theorem errorsConsistent_clearError : ErrorsConsistent s.clearError :=
  ⟨by simp, by simp, by simp⟩

theorem errorsConsistent_effectOf (i : Instr) (h : ErrorsConsistent s) : ErrorsConsistent (effectOf s i) := by
  cases i with
  | clrerr => exact errorsConsistent_clearError
  | _ => exact errorsConsistent_of_same_registers h rfl rfl rfl rfl

end

/-- Settles O55: an error records its code with `FAULT`, `CLRERR` clears both, and nothing else writes them. -/
theorem stepsKeepErrorsConsistent : Obligations.StepsKeepErrorsConsistent := by
  intro s t hs h
  refine step_keeps ErrorsConsistent ?taken ?failed ?done hs h
  case taken => exact fun s rest hs => errorsConsistent_of_same_registers hs rfl rfl rfl rfl
  case failed => exact fun s e info hg hs => errorsConsistent_errored e info hg hs
  case done =>
    exact fun s i data hs _ => errorsConsistent_of_same_registers (errorsConsistent_effectOf i hs) rfl rfl rfl rfl

/-! ## How a command ends -/

section
variable {s t : State}

theorem code_le (e : Err) : e.code.toNat ≤ 8 := by cases e <;> decide

/-- A command ends in an error of a known code, whoever found it, or answers with its effect. -/
theorem exec_errs_or_answers {i : Instr} (h : exec i s = .next t) :
    (∃ code : BitVec 8, code ≠ 0 ∧ code.toNat ≤ 8 ∧ t = errored s code (opInfo (opcode i))) ∨
    (firstError (checksOf s i) = none ∧ t = answered (effectOf s i) (dataOf s i)) := by
  obtain ⟨-, rfl⟩ | ⟨-, e, -, -, rfl⟩ | ⟨-, hc, rfl⟩ := exec_cases h
  · exact .inl ⟨6, by decide, by decide, rfl⟩
  · exact .inl ⟨e.code, code_ne_zero e, code_le e, rfl⟩
  · exact .inr ⟨hc, rfl⟩

/-! ## The response to every word taken (R22, R72, R96, R240) -/

/-- `t` follows `s` by one command: `SEQ` counts it, it has one response of a known code, and tokens are only
appended. -/
def RespondsOnce (s t : State) : Prop :=
  t.seq = s.seq + 1 ∧ t.cmds = s.cmds ∧
    (∃ (code : BitVec 8) (data : Word), t.rsps = s.rsps ++ [code ++ 0#24 ++ data] ∧ code.toNat ≤ 8 ∧
      (code ≠ 0 → data = 0)) ∧
    ∃ ts : List Token, t.toks = s.toks ++ ts

theorem respondsOnce_errored (code : BitVec 8) (info : Word) (hcode : code.toNat ≤ 8) :
    RespondsOnce s (errored s code info) :=
  ⟨rfl, rfl, ⟨code, 0, rfl, hcode, fun _ => rfl⟩, [], (List.append_nil _).symm⟩

theorem respondsOnce_answered (i : Instr) (data : Word) : RespondsOnce s (answered (effectOf s i) data) := by
  obtain ⟨hseq, hcmds, hrsps, -, htoks⟩ := effectOf_frame s i
  refine ⟨congrArg (· + 1) hseq, hcmds, ⟨0, data, ?_, by decide, fun h => absurd rfl h⟩, htoks⟩
  rw [← hrsps]
  rfl

theorem respondsOnce_of_exec {i : Instr} (h : exec i s = .next t) : RespondsOnce s t := by
  obtain ⟨code, -, hle, rfl⟩ | ⟨-, rfl⟩ := exec_errs_or_answers h
  · exact respondsOnce_errored code _ hle
  · exact respondsOnce_answered i _

theorem respondsOnce_of_reject {cw : CommandWord} (h : rejectWord cw s = .next t) : RespondsOnce s t := by
  rw [rejectWord_eq] at h
  injection h with h
  subst h
  exact respondsOnce_errored _ _ (by split <;> decide)

end

/-- Settles O10: a word taken is executed or rejected, and either responds once. -/
theorem oneResponsePerWordTaken : Obligations.OneResponsePerWordTaken := by
  intro s t cw rest hc h
  have key : RespondsOnce { s with cmds := rest } t := by
    obtain ⟨hnil, -⟩ | ⟨cw', rest', hc', hrun⟩ := step_cases h
    · simp [hnil] at hc
    · obtain ⟨rfl, rfl⟩ := List.cons.inj (hc.symm.trans hc')
      obtain ⟨i, -, he⟩ | ⟨r, -, he⟩ := hrun
      · exact respondsOnce_of_exec he
      · exact respondsOnce_of_reject he
  exact key

/-! ## Who writes what (R24, R33, R34, R36, R37) -/

section
variable (s : State) (i : Instr)

theorem effectOf_blksz : (effectOf s i).blksz = s.blksz ∨ (∃ n, i = .cfg n) ∨ i = .clear := by
  cases i with
  | cfg n => exact .inr (.inl ⟨n, rfl⟩)
  | clear => exact .inr (.inr rfl)
  | _ => exact .inl rfl

theorem effectOf_ie (hc : firstError (checksOf s i) = none) : (effectOf s i).ie = s.ie ∨ ∃ v, i = .csrwr 4 v := by
  cases i with
  | csrwr r v =>
    rw [firstError_eq_none_iff] at hc
    simp only [checksOf, List.forall_mem_cons, bne_eq_false_iff_eq] at hc
    obtain ⟨-, hr, -⟩ := hc
    obtain rfl : r = 4 := BitVec.eq_of_toNat_eq hr
    exact .inr ⟨v, rfl⟩
  | _ => exact .inl rfl

theorem effectOf_zrun : (effectOf s i).zrun = s.zrun ∨ i = .mtfinit ∨ (∃ n, i = .cfg n) ∨ i = .clear ∨
    (∃ c, i = .mtfb c) ∨ i = .mtfeob ∨ i = .mtfblk := by
  cases i with
  | mtfinit | cfg | clear | mtfb | mtfeob | mtfblk => simp
  | _ => exact .inl rfl

theorem effectOf_block : (effectOf s i).block = s.block ∨ (∃ a v, i = .blkwr a v) ∨ ∃ a w, i = .blkwr4 a w := by
  cases i with
  | blkwr | blkwr4 => simp
  | _ => exact .inl rfl

theorem effectOf_stripe : (effectOf s i).stripe = s.stripe ∨ i = .stbuild ∨ ∃ p w, i = .stwr p w := by
  cases i with
  | stbuild | stwr => simp
  | _ => exact .inl rfl

theorem effectOf_ptr : (effectOf s i).ptr = s.ptr ∨ i = .rssct ∨ i = .rsort ∨ ∃ j v, i = .ptrwr j v := by
  cases i with
  | rssct | rsort | ptrwr => simp
  | _ => exact .inl rfl

theorem effectOf_bt : (effectOf s i).bt = s.bt ∨ i = .rscnt ∨ i = .rscum ∨ i = .rssct ∨ i = .rsort ∨
    ∃ k, i = .btmark k := by
  cases i with
  | rscnt | rscum | rssct | rsort | btmark => simp
  | _ => exact .inl rfl

theorem effectOf_bord : (effectOf s i).bord = s.bord ∨ i = .bigord := by
  cases i with
  | bigord => exact .inr rfl
  | _ => exact .inl rfl

theorem effectOf_mtf : (effectOf s i).mtf = s.mtf ∨ i = .mtfinit ∨ (∃ n, i = .cfg n) ∨ (∃ c, i = .mtfb c) ∨
    i = .mtfblk := by
  cases i with
  | mtfinit | cfg | mtfb | mtfblk => simp
  | _ => exact .inl rfl

theorem effectOf_toks : (effectOf s i).toks = s.toks ∨ (∃ c, i = .mtfb c) ∨ i = .mtfeob ∨ (∃ w, i = .mtfword w) ∨
    i = .mtfblk := by
  cases i with
  | mtfb | mtfeob | mtfword | mtfblk => simp
  | _ => exact .inl rfl

end

/-- Settles O49: an error writes none of them, and an effect each only by its commands. -/
theorem onlyTheListedCommandsWrite : Obligations.OnlyTheListedCommandsWrite := by
  intro i s t h
  obtain ⟨code, -, -, rfl⟩ | ⟨hc, rfl⟩ := exec_errs_or_answers h
  · exact ⟨rfl, rfl, .inl rfl, .inl rfl, .inl rfl, .inl rfl, .inl rfl, .inl rfl, .inl rfl, .inl rfl, .inl rfl, .inl rfl⟩
  · obtain ⟨-, hcmds, -, hcap, -⟩ := effectOf_frame s i
    exact ⟨hcap, hcmds, effectOf_blksz s i, effectOf_ie s i hc, effectOf_zrun s i, effectOf_block s i,
      effectOf_stripe s i, effectOf_ptr s i, effectOf_bt s i, effectOf_bord s i, effectOf_mtf s i, effectOf_toks s i⟩

/-! ## Who changes which flag (R26 to R32, R46) -/

section
variable (s : State) (i : Instr)

theorem effectOf_cfgValid : (effectOf s i).status.cfgValid = s.status.cfgValid ∨
    ((effectOf s i).status.cfgValid = true ∧ ∃ n, i = .cfg n) ∨
    ((effectOf s i).status.cfgValid = false ∧ i = .clear) := by
  cases i with
  | cfg n => exact .inr (.inl ⟨rfl, n, rfl⟩)
  | clear => exact .inr (.inr ⟨rfl, rfl⟩)
  | _ => exact .inl rfl

theorem effectOf_stripeValid : (effectOf s i).status.stripeValid = s.status.stripeValid ∨
    ((effectOf s i).status.stripeValid = true ∧ i = .stbuild) ∨
    ((effectOf s i).status.stripeValid = false ∧ dropsDerived i) := by
  cases i with
  | stbuild => exact .inr (.inl ⟨rfl, rfl⟩)
  | cfg | clear | blkwr | blkwr4 => exact .inr (.inr ⟨rfl, by simp [dropsDerived]⟩)
  | _ => exact .inl rfl

theorem effectOf_stripeTagged : (effectOf s i).status.stripeTagged = s.status.stripeTagged ∨
    ((effectOf s i).status.stripeTagged = true ∧ ∃ p w, i = .stwr p w) ∨
    ((effectOf s i).status.stripeTagged = false ∧ (i = .stbuild ∨ dropsDerived i)) := by
  cases i with
  | stwr p w => exact .inr (.inl ⟨rfl, p, w, rfl⟩)
  | stbuild => exact .inr (.inr ⟨rfl, .inl rfl⟩)
  | cfg | clear | blkwr | blkwr4 => exact .inr (.inr ⟨rfl, .inr (by simp [dropsDerived])⟩)
  | _ => exact .inl rfl

theorem effectOf_rsStage : (effectOf s i).status.rsStage = s.status.rsStage ∨
    ((effectOf s i).status.rsStage = .counted ∧ i = .rscnt) ∨
    ((effectOf s i).status.rsStage = .cumulated ∧ i = .rscum) ∨
    ((effectOf s i).status.rsStage = .scattered ∧ (i = .rssct ∨ i = .rsort)) ∨
    ((effectOf s i).status.rsStage = .idle ∧ dropsDerived i) := by
  cases i with
  | rscnt => exact .inr (.inl ⟨rfl, rfl⟩)
  | rscum => exact .inr (.inr (.inl ⟨rfl, rfl⟩))
  | rssct => exact .inr (.inr (.inr (.inl ⟨rfl, .inl rfl⟩)))
  | rsort => exact .inr (.inr (.inr (.inl ⟨rfl, .inr rfl⟩)))
  | cfg | clear | blkwr | blkwr4 => exact .inr (.inr (.inr (.inr ⟨rfl, by simp [dropsDerived]⟩)))
  | _ => exact .inl rfl

theorem effectOf_bigordValid : (effectOf s i).status.bigordValid = s.status.bigordValid ∨
    ((effectOf s i).status.bigordValid = true ∧ i = .bigord) ∨
    ((effectOf s i).status.bigordValid = false ∧ (i = .rscnt ∨ i = .rsort ∨ dropsDerived i)) := by
  cases i with
  | bigord => exact .inr (.inl ⟨rfl, rfl⟩)
  | rscnt => exact .inr (.inr ⟨rfl, .inl rfl⟩)
  | rsort => exact .inr (.inr ⟨rfl, .inr (.inl rfl)⟩)
  | cfg | clear | blkwr | blkwr4 => exact .inr (.inr ⟨rfl, .inr (.inr (by simp [dropsDerived]))⟩)
  | _ => exact .inl rfl

theorem effectOf_mtfValid : (effectOf s i).status.mtfValid = s.status.mtfValid ∨
    ((effectOf s i).status.mtfValid = true ∧ (i = .mtfinit ∨ ∃ n, i = .cfg n)) ∨
    ((effectOf s i).status.mtfValid = false ∧ i = .clear) := by
  cases i with
  | mtfinit => exact .inr (.inl ⟨rfl, .inl rfl⟩)
  | cfg n => exact .inr (.inl ⟨rfl, .inr ⟨n, rfl⟩⟩)
  | clear => exact .inr (.inr ⟨rfl, rfl⟩)
  | _ => exact .inl rfl

theorem effectOf_fault : (effectOf s i).status.fault = s.status.fault ∨
    ((effectOf s i).status.fault = false ∧ i = .clrerr) := by
  cases i with
  | clrerr => exact .inr ⟨rfl, rfl⟩
  | _ => exact .inl rfl

end

/-- Settles O50: an error sets `FAULT` alone, and an effect changes each flag only as tabulated. -/
theorem flagsChangeOnlyAsTabulated : Obligations.FlagsChangeOnlyAsTabulated := by
  intro i s t h
  obtain ⟨code, hne, -, rfl⟩ | ⟨-, rfl⟩ := exec_errs_or_answers h
  · exact ⟨.inl rfl, .inl rfl, .inl rfl, .inl rfl, .inl rfl, .inl rfl, .inr (.inr ⟨rfl, code, hne, rfl⟩)⟩
  · exact ⟨effectOf_cfgValid s i, effectOf_stripeValid s i, effectOf_stripeTagged s i, effectOf_rsStage s i,
      effectOf_bigordValid s i, effectOf_mtfValid s i, (effectOf_fault s i).imp_right .inl⟩

/-! ## No write beyond a capacity (R37, 20_memory.md R67) -/

section
variable {s t : State}

/-- Every written index of `m` is below `n`. -/
def Memory.Below {w : Nat} (m : Memory w) (n : Nat) : Prop := ∀ c ∈ m, c.1 < n

section
variable {w n : Nat} {m : Memory w}

theorem Memory.dropCell_subset (a : Nat) (m : Memory w) : Memory.dropCell a m ⊆ m := by
  cases m with
  | nil => exact List.Subset.refl _
  | cons c m =>
    rw [Memory.dropCell]
    split
    · exact List.subset_cons_self c m
    · exact List.Subset.refl _

theorem Memory.below_put {a : Nat} {v : BitVec w} (hm : m.Below n) (ha : a < n) : (Memory.put m a v).Below n := by
  intro c hc
  rw [Memory.put, List.mem_append, List.mem_cons] at hc
  obtain hc | rfl | hc := hc
  · exact hm c ((List.takeWhile_sublist _).subset hc)
  · exact ha
  · exact hm c ((List.dropWhile_sublist _).subset (Memory.dropCell_subset a _ hc))

theorem Memory.below_load {lo : Nat} {vs : List (BitVec w)} (hm : m.Below n) (hv : lo + vs.length ≤ n) :
    (Memory.load m lo vs).Below n := by
  intro c hc
  rw [Memory.load, List.mem_append, List.mem_append] at hc
  obtain (hc | hc) | hc := hc
  · exact hm c (List.mem_of_mem_filter hc)
  · obtain ⟨p, hp, rfl⟩ := List.mem_map.mp hc
    exact (List.snd_lt_add_of_mem_zipIdx hp).trans_le hv
  · exact hm c (List.mem_of_mem_filter hc)

end

theorem below_foldl_bumpCount (key : Nat → Nat) (n : Nat) (hk : ∀ i, key i < n) (l : List Nat) (bt : Memory 32)
    (h : bt.Below n) : (l.foldl (fun bt i => bumpCount bt (key i)) bt).Below n := by
  induction l generalizing bt with
  | nil => exact h
  | cons i l ih => exact ih _ (Memory.below_put h (hk i))

theorem below_scatterAll_bt (key : Nat → Nat) (n : Nat) (hk : ∀ i, key i < n) (mems : Memory 32 × Memory 32)
    (l : List Nat) (h : mems.1.Below n) : (scatterAll key l mems).1.Below n := by
  induction l with
  | nil => exact h
  | cons i l ih => exact Memory.below_put ih (hk i)

/-- The place a scatter computes for its next rotation. -/
theorem toNat_read_scatterAll_bt_sub_one (key : Nat → Nat) (i : Nat) (mems : Memory 32 × Memory 32) (l : List Nat) :
    (Memory.read Config.btInit (scatterAll key l mems).1 (key i) - 1).toNat = placeOf key mems.1 i l := by
  rw [read_scatterAll_bt, placeOf, List.countP_cons]
  simp [BitVec.ofNat_add, BitVec.sub_sub]

/-- The scatter writes `PTR` only at the places of the rotations. -/
theorem below_scatterAll_ptr (key : Nat → Nat) (n : Nat) (mems : Memory 32 × Memory 32) (l : List Nat)
    (hplace : ∀ i later, (i :: later) <:+ l → placeOf key mems.1 i later < n) (h : mems.2.Below n) :
    (scatterAll key l mems).2.Below n := by
  induction l with
  | nil => exact h
  | cons i l ih =>
    have hnext := (toNat_read_scatterAll_bt_sub_one key i mems l).trans_lt (hplace i l List.suffix_rfl)
    exact Memory.below_put (ih fun j later hj => hplace j later (hj.trans (List.suffix_cons i l))) hnext

/-- Of the cumulated counts, every rotation's place lies in the block. -/
theorem placeOf_lt_size (s : State) (h : ∀ k ≤ 65536, (s.btAt k).toNat = rotationsWith s (fun x => decide (x ≤ k)))
    (i : Nat) (later : List Nat) (hs : (i :: later) <:+ List.range s.blksz.toNat) :
    placeOf s.key s.bt i later < s.blksz.toNat := by
  have hbt := h (s.key i) (key_lt s i).le
  have hsize := rotationsWith_le_size s (fun x => decide (x ≤ s.key i))
  have hle := hs.sublist.countP_le (p := fun j => s.key j == s.key i)
  have hpos : 0 < (i :: later).countP fun j => s.key j == s.key i :=
    List.countP_pos_iff.mpr ⟨i, List.mem_cons_self, by simp⟩
  have hN := s.blksz.isLt
  rw [countP_key_eq_rotationsWith s (fun x => x == s.key i)] at hle
  rw [rotationsWith_le_eq_add] at hbt hsize
  rw [placeOf, ← State.btAt, BitVec.toNat_sub, BitVec.toNat_ofNat, hbt]
  omega

theorem withinCapacity_of_same_memories (h : WithinCapacity s) (hcap : t.cap = s.cap) (hblock : t.block = s.block)
    (hstripe : t.stripe = s.stripe) (hptr : t.ptr = s.ptr) (hbt : t.bt = s.bt) (hbord : t.bord = s.bord)
    (hmtf : t.mtf = s.mtf) : WithinCapacity t where
  block := by rw [hblock, hcap]; exact h.block
  stripe := by rw [hstripe, hcap]; exact h.stripe
  ptr := by rw [hptr, hcap]; exact h.ptr
  bt := by rw [hbt]; exact h.bt
  bord := by rw [hbord]; exact h.bord
  mtf := by rw [hmtf]; exact h.mtf

theorem withinCapacity_writeBlock (a : Nat) (bytes : List Byte) (h : WithinCapacity s)
    (hb : a + bytes.length ≤ s.cap.toNat) : WithinCapacity (s.writeBlock a bytes) :=
  { h with block := Memory.below_load h.block hb }

theorem withinCapacity_tagStripe (p : Nat) (w : Word) (h : WithinCapacity s) (hN : s.blksz.toNat ≤ s.cap.toNat)
    (hp : p < s.blksz.toNat) : WithinCapacity (s.tagStripe p w) := by
  have hword : (Memory.put s.stripe p w).Below (s.cap.toNat + 64) := Memory.below_put h.stripe (by omega)
  refine { h with stripe := ?_ }
  rw [State.tagStripe_stripe]
  split
  · exact Memory.below_put hword (show s.blksz.toNat + p < s.cap.toNat + 64 by omega)
  · exact hword

theorem withinCapacity_buildStripe (h : WithinCapacity s) (hN : s.blksz.toNat ≤ s.cap.toNat) :
    WithinCapacity s.buildStripe :=
  { h with
    stripe := Memory.below_load
      (Memory.below_load h.stripe
        (show 0 + _ ≤ s.cap.toNat + 64 by rw [List.length_map, List.length_range, size_eq]; omega))
      (show s.blksz.toNat + _ ≤ s.cap.toNat + 64 by rw [Memory.length_slice]; omega) }

theorem withinCapacity_countKeys (h : WithinCapacity s) : WithinCapacity s.countKeys :=
  { h with
    bt := below_foldl_bumpCount s.key 65537 (fun i => (key_lt s i).trans (by decide)) _ _
      (Memory.below_load h.bt (by rw [List.length_replicate, Nat.zero_add, btLen])) }

theorem withinCapacity_cumulate (h : WithinCapacity s) : WithinCapacity s.cumulate :=
  { h with bt := Memory.below_load h.bt (by rw [length_runningSums, Memory.length_slice, Nat.zero_add, btLen]) }

/-- The scatter stays in `PTR` because `BT` holds the cumulated counts. -/
theorem withinCapacity_scatter (h : WithinCapacity s) (hp : PresortConsistent s)
    (hst : s.status.rsStage = .cumulated) (hN : s.blksz.toNat ≤ s.cap.toNat) : WithinCapacity s.scatter :=
  { h with
    bt := below_scatterAll_bt s.key 65537 (fun i => (key_lt s i).trans (by decide)) (s.bt, s.ptr) _ h.bt
    ptr := below_scatterAll_ptr s.key (s.cap.toNat + 1) (s.bt, s.ptr) (List.range s.size)
      (fun i later hs => (placeOf_lt_size s (hp.cumulated hst) i later hs).trans (by omega)) h.ptr }

theorem withinCapacity_withEncoder (e : Encoder) (h : WithinCapacity s) (hl : e.list.length = 256) :
    WithinCapacity (s.withEncoder e) :=
  { h with mtf := Memory.below_load h.mtf (by omega) }

theorem length_foldl_encodeByte_list (cs : List Byte) (e : Encoder) (hl : e.list.length = 256) :
    (cs.foldl encodeByte e).list.length = 256 := by
  induction cs generalizing e with
  | nil => exact hl
  | cons c cs ih => exact ih _ (length_encodeByte_list e c hl)

theorem withinCapacity_initList (h : WithinCapacity s) : WithinCapacity s.initList :=
  { h with mtf := Memory.below_load h.mtf (by rw [length_identityBytes]) }

theorem withinCapacity_orderBuckets (h : WithinCapacity s) : WithinCapacity s.orderBuckets :=
  { h with bord := Memory.below_load h.bord (by rw [length_bigOrder]) }

theorem withinCapacity_effectOf (i : Instr) (hcfg : ConfigConsistent s) (hp : PresortConsistent s)
    (h : WithinCapacity s) (hc : firstError (checksOf s i) = none) : WithinCapacity (effectOf s i) := by
  have hN := hcfg.size
  rw [firstError_eq_none_iff] at hc
  cases i with
  | cfg | mtfinit =>
    exact withinCapacity_of_same_memories (withinCapacity_initList h) rfl rfl rfl rfl rfl rfl rfl
  | blkwr a v =>
    simp only [checksOf, List.forall_mem_cons, outOfRange_passes, Bool.or_eq_false_iff,
      decide_eq_false_iff_not, not_le] at hc
    obtain ⟨-, ⟨ha, -⟩, -⟩ := hc
    exact withinCapacity_writeBlock a.toNat [lowByte v] h (Nat.le_trans ha hN)
  | blkwr4 a w =>
    simp only [checksOf, List.forall_mem_cons, outOfRange_passes, decide_eq_false_iff_not, not_lt] at hc
    obtain ⟨-, ha, -⟩ := hc
    exact withinCapacity_writeBlock a.toNat (bytesOf w) h (Nat.le_trans ha hN)
  | ptrwr j v =>
    simp only [checksOf, List.forall_mem_cons, outOfRange_passes, decide_eq_false_iff_not, not_lt] at hc
    obtain ⟨-, hj, -⟩ := hc
    exact { h with ptr := Memory.below_put h.ptr (Nat.lt_succ_of_le (hj.trans hN)) }
  | btmark k =>
    simp only [checksOf, List.forall_mem_cons, outOfRange_passes, decide_eq_false_iff_not, not_lt] at hc
    obtain ⟨-, -, hk, -⟩ := hc
    exact { h with bt := Memory.below_put h.bt (Nat.lt_of_le_of_lt hk (by decide)) }
  | stwr p w =>
    simp only [checksOf, List.forall_mem_cons, outOfRange_passes, decide_eq_false_iff_not, not_le] at hc
    obtain ⟨-, -, -, hlt, -⟩ := hc
    exact withinCapacity_tagStripe p.toNat w h hN hlt
  | stbuild => exact withinCapacity_buildStripe h hN
  | rscnt => exact withinCapacity_countKeys h
  | rscum => exact withinCapacity_cumulate h
  | rssct =>
    simp only [checksOf, List.forall_mem_cons, State.needStage_passes] at hc
    obtain ⟨-, hst, -⟩ := hc
    exact withinCapacity_scatter h hp hst hN
  | rsort =>
    have hcum := presortConsistent_cumulate (presortConsistent_countKeys s) rfl
    exact withinCapacity_scatter (withinCapacity_cumulate (withinCapacity_countKeys h)) hcum rfl hN
  | bigord => exact withinCapacity_orderBuckets h
  | mtfb c => exact withinCapacity_withEncoder _ h (length_encodeByte_list s.encoder _ (length_mtfList s))
  | mtfblk =>
    exact withinCapacity_withEncoder _ h (length_foldl_encodeByte_list s.lastColumn s.encoder (length_mtfList s))
  | _ => exact withinCapacity_of_same_memories h rfl rfl rfl rfl rfl rfl rfl

end

/-- Settles O60: the range checks bound every index a command writes, and the presort's counts those of the scatter. -/
theorem stepsStayWithinCapacity : Obligations.StepsStayWithinCapacity := by
  intro s t hcfg hp hs h
  refine (step_keeps_of_effect (fun s => ConfigConsistent s ∧ PresortConsistent s ∧ WithinCapacity s) ?same ?effect
    ⟨hcfg, hp, hs⟩ h).2.2
  case same =>
    exact fun s t hd ⟨hcfg, hp, hs⟩ => ⟨hd.configConsistent hcfg, hd.presortConsistent hp,
      withinCapacity_of_same_memories hs hd.cap hd.block hd.stripe hd.ptr hd.bt hd.bord hd.mtf⟩
  case effect =>
    exact fun s i ⟨hcfg, hp, hs⟩ hc => ⟨configConsistent_effectOf i hcfg hc, presortConsistent_effectOf i hcfg hp hc,
      withinCapacity_effectOf i hcfg hp hs hc⟩

/-! ## The reset state (R44, R47) -/

/-- No element is written and every flag is 0, so only the range of `CAP` asks for a fact. -/
theorem configConsistent_reset : ConfigConsistent State.reset where
  capacity := Config.nmax_range
  size := Nat.zero_le _
  unconfigured := fun _ => ⟨rfl, rfl, rfl⟩
  stripe := nofun
  tagged := nofun
  ordered := nofun
  run := fun h => absurd rfl h

theorem memoriesCanonical_reset : MemoriesCanonical State.reset := ⟨rfl, rfl, rfl, rfl, rfl, rfl⟩

theorem errorsConsistent_reset : ErrorsConsistent State.reset := by
  refine ⟨iff_of_true rfl rfl, fun _ => ⟨rfl, rfl⟩, ?_⟩
  exact (by decide : (0 : Word).toNat ≤ 8 ∧ (0 : Word) ≠ 6)

theorem withinCapacity_reset : WithinCapacity State.reset := ⟨nofun, nofun, nofun, nofun, nofun, nofun⟩

/-- Settles O52: the four invariants under a flag say nothing at reset, as every flag is 0. -/
theorem resetMeetsTheInvariants : Obligations.ResetMeetsTheInvariants :=
  ⟨memoriesCanonical_reset, configConsistent_reset, errorsConsistent_reset, nofun, stripeConsistent_of_invalid rfl,
    presortConsistent_of_idle rfl, orderConsistent_of_invalid rfl, withinCapacity_reset⟩

end Sys2Proof.Machine
end

section
/-! PROOFS of the family 30_encoding.md: the decoder and the encoder are inverse to each other, and the decoder is the
opcode map with its masks. -/

namespace Sys2Proof

open Sys2Proof.Safety

/-! ## The opcode map as a list (R94) -/

theorem nodup_opcodes : (opcodeTable.map Prod.fst).Nodup := by decide

/-- In a list of pairs whose keys differ, a lookup finds exactly the pairs of the list. -/
theorem lookup_eq_some_iff_mem {α β : Type} [BEq α] [LawfulBEq α] {l : List (α × β)} (hl : (l.map Prod.fst).Nodup)
    (k : α) (v : β) : l.lookup k = some v ↔ (k, v) ∈ l := by
  rw [List.lookup_eq_some_iff]
  constructor
  · rintro ⟨before, after, rfl, -⟩
    exact List.mem_append_right before List.mem_cons_self
  · intro h
    obtain ⟨before, after, rfl⟩ := List.append_of_mem h
    rw [List.map_append, List.map_cons, List.nodup_middle, List.nodup_cons] at hl
    refine ⟨before, after, rfl, fun p hp => bne_iff_ne.mpr fun hk => hl.1 ?_⟩
    exact List.mem_append_left _ (List.mem_map.mpr ⟨p, hp, hk.symm⟩)

section
variable (a b c : Word) (i : Instr)

@[simp] theorem Shape.build_z_eq_some (j : Instr) :
    (Shape.z j).build a b c = some i ↔ (a = 0 ∧ b = 0 ∧ c = 0) ∧ j = i := by simp [Shape.build]

@[simp] theorem Shape.build_a_eq_some (f : Word → Instr) :
    (Shape.a f).build a b c = some i ↔ (b = 0 ∧ c = 0) ∧ f a = i := by simp [Shape.build]

@[simp] theorem Shape.build_ab_eq_some (f : Word → Word → Instr) :
    (Shape.ab f).build a b c = some i ↔ c = 0 ∧ f a b = i := by simp [Shape.build]

@[simp] theorem Shape.build_abc_eq_some (f : Word → Word → Word → Instr) :
    (Shape.abc f).build a b c = some i ↔ f a b c = i := by simp [Shape.build]

end

/-- A word decodes exactly when its opcode has a row, `RSV` is zero and the row's format builds a command from the
operand fields. -/
theorem decode_eq_ok_iff (cw : CommandWord) (i : Instr) : decode cw = .ok i ↔
    ∃ sh, (opField cw, sh) ∈ opcodeTable ∧ rsvField cw = 0 ∧
      sh.build (aField cw) (bField cw) (cField cw) = some i := by
  simp only [← lookup_eq_some_iff_mem nodup_opcodes, decode]
  split
  · next hl => simp [hl]
  · next sh hl =>
    simp only [hl, Option.some.injEq, exists_eq_left']
    split
    · next hr => split <;> simp [*]
    · next hr => simp only [hr, false_and, reduceCtorEq]

/-! ## The decoder and the encoder (R90 to R95) -/

/-- Every command stands in the opcode map: its row builds it from its operands. -/
theorem exists_row_building (i : Instr) : ∃ sh, opcodeTable.lookup (opcode i) = some sh ∧
    sh.build (operandA i) (operandB i) (operandC i) = some i := by
  cases i <;> exact ⟨_, rfl, rfl⟩

/-- Settles O2: an encoding is an assembled word, and the command's own row builds the command from its fields. -/
theorem decodeOfEncodeIsIdentity : Obligations.DecodeOfEncodeIsIdentity := by
  intro i
  obtain ⟨sh, hl, hb⟩ := exists_row_building i
  rw [encode, decode_assemble, hl]
  simp only [hb]

/-- `i` has opcode `op` and the operands `a`, `b`, `c`. -/
def HasFields (i : Instr) (op : BitVec 8) (a b c : Word) : Prop :=
  opcode i = op ∧ operandA i = a ∧ operandB i = b ∧ operandC i = c

/-- What a format of opcode `op` builds has that opcode, and as operands the fields the format uses. -/
def Shape.BuildsFor (op : BitVec 8) : Shape → Prop
  | .z i => HasFields i op 0 0 0
  | .a f => ∀ a, HasFields (f a) op a 0 0
  | .ab f => ∀ a b, HasFields (f a b) op a b 0
  | .abc f => ∀ a b c, HasFields (f a b c) op a b c

/-- Each row of the opcode map agrees with `opcode` and the operand accessors of the encoder. -/
theorem opcodeTable_buildsFor : ∀ row ∈ opcodeTable, row.2.BuildsFor row.1 := by
  simp [opcodeTable, Shape.BuildsFor, HasFields, opcode, operandA, operandB, operandC]

/-- A format that builds a command from operand fields leaves none of them out: the fields are its operands. -/
theorem Shape.BuildsFor.hasFields {op : BitVec 8} {sh : Shape} (h : sh.BuildsFor op) {a b c : Word} {i : Instr}
    (hb : sh.build a b c = some i) : HasFields i op a b c := by
  cases sh with
  | z j =>
    obtain ⟨⟨rfl, rfl, rfl⟩, rfl⟩ := (Shape.build_z_eq_some ..).mp hb
    exact h
  | a f =>
    obtain ⟨⟨rfl, rfl⟩, rfl⟩ := (Shape.build_a_eq_some ..).mp hb
    exact h a
  | ab f =>
    obtain ⟨rfl, rfl⟩ := (Shape.build_ab_eq_some ..).mp hb
    exact h a b
  | abc f =>
    obtain rfl := (Shape.build_abc_eq_some ..).mp hb
    exact h a b c

/-- Settles O3: the fields of a word that decodes are the opcode, a zero `RSV` and the operands of its command, and
they are all of the word. -/
theorem encodeOfDecodeIsIdentity : Obligations.EncodeOfDecodeIsIdentity := by
  intro cw i h
  obtain ⟨sh, hrow, hrsv, hbuild⟩ := (decode_eq_ok_iff cw i).mp h
  obtain ⟨hop, ha, hb, hc⟩ := (opcodeTable_buildsFor _ hrow).hasFields hbuild
  rw [encode, hop, ha, hb, hc, ← hrsv, assemble_fields]

/-! ## Mask and match (R91) -/

/-- The bits of an assembled word lie apart, so a mask cuts each field by itself. -/
theorem assemble_and (op op' : BitVec 8) (rsv rsv' : BitVec 24) (c c' a a' b b' : Word) :
    assemble op rsv c a b &&& assemble op' rsv' c' a' b' =
      assemble (op &&& op') (rsv &&& rsv') (c &&& c') (a &&& a') (b &&& b') := by
  apply BitVec.eq_of_getLsbD_eq
  intro i _
  simp only [BitVec.getLsbD_and, getLsbD_assemble]
  split_ifs <;> rfl

theorem assemble_inj {op op' : BitVec 8} {rsv rsv' : BitVec 24} {c c' a a' b b' : Word} :
    assemble op rsv c a b = assemble op' rsv' c' a' b' ↔
      op = op' ∧ rsv = rsv' ∧ c = c' ∧ a = a' ∧ b = b' := by
  constructor
  · intro h
    have hop := congrArg opField h
    have hrsv := congrArg rsvField h
    have hc := congrArg cField h
    have ha := congrArg aField h
    have hb := congrArg bField h
    simp only [opField_assemble, rsvField_assemble, cField_assemble, aField_assemble, bField_assemble] at *
    exact ⟨hop, hrsv, hc, ha, hb⟩
  · rintro ⟨rfl, rfl, rfl, rfl, rfl⟩
    rfl

/-- `match = OP * 2^120` is the word with the opcode and nothing else. -/
theorem append_zero_eq_assemble (op : BitVec 8) : op ++ 0#120 = assemble op 0 0 0 0 := by
  apply BitVec.eq_of_toNat_eq
  simp only [assemble, BitVec.toNat_append]
  simp [← Nat.shiftLeft_add]

/-- What a format's row reads from the operand fields `A`, `B`, `C`. -/
def Shape.command : Shape → Word → Word → Word → Instr
  | .z i => fun _ _ _ => i
  | .a f => fun a _ _ => f a
  | .ab f => fun a b _ => f a b
  | .abc f => f

/-- A row of the opcode map in the form of R91. -/
def rowOf (row : BitVec 8 × Shape) : Row := ⟨row.1, row.2.mask, row.2.command⟩

/-- The rows written from R91 and R94 are those of the model's opcode map. -/
theorem rows_eq_map_rowOf : rows = opcodeTable.map rowOf := rfl

@[simp] theorem op_and_ones (x : BitVec 8) : x &&& 255#8 = x := BitVec.and_allOnes

@[simp] theorem rsv_and_ones (x : BitVec 24) : x &&& 16777215#24 = x := BitVec.and_allOnes

@[simp] theorem operand_and_ones (x : Word) : x &&& 4294967295#32 = x := BitVec.and_allOnes

theorem fits_rowOf_iff (op : BitVec 8) (sh : Shape) (cw : CommandWord) :
    (rowOf (op, sh)).fits cw = true ↔ cw &&& sh.mask = assemble op 0 0 0 0 := by
  rw [Row.fits, beq_iff_eq, ← append_zero_eq_assemble]
  rfl

/-- A word fits a row exactly when its opcode is the row's, and `RSV` and the operand fields the format does not use
are zero; what the row reads is then what the format builds. -/
theorem fits_read_rowOf_iff (op : BitVec 8) (sh : Shape) (cw : CommandWord) (i : Instr) :
    ((rowOf (op, sh)).fits cw = true ∧ i = (rowOf (op, sh)).read cw) ↔
      opField cw = op ∧ rsvField cw = 0 ∧ sh.build (aField cw) (bField cw) (cField cw) = some i := by
  have hread : (rowOf (op, sh)).read cw = sh.command (aField cw) (bField cw) (cField cw) := rfl
  have hmask : cw &&& sh.mask =
      assemble (opField cw) (rsvField cw) (cField cw) (aField cw) (bField cw) &&& sh.mask := by rw [assemble_fields]
  rw [fits_rowOf_iff, hread, hmask]
  cases sh <;>
    simp [Shape.mask, assemble_and, assemble_inj, Shape.command, eq_comm (a := i), and_assoc, and_left_comm, and_comm]

theorem op_of_fits {r : Row} (hr : r ∈ rows) {cw : CommandWord} (h : r.fits cw = true) : r.op = opField cw := by
  rw [rows_eq_map_rowOf] at hr
  obtain ⟨row, -, rfl⟩ := List.mem_map.mp hr
  exact ((fits_read_rowOf_iff row.1 row.2 cw _).mp ⟨h, rfl⟩).1.symm

theorem nodup_rows_op : (rows.map Row.op).Nodup := by decide

/-- Settles O4: the rows are the opcode map's and fit by the fields; two rows differ in the opcode they fit. -/
theorem wordIsCommandExactlyWhenARowFits : Obligations.WordIsCommandExactlyWhenARowFits := by
  refine ⟨fun cw i => ?_, fun cw => ?_⟩
  · rw [decode_eq_ok_iff, rows_eq_map_rowOf]
    simp [fits_read_rowOf_iff]
  · calc (rows.filter fun r => r.fits cw).length
        = rows.countP (fun r => r.fits cw) := List.countP_eq_length_filter.symm
      _ ≤ rows.countP (fun r => r.op == opField cw) :=
          List.countP_mono_left fun r hr h => beq_iff_eq.mpr (op_of_fits hr h)
      _ = (rows.map Row.op).count (opField cw) := by rw [List.count, List.countP_map]; rfl
      _ ≤ 1 := List.nodup_iff_count_le_one.mp nodup_rows_op _

/-! ## Words of the spec's examples -/

/-- Settles O1: the decoder evaluated on each of the eight words. -/
theorem exampleWordsDecode : Obligations.ExampleWordsDecode := by
  unfold Obligations.ExampleWordsDecode
  decide

end Sys2Proof
end

section
/-! PROOFS of the family 40_stripe_compare.md: the build of the stripe, and `CMP` as the order of the first unequal pair
of words on any stripe and as the lexicographic order of two rotations on a pure one. -/

namespace Sys2Proof.Machine

open Sys2Proof.Safety

/-! ## `STBUILD` (40_stripe_compare.md R121) -/

/-- A command in the terms of the statements, once its checks pass. -/
theorem exec_answers (i : Instr) {s : State} (hf : s.status.fault = false)
    (hc : firstError (checksOf s i) = none) : exec i s = .next (answered (effectOf s i) (dataOf s i)) := by
  rw [exec_eq_command]
  exact command_answers _ _ _ s (gated_eq_false_of_no_fault s _ hf) hc

/-- A command in the terms of the statements, once one of its checks fails. -/
theorem exec_errs (i : Instr) {s : State} (e : Err) (hf : s.status.fault = false)
    (hc : firstError (checksOf s i) = some e) : exec i s = .next (errored s e.code (opInfo (opcode i))) := by
  rw [exec_eq_command]
  exact command_errs _ _ _ s e (gated_eq_false_of_no_fault s _ hf) hc

/-- Settles O30: its checks in order, and `stripeAt_buildStripe` at every index. -/
theorem stbuildBuildsThePureStripe : Obligations.StbuildBuildsThePureStripe := by
  refine ⟨decodeOfEncodeIsIdentity .stbuild, fun s hf =>
    ⟨fun hc => ?notConfigured, fun hc hN => ?small, fun hc hN => ?built⟩⟩
  case notConfigured =>
    exact exec_errs .stbuild .notConfigured hf (by simp [checksOf, firstError_cons, State.needConfig, hc])
  case small =>
    exact exec_errs .stbuild .smallBlock hf
      (by simp [checksOf, firstError_cons, State.needConfig, State.needLarge, hc, hN])
  case built =>
    have hp : firstError (checksOf s .stbuild) = none := by simp [firstError_eq_none_iff, checksOf, hc, hN]
    exact ⟨s.buildStripe.stripe, exec_answers .stbuild hf hp, stripeAt_buildStripe s hN⟩

/-! ## The answer of `CMP` on any stripe (R123, R126) -/

theorem firstPairOrder_cons (u v : Word) (ps : List (Word × Word)) :
    firstPairOrder ((u, v) :: ps) = if u = v then firstPairOrder ps else if u < v then cmpLess else cmpGreater := by
  by_cases h : u = v
  · simp [firstPairOrder, h]
  · simp [firstPairOrder, h, cmpLess, cmpGreater, BitVec.lt_def]

/-- `CMP` with its checks passed answers the order of the first unequal pair its batches meet. -/
theorem exec_cmp {s : State} (i1 i2 depth : Word) (hf : s.status.fault = false) (hc : s.status.cfgValid = true)
    (hN : 64 ≤ s.blksz.toNat) (hv : s.status.stripeValid = true) (h1 : i1.toNat < s.blksz.toNat)
    (h2 : i2.toNat < s.blksz.toNat) :
    exec (.cmp i1 i2 depth) s = .next (answered s (firstPairOrder (stripePairs s
      ((i1.toNat + depth.toNat) % s.blksz.toNat) ((i2.toNat + depth.toNat) % s.blksz.toNat)))) := by
  have hp : firstError (checksOf s (.cmp i1 i2 depth)) = none := by
    simp [firstError_eq_none_iff, checksOf, hc, hN, hv, h1, h2]
  rw [exec_answers _ hf hp, dataOf, compare_eq_firstPairOrder s hN, effectOf]

/-- Settles O31: its checks in order, and the compare loop as the order of the first unequal pair. -/
theorem cmpIsTheOrderOfTheFirstUnequalPair : Obligations.CmpIsTheOrderOfTheFirstUnequalPair := by
  refine fun i1 i2 depth => ⟨decodeOfEncodeIsIdentity (.cmp i1 i2 depth), fun s hf =>
    ⟨fun hc => ?notConfigured, fun hc hN => ?small, fun hc hN hv => ?notBuilt, fun hc hN hv hr => ?range,
      fun hc hN hv h1 h2 => exec_cmp i1 i2 depth hf hc hN hv h1 h2⟩⟩
  case notConfigured =>
    exact exec_errs (.cmp i1 i2 depth) .notConfigured hf
      (by simp [checksOf, firstError_cons, State.needConfig, hc])
  case small =>
    exact exec_errs (.cmp i1 i2 depth) .smallBlock hf
      (by simp [checksOf, firstError_cons, State.needConfig, State.needLarge, hc, hN])
  case notBuilt =>
    exact exec_errs (.cmp i1 i2 depth) .sequence hf
      (by simp [checksOf, firstError_cons, State.needConfig, State.needLarge, State.needStripe, hc, hN, hv])
  case range =>
    exact exec_errs (.cmp i1 i2 depth) .range hf (by
      simp [checksOf, firstError_cons, State.needConfig, State.needLarge, State.needStripe, outOfRange, hc, hN, hv, hr])

/-! ## The laws of `CMP` on any stripe (R125 (a), (b), R126) -/

theorem stripePairs_swap (s : State) (a b : Nat) : stripePairs s b a = (stripePairs s a b).map Prod.swap := by
  simp [stripePairs]

/-- Swapping every pair negates the order. -/
theorem firstPairOrder_map_swap (ps : List (Word × Word)) :
    firstPairOrder (ps.map Prod.swap) = -firstPairOrder ps := by
  induction ps with
  | nil => rfl
  | cons p ps ih =>
    obtain ⟨u, v⟩ := p
    simp only [List.map_cons, Prod.swap_prod_mk, firstPairOrder_cons, ih, ← BitVec.toNat_inj, BitVec.lt_def]
    obtain h | h | h := lt_trichotomy u.toNat v.toNat
    · rw [if_neg h.ne', if_neg h.asymm, if_neg h.ne, if_pos h]
      rfl
    · rw [if_pos h.symm, if_pos h]
    · rw [if_neg h.ne, if_pos h, if_neg h.ne', if_neg h.asymm]
      rfl

theorem firstPairOrder_stripePairs_self (s : State) (a : Nat) : firstPairOrder (stripePairs s a a) = 0 := by
  have hn : (stripePairs s a a).find? (fun p => p.1 != p.2) = none := by simp [stripePairs]
  simp [firstPairOrder, hn]

/-- Settles O34: the two sides of the batches are read alike. -/
theorem cmpIsReflexiveAndAntisymmetric : Obligations.CmpIsReflexiveAndAntisymmetric := by
  intro s i1 i2 depth hf hc hN hv h1 h2
  refine ⟨?_, _, exec_cmp i1 i2 depth hf hc hN hv h1 h2, ?_⟩
  · rw [exec_cmp i1 i1 depth hf hc hN hv h1 h1, firstPairOrder_stripePairs_self]
  · rw [exec_cmp i2 i1 depth hf hc hN hv h2 h1, stripePairs_swap, firstPairOrder_map_swap]

/-! ## The lexicographic order of byte strings (R97) -/

/-- The result word for two byte strings compared lexicographically. -/
def byteOrder (x y : List Byte) : Word := orderWord (x < y) (x = y)

@[simp] theorem byteOrder_self (x : List Byte) : byteOrder x x = 0 := by simp [byteOrder, orderWord]

theorem byteOrder_cons (b c : Byte) (x y : List Byte) : byteOrder (b :: x) (c :: y) =
    if b = c then byteOrder x y else if b < c then cmpLess else cmpGreater := by
  by_cases h : b = c
  · simp [byteOrder, h]
  · simp [byteOrder, orderWord, List.cons_lt_cons_iff, h, cmpLess, cmpGreater]

/-- Strings are ordered by their first parts of equal length, and where those are equal by what follows. -/
theorem byteOrder_append {x y : List Byte} (h : x.length = y.length) (x' y' : List Byte) :
    byteOrder (x ++ x') (y ++ y') = if x = y then byteOrder x' y' else byteOrder x y := by
  induction x generalizing y with
  | nil =>
    obtain rfl := List.length_eq_zero_iff.mp h.symm
    simp
  | cons b x ih =>
    obtain ⟨c, y, rfl⟩ := List.exists_cons_of_length_eq_add_one h.symm
    simp only [List.cons_append, byteOrder_cons, ih (Nat.succ.inj h), List.cons.injEq]
    by_cases hb : b = c <;> simp [hb]

theorem toNat_append_byte {n : Nat} (x : BitVec n) (b : Byte) : (x ++ b).toNat = x.toNat * 256 + b.toNat := by
  rw [BitVec.toNat_append, ← Nat.shiftLeft_add_eq_or_of_lt b.isLt, Nat.shiftLeft_eq]

/-- A word is the number its four bytes write, most significant first (20_memory.md R61). -/
theorem bytesOf_eq_iff (w : Word) (b c d e : Byte) : bytesOf w = [b, c, d, e] ↔
    w.toNat = ((b.toNat * 256 + c.toNat) * 256 + d.toNat) * 256 + e.toNat := by
  have hw := w.isLt
  have hb := b.isLt
  have hc := c.isLt
  have hd := d.isLt
  have he := e.isLt
  simp only [bytesOf, List.cons.injEq, and_true, ← BitVec.toNat_inj, BitVec.extractLsb'_toNat,
    Nat.shiftRight_eq_div_pow]
  omega

theorem bytesOf_inj {u v : Word} : bytesOf u = bytesOf v ↔ u = v := by
  refine ⟨fun h => BitVec.eq_of_toNat_eq ?_, congrArg bytesOf⟩
  exact ((bytesOf_eq_iff u _ _ _ _).mp h).trans ((bytesOf_eq_iff v _ _ _ _).mp rfl).symm

/-- An unsigned compare of two words is the lexicographic compare of their bytes (R120). -/
theorem byteOrder_bytesOf (u v : Word) : byteOrder (bytesOf u) (bytesOf v) =
    if u = v then 0 else if u < v then cmpLess else cmpGreater := by
  simp only [bytesOf, byteOrder_cons, byteOrder_self, ← BitVec.toNat_inj, BitVec.lt_def]
  have hu := (bytesOf_eq_iff u _ _ _ _).mp rfl
  have hv := (bytesOf_eq_iff v _ _ _ _).mp rfl
  grind

/-- The order of the first unequal pair of words is the order of the byte strings the words write. -/
theorem firstPairOrder_eq_byteOrder (ps : List (Word × Word)) :
    firstPairOrder ps = byteOrder (ps.flatMap fun p => bytesOf p.1) (ps.flatMap fun p => bytesOf p.2) := by
  induction ps with
  | nil => exact (byteOrder_self []).symm
  | cons p ps ih =>
    obtain ⟨u, v⟩ := p
    have hl : (bytesOf u).length = (bytesOf v).length := rfl
    simp only [firstPairOrder_cons, ih, List.flatMap_cons, byteOrder_append hl, byteOrder_bytesOf, bytesOf_inj]
    by_cases h : u = v <;> simp [h]

/-! ## Rotations as cyclic strings (R120, R122, R124) -/

/-- The `n` bytes of the cyclic block from position `i` on. -/
def bytesFrom (s : State) (i n : Nat) : List Byte := (List.range n).map fun k => s.cyclicByte (i + k)

section
variable {s : State}

theorem bytesFrom_size (i : Nat) : bytesFrom s i s.blksz.toNat = rotation s i := rfl

@[simp] theorem length_bytesFrom (i n : Nat) : (bytesFrom s i n).length = n := by simp [bytesFrom]

theorem bytesFrom_add (i m n : Nat) : bytesFrom s i (m + n) = bytesFrom s i m ++ bytesFrom s (i + m) n := by
  simp [bytesFrom, List.range_add, Nat.add_assoc]

theorem cyclicByte_congr {p q : Nat} (h : p ≡ q [MOD s.blksz.toNat]) : s.cyclicByte p = s.cyclicByte q :=
  congrArg s.blockAt h

theorem bytesFrom_congr {i j : Nat} (h : i ≡ j [MOD s.blksz.toNat]) (n : Nat) : bytesFrom s i n = bytesFrom s j n :=
  List.map_congr_left fun k _ => cyclicByte_congr (h.add_right k)

theorem packedWord_congr {p q : Nat} (h : p ≡ q [MOD s.blksz.toNat]) : s.packedWord p = s.packedWord q := by
  simp only [State.packedWord, cyclicByte_congr h, cyclicByte_congr (h.add_right _)]

/-- A packed word writes the four bytes from its position on. -/
theorem bytesOf_packedWord (p : Nat) : bytesOf (s.packedWord p) = bytesFrom s p 4 := by
  have h : ∀ b c d e : Byte, (b ++ c ++ d ++ e).toNat =
      ((b.toNat * 256 + c.toNat) * 256 + d.toNat) * 256 + e.toNat := by simp only [toNat_append_byte, implies_true]
  exact (bytesOf_eq_iff _ _ _ _ _).mpr (h _ _ _ _)

/-- On a pure stripe the words read are those of consecutive four byte pieces, wherever the pointers wrap. -/
theorem stripeAt_pairIndex_of_pure (hp : PureStripe s) (hN : 64 ≤ s.blksz.toNat) (a p : Nat) :
    s.stripeAt (pairIndex s a p) = s.packedWord (a + 4 * p) := by
  have hmod : ∀ x, x % s.blksz.toNat < s.blksz.toNat := fun x => Nat.mod_lt _ (by omega)
  have hlt : pairIndex s a p < s.blksz.toNat + 64 := by
    have := hmod (a + 64 * (p / 16))
    rw [pairIndex]
    omega
  rw [hp _ hlt, ← packedWord_eq_packed s _ (hmod _)]
  refine packedWord_congr ((Nat.mod_modEq _ _).trans ?_)
  calc pairIndex s a p ≡ a + 64 * (p / 16) + 4 * (p % 16) [MOD s.blksz.toNat] := (Nat.mod_modEq _ _).add_right _
    _ = a + 4 * p := by omega

theorem flatMap_stripeAt_pairIndex_of_pure (hp : PureStripe s) (hN : 64 ≤ s.blksz.toNat) (a n : Nat) :
    ((List.range n).flatMap fun p => bytesOf (s.stripeAt (pairIndex s a p))) = bytesFrom s a (4 * n) := by
  induction n with
  | zero => rfl
  | succ n ih =>
    rw [List.range_succ, List.flatMap_append, ih, List.flatMap_singleton, stripeAt_pairIndex_of_pure hp hN,
      bytesOf_packedWord, Nat.mul_succ, bytesFrom_add]

/-- Equal rotations agree at every cyclic position. -/
theorem bytesFrom_eq_of_rotation_eq {i j : Nat} (h : rotation s i = rotation s j) (hN : 0 < s.blksz.toNat) (n : Nat) :
    bytesFrom s i n = bytesFrom s j n := by
  have hk : ∀ k < s.blksz.toNat, s.cyclicByte (i + k) = s.cyclicByte (j + k) := fun k hk =>
    List.map_inj_left.mp h k (List.mem_range.mpr hk)
  refine List.map_congr_left fun k _ => ?_
  have hmod := (Nat.mod_modEq k s.blksz.toNat).symm
  rw [cyclicByte_congr (hmod.add_left i), hk _ (Nat.mod_lt k hN), cyclicByte_congr (hmod.symm.add_left j)]

/-- Bytes beyond a whole rotation never change the order (R124). -/
theorem byteOrder_bytesFrom_size_add (hN : 0 < s.blksz.toNat) (i j d : Nat) :
    byteOrder (bytesFrom s i (s.blksz.toNat + d)) (bytesFrom s j (s.blksz.toNat + d)) =
      byteOrder (rotation s i) (rotation s j) := by
  by_cases h : rotation s i = rotation s j
  · rw [bytesFrom_eq_of_rotation_eq h hN, h, byteOrder_self, byteOrder_self]
  · simp only [← bytesFrom_size] at h ⊢
    rw [bytesFrom_add, bytesFrom_add, byteOrder_append (by simp), if_neg h]

/-- On a pure stripe the batches order the two rotations they start at (R124). -/
theorem firstPairOrder_stripePairs_of_pure (hp : PureStripe s) (hN : 64 ≤ s.blksz.toNat) (a b : Nat) :
    firstPairOrder (stripePairs s a b) = byteOrder (rotation s a) (rotation s b) := by
  obtain ⟨d, hd⟩ : ∃ d, 4 * (16 * ((s.blksz.toNat + 63) / 64)) = s.blksz.toNat + d :=
    ⟨4 * (16 * ((s.blksz.toNat + 63) / 64)) - s.blksz.toNat, by omega⟩
  rw [firstPairOrder_eq_byteOrder, stripePairs, List.flatMap_map, List.flatMap_map,
    flatMap_stripeAt_pairIndex_of_pure hp hN, flatMap_stripeAt_pairIndex_of_pure hp hN, hd,
    byteOrder_bytesFrom_size_add (by omega)]

/-- Equal leading bytes may be skipped: what follows them orders the rotations (R124). -/
theorem byteOrder_rotation_add (hN : 0 < s.blksz.toNat) {i j d : Nat} (h : bytesFrom s i d = bytesFrom s j d) :
    byteOrder (rotation s (i + d)) (rotation s (j + d)) = byteOrder (rotation s i) (rotation s j) := by
  rw [← byteOrder_bytesFrom_size_add hN i j d, Nat.add_comm s.blksz.toNat, bytesFrom_add, bytesFrom_add,
    byteOrder_append (by simp), if_pos h, bytesFrom_size, bytesFrom_size]

end

/-- Settles O32: on a pure stripe the words in order write the two rotations. -/
theorem cmpOrdersRotationsOnAPureStripe : Obligations.CmpOrdersRotationsOnAPureStripe := by
  intro s i1 i2 depth hf hc hN hv hp h1 h2
  have hrot : ∀ i, rotation s (i % s.blksz.toNat) = rotation s i := fun i =>
    bytesFrom_congr (Nat.mod_modEq i _) s.blksz.toNat
  rw [exec_cmp i1 i2 depth hf hc hN hv h1 h2, firstPairOrder_stripePairs_of_pure hp hN, hrot, hrot, byteOrder]

/-- Settles O33: `CMP` orders what follows the equal leading bytes. -/
theorem cmpWithEqualLeadingBytesOrdersTheRotations : Obligations.CmpWithEqualLeadingBytesOrdersTheRotations := by
  intro s i1 i2 depth hf hc hN hv hp h1 h2 hlead
  have heq : bytesFrom s i1.toNat depth.toNat = bytesFrom s i2.toNat depth.toNat :=
    List.map_congr_left fun k hk => hlead k (List.mem_range.mp hk)
  have hcmp := cmpOrdersRotationsOnAPureStripe s i1 i2 depth hf hc hN hv hp h1 h2
  rw [← byteOrder, byteOrder_rotation_add (by omega) heq] at hcmp
  exact hcmp

end Sys2Proof.Machine
end

section
/-! PROOFS of the family 41_presort.md: the counting sort of the rotations by key, stage by stage and in one command,
and the order of the big buckets. -/

namespace Sys2Proof.Machine

open Sys2Proof.Safety

/-! ## The errors of the presort commands (60_exceptions.md R242, R251) -/

section
variable {s : State} {i : Instr} {cs : List (Bool × Err)}

theorem exec_errs_of_unconfigured (hf : s.status.fault = false) (hi : checksOf s i = s.needConfig :: cs)
    (hc : s.status.cfgValid = false) : exec i s = .next (errored s 2 (opInfo (opcode i))) :=
  exec_errs i .notConfigured hf (by simp [hi, firstError_cons, State.needConfig, hc])

theorem exec_errs_of_stage {st : RsStage} (hf : s.status.fault = false)
    (hi : checksOf s i = s.needConfig :: s.needStage st :: cs) (hc : s.status.cfgValid = true)
    (hst : s.status.rsStage ≠ st) : exec i s = .next (errored s 4 (opInfo (opcode i))) :=
  exec_errs i .sequence hf (by simp [hi, firstError_cons, State.needConfig, State.needStage, hc, hst])

end

/-! ## Numbers of rotations -/

section
variable (s : State)

theorem rotationsWith_lt_two_pow (p : Nat → Bool) : rotationsWith s p < 2 ^ 32 :=
  (rotationsWith_le_size s p).trans_lt s.blksz.isLt

theorem rotationsWith_mono {p q : Nat → Bool} (h : ∀ x, p x = true → q x = true) :
    rotationsWith s p ≤ rotationsWith s q :=
  List.countP_mono_left fun i _ => h (keyOf s i)

/-- The numbers of rotations with each key below `k` add up to the number with a key below `k`. -/
theorem sum_rotationsWith_eq (k : Nat) :
    ((List.range k).map fun j => rotationsWith s (fun x => x == j)).sum =
      rotationsWith s (fun x => decide (x < k)) := by
  induction k with
  | zero => exact (rotationsWith_eq_zero s _ fun x _ => decide_eq_false (Nat.not_lt_zero x)).symm
  | succ k ih =>
    simp only [Nat.lt_succ_iff, List.range_succ, List.map_append, List.sum_append, ih, rotationsWith_le_eq_add,
      List.map_singleton, List.sum_singleton]

end

/-- A word that is a number of rotations of a block within the range of R6 has no `SORTED` bit (R141). -/
theorem sortedBit_of_rotations {s : State} {v : Word} {p : Nat → Bool} (h : v.toNat = rotationsWith s p)
    (hN : s.blksz.toNat ≤ 2 ^ 31 - 1) : v.getLsbD 31 = false := by
  have hle := rotationsWith_le_size s p
  exact Nat.testBit_lt_two_pow (by omega)

/-! ## `RSCNT` (41_presort.md R141) -/

theorem toNat_btAt_countKeys (s : State) (k : Nat) (hk : k ≤ 65536) :
    (s.countKeys.btAt k).toNat = rotationsWith s (fun x => x == k) := by
  rw [btAt_countKeys]
  obtain hlt | rfl := hk.lt_or_eq
  · rw [if_pos hlt, BitVec.toNat_ofNat, Nat.mod_eq_of_lt (rotationsWith_lt_two_pow s _)]
  · exact (rotationsWith_eq_zero s _ fun x hx => beq_eq_false_iff_ne.mpr hx.ne).symm

/-- Settles O35: `btAt_countKeys` at every index; the counts add up to the rotations with any key. -/
theorem rscntCountsTheKeys : Obligations.RscntCountsTheKeys := by
  refine ⟨decodeOfEncodeIsIdentity .rscnt, fun s hf => ⟨exec_errs_of_unconfigured hf rfl, fun hc => ?_⟩⟩
  have hp : firstError (checksOf s .rscnt) = none := by simp [firstError_eq_none_iff, checksOf, hc]
  have hcount := toNat_btAt_countKeys s
  refine ⟨s.countKeys.bt, exec_answers .rscnt hf hp, btAt_countKeys s,
    fun hN k hk => sortedBit_of_rotations (hcount k hk) hN, ?sum⟩
  case sum =>
    calc ((List.range 65536).map fun k => (s.countKeys.btAt k).toNat).sum
        = ((List.range 65536).map fun k => rotationsWith s (fun x => x == k)).sum :=
          congrArg List.sum (List.map_congr_left fun k hk => hcount k (List.mem_range.mp hk).le)
      _ = rotationsWith s (fun x => decide (x < 65536)) := sum_rotationsWith_eq s 65536
      _ = s.blksz.toNat := rotationsWith_eq_size s _ fun _ => decide_eq_true

/-! ## The order by key and offset (R144 (b), (c)) -/

section
variable {s : State} {i j : Nat}

/-- A rotation's place lies before the end of its bucket: the rotation itself is in the bucket. -/
theorem sortPlace_lt_bucketEnd (hi : i < s.blksz.toNat) :
    sortPlace s i < rotationsWith s (fun x => decide (x ≤ keyOf s i)) := by
  have hle : (List.range (i + 1)).countP (fun j => keyOf s j == keyOf s i) ≤
      rotationsWith s (fun x => x == keyOf s i) := (List.range_sublist.mpr hi).countP_le
  rw [List.range_succ, List.countP_append, List.countP_singleton, if_pos (beq_self_eq_true _)] at hle
  rw [rotationsWith_le_eq_add]
  exact Nat.add_lt_add_left hle _

theorem sortPlace_lt_size (hi : i < s.blksz.toNat) : sortPlace s i < s.blksz.toNat :=
  (sortPlace_lt_bucketEnd hi).trans_le (rotationsWith_le_size s _)

theorem sortPlace_lt_of_key_lt (hi : i < s.blksz.toNat) (h : keyOf s i < keyOf s j) : sortPlace s i < sortPlace s j :=
  calc sortPlace s i
      < rotationsWith s (fun x => decide (x ≤ keyOf s i)) := sortPlace_lt_bucketEnd hi
    _ ≤ rotationsWith s (fun x => decide (x < keyOf s j)) :=
      rotationsWith_mono s fun _ hx => decide_eq_true ((of_decide_eq_true hx).trans_lt h)
    _ ≤ sortPlace s j := Nat.le_add_right _ _

theorem sortPlace_lt_of_key_eq (hij : i < j) (h : keyOf s i = keyOf s j) : sortPlace s i < sortPlace s j := by
  have hle := (List.range_sublist.mpr (Nat.succ_le_of_lt hij)).countP_le (p := fun k => decide (keyOf s k = keyOf s j))
  rw [List.range_succ, List.countP_append, List.countP_singleton, if_pos (decide_eq_true h)] at hle
  rw [sortPlace, sortPlace, h]
  exact Nat.add_lt_add_left hle _

theorem sortPlace_ne (hi : i < s.blksz.toNat) (hj : j < s.blksz.toNat) (hne : i ≠ j) :
    sortPlace s i ≠ sortPlace s j := by
  obtain hk | hk | hk := lt_trichotomy (keyOf s i) (keyOf s j)
  · exact (sortPlace_lt_of_key_lt hi hk).ne
  · obtain hij | hij := hne.lt_or_gt
    · exact (sortPlace_lt_of_key_eq hij hk).ne
    · exact (sortPlace_lt_of_key_eq hij hk.symm).ne'
  · exact (sortPlace_lt_of_key_lt hj hk).ne'

/-- The rotations fill the places of the block, one each. -/
theorem map_sortPlace_perm (s : State) :
    ((List.range s.blksz.toNat).map (sortPlace s)).Perm (List.range s.blksz.toNat) := by
  have hnodup : ((List.range s.blksz.toNat).map (sortPlace s)).Nodup :=
    List.Nodup.map_on (fun i hi j hj h => by_contra fun hne =>
      sortPlace_ne (List.mem_range.mp hi) (List.mem_range.mp hj) hne h) List.nodup_range
  refine (hnodup.subperm fun x hx => ?_).perm_of_length_le (by simp)
  obtain ⟨i, hi, rfl⟩ := List.mem_map.mp hx
  exact List.mem_range.mpr (sortPlace_lt_size (List.mem_range.mp hi))

theorem exists_sortPlace_eq {x : Nat} (hx : x < s.blksz.toNat) : ∃ i < s.blksz.toNat, sortPlace s i = x := by
  simpa using (map_sortPlace_perm s).mem_iff.mpr (List.mem_range.mpr hx)

/-- Of two rotations the one with the lower place has the lower key, or an equal key. -/
theorem key_le_of_sortPlace_lt (hj : j < s.blksz.toNat) (h : sortPlace s i < sortPlace s j) : keyOf s i ≤ keyOf s j :=
  Nat.le_of_not_lt fun hk => h.asymm (sortPlace_lt_of_key_lt hj hk)

/-- Of two rotations with one key the one with the lower place has the lower offset. -/
theorem lt_of_sortPlace_lt (hk : keyOf s i = keyOf s j) (h : sortPlace s i < sortPlace s j) : i < j := by
  obtain hij | rfl | hij := lt_trichotomy i j
  · exact hij
  · exact absurd h (Nat.lt_irrefl _)
  · exact absurd (sortPlace_lt_of_key_eq hij hk.symm) h.asymm

end

/-! ## The scatter of stage 3 (R143) -/

/-- The rotations scattered after `i` in `List.range n` are those above it. -/
theorem range_eq_append_of_suffix {i n : Nat} {later : List Nat} (h : (i :: later) <:+ List.range n) :
    List.range n = List.range i ++ i :: later := by
  obtain ⟨before, hb⟩ := h
  obtain ⟨k, -, hbefore, hk⟩ := List.range'_eq_append_iff.mp (hb.trans List.range_eq_range').symm
  obtain ⟨rfl, -⟩ := List.range'_eq_cons_iff.mp hk.symm
  rw [← hb, hbefore, Nat.zero_add, Nat.mul_one, ← List.range_eq_range']

section
variable {s : State} (h : ∀ k ≤ 65536, (s.btAt k).toNat = rotationsWith s (fun x => decide (x ≤ k)))
include h

/-- Of the cumulated counts, the scatter computes each rotation's place in the order by key and offset. -/
theorem placeOf_eq_sortPlace {i : Nat} {later : List Nat} (hs : (i :: later) <:+ List.range s.blksz.toNat) :
    placeOf s.key s.bt i later = sortPlace s i := by
  have hi : i < s.blksz.toNat := List.mem_range.mp (hs.subset List.mem_cons_self)
  have hbt := h (s.key i) (key_lt s i).le
  have hbucket := countP_key_eq_rotationsWith s (fun x => x == s.key i)
  have hbefore : (List.range i).countP (fun j => s.key j == s.key i) =
      (List.range i).countP fun j => decide (keyOf s j = keyOf s i) :=
    List.countP_congr fun j hj => by
      rw [key_eq_keyOf s i hi, key_eq_keyOf s j ((List.mem_range.mp hj).trans hi), beq_iff_eq, decide_eq_true_eq]
  have hN := rotationsWith_lt_two_pow s (fun x => decide (x ≤ s.key i))
  rw [range_eq_append_of_suffix hs, List.countP_append, hbefore] at hbucket
  rw [rotationsWith_le_eq_add] at hbt hN
  rw [placeOf, ← State.btAt, BitVec.toNat_sub, BitVec.toNat_ofNat, hbt, sortPlace, ← key_eq_keyOf s i hi]
  rw [← key_eq_keyOf s i hi] at hbucket
  omega

/-- Every rotation stands in `PTR` at its place in the order by key and offset. -/
theorem ptrAt_scatter_sortPlace {i : Nat} (hi : i < s.blksz.toNat) :
    s.scatter.ptrAt (sortPlace s i) = BitVec.ofNat 32 i := by
  obtain ⟨before, later, hb⟩ := List.append_of_mem (List.mem_range.mpr hi)
  have hs : (i :: later) <:+ List.range s.blksz.toNat := ⟨before, hb.symm⟩
  rw [← placeOf_eq_sortPlace h hs]
  refine read_scatterAll_ptr_of_mem s.key (s.bt, s.ptr) _ i later hs fun j mid hj hm => ?_
  have hjN : j < s.blksz.toNat := List.mem_range.mp (hj.subset List.mem_cons_self)
  have hne : i ≠ j := by
    rintro rfl
    have hnodup := List.nodup_range.sublist hj.sublist
    exact (List.nodup_cons.mp hnodup).1 (hm.subset List.mem_cons_self)
  rw [placeOf_eq_sortPlace h hs, placeOf_eq_sortPlace h hj]
  exact sortPlace_ne hi hjN hne

/-- `PTR[N]` and what lies beyond it are not written. -/
theorem ptrAt_scatter_of_size_le {x : Nat} (hx : s.blksz.toNat ≤ x) : s.scatter.ptrAt x = s.ptrAt x :=
  read_scatterAll_ptr_of_ne s.key x (s.bt, s.ptr) _ fun i later hs =>
    ((placeOf_lt_size s h i later hs).trans_le hx).ne'

end

/-- No rotation has a key beyond `BT`. -/
theorem btAt_scatter_of_gt (s : State) {k : Nat} (hk : 65536 < k) : s.scatter.btAt k = s.btAt k := by
  have hnone : rotationsWith s (fun x => x == k) = 0 :=
    rotationsWith_eq_zero s _ fun x hx => beq_eq_false_iff_ne.mpr (by omega)
  rw [btAt_scatter, hnone, BitVec.sub_zero]

/-- Settles O37: of the cumulated counts, every rotation goes to its place and every bucket's end becomes its start. -/
theorem rssctScatters : Obligations.RssctScatters := by
  refine ⟨decodeOfEncodeIsIdentity .rssct, fun s hf =>
    ⟨exec_errs_of_unconfigured hf rfl, exec_errs_of_stage hf rfl, fun hc hst => ?_⟩⟩
  have hp : firstError (checksOf s .rssct) = none := by simp [firstError_eq_none_iff, checksOf, hc, hst]
  exact ⟨s.scatter.bt, s.scatter.ptr, exec_answers .rssct hf hp, fun h =>
    ⟨fun i hi => ptrAt_scatter_sortPlace h hi, fun x hx => ptrAt_scatter_of_size_le h hx,
      fun k hk => btAt_scatter_of_cumulated s k (h k hk), fun k hk => btAt_scatter_of_gt s hk⟩⟩

/-! ## The complete presort (R144, R145) -/

/-- The state after the three stages. -/
def State.presort (s : State) : State := s.countKeys.cumulate.scatter

theorem exec_rsort {s : State} (hf : s.status.fault = false) (hc : s.status.cfgValid = true) :
    exec .rsort s = .next (answered s.presort 0) :=
  exec_answers .rsort hf (by simp [firstError_eq_none_iff, checksOf, hc])

/-- The first two stages leave the cumulated counts, whatever `BT` held before. -/
theorem cumulated_of_countKeys (s : State) (k : Nat) (hk : k ≤ 65536) :
    (s.countKeys.cumulate.btAt k).toNat = rotationsWith s (fun x => decide (x ≤ k)) :=
  (presortConsistent_cumulate (presortConsistent_countKeys s) rfl).cumulated rfl k hk

section
variable (s : State)

theorem ptrAt_presort_sortPlace {i : Nat} (hi : i < s.blksz.toNat) :
    (s.presort.ptrAt (sortPlace s i)).toNat = i := by
  have hplace : s.presort.ptrAt (sortPlace s i) = BitVec.ofNat 32 i :=
    ptrAt_scatter_sortPlace (s := s.countKeys.cumulate) (cumulated_of_countKeys s) hi
  rw [hplace, BitVec.toNat_ofNat, Nat.mod_eq_of_lt (hi.trans s.blksz.isLt)]

theorem ptrAt_presort_of_size_le {x : Nat} (hx : s.blksz.toNat ≤ x) : s.presort.ptrAt x = s.ptrAt x :=
  ptrAt_scatter_of_size_le (s := s.countKeys.cumulate) (cumulated_of_countKeys s) hx

theorem toNat_btAt_presort (k : Nat) (hk : k ≤ 65536) :
    (s.presort.btAt k).toNat = rotationsWith s (fun x => decide (x < k)) :=
  btAt_scatter_of_cumulated s.countKeys.cumulate k (cumulated_of_countKeys s k hk)

theorem btAt_presort_of_gt {k : Nat} (hk : 65536 < k) : s.presort.btAt k = s.btAt k := by
  rw [State.presort, btAt_scatter_of_gt _ hk, btAt_cumulate, if_neg hk.not_ge, btAt_countKeys, if_neg (by omega),
    if_neg hk.ne']

/-- `PTR[0 .. N-1]` is a permutation of `0 .. N-1` (R144 (a)): it undoes the places. -/
theorem map_ptrAt_presort_perm :
    ((List.range s.blksz.toNat).map fun x => (s.presort.ptrAt x).toNat).Perm (List.range s.blksz.toNat) := by
  have hundo : ((List.range s.blksz.toNat).map (sortPlace s)).map (fun x => (s.presort.ptrAt x).toNat) =
      List.range s.blksz.toNat := by
    rw [List.map_map]
    exact (List.map_congr_left fun i hi => ptrAt_presort_sortPlace s (List.mem_range.mp hi)).trans (List.map_id _)
  have hperm := (map_sortPlace_perm s).symm.map fun x => (s.presort.ptrAt x).toNat
  rwa [hundo] at hperm

/-- Every place of the block holds the rotation it is the place of. -/
theorem sortPlace_ptrAt_presort {x : Nat} (hx : x < s.blksz.toNat) :
    (s.presort.ptrAt x).toNat < s.blksz.toNat ∧ sortPlace s (s.presort.ptrAt x).toNat = x := by
  obtain ⟨i, hi, rfl⟩ := exists_sortPlace_eq hx
  rw [ptrAt_presort_sortPlace s hi]
  exact ⟨hi, rfl⟩

theorem sortPlace_ptrAt_presort_lt {x y : Nat} (hxy : x < y) (hy : y < s.blksz.toNat) :
    sortPlace s (s.presort.ptrAt x).toNat < sortPlace s (s.presort.ptrAt y).toNat := by
  rwa [(sortPlace_ptrAt_presort s (hxy.trans hy)).2, (sortPlace_ptrAt_presort s hy).2]

end

/-- Settles O38: `PTR` undoes the places, so places in order hold rotations in order, and `BT` holds the starts. -/
theorem rsortSortsByKey : Obligations.RsortSortsByKey := by
  refine ⟨decodeOfEncodeIsIdentity .rsort, fun s hf => ⟨exec_errs_of_unconfigured hf rfl, fun hc => ?_⟩⟩
  have hbt := toNat_btAt_presort s
  refine ⟨s.presort.bt, s.presort.ptr, exec_rsort hf hc, map_ptrAt_presort_perm s,
    fun x y hxy hy =>
      key_le_of_sortPlace_lt (sortPlace_ptrAt_presort s hy).1 (sortPlace_ptrAt_presort_lt s hxy hy),
    fun x y hxy hy hk => lt_of_sortPlace_lt hk (sortPlace_ptrAt_presort_lt s hxy hy),
    fun x => ptrAt_presort_of_size_le s, hbt, fun k hk => ?rising,
    ⟨BitVec.eq_of_toNat_eq ?first, BitVec.eq_of_toNat_eq ?sentinel⟩,
    fun hN k hk => sortedBit_of_rotations (hbt k hk) hN, fun k => btAt_presort_of_gt s⟩
  case rising =>
    calc (s.presort.btAt k).toNat
        = rotationsWith s (fun x => decide (x < k)) := hbt k (by omega)
      _ ≤ rotationsWith s (fun x => decide (x < k + 1)) :=
        rotationsWith_mono s fun x hx => decide_eq_true (Nat.lt_succ_of_lt (of_decide_eq_true hx))
      _ = (s.presort.btAt (k + 1)).toNat := (hbt (k + 1) (by omega)).symm
  case first =>
    exact (hbt 0 (Nat.zero_le _)).trans (rotationsWith_eq_zero s _ fun x _ => decide_eq_false (Nat.not_lt_zero x))
  case sentinel => exact (hbt 65536 le_rfl).trans (rotationsWith_eq_size s _ fun _ => decide_eq_true)

theorem cumulate_answered (s : State) (d : Word) : (answered s d).cumulate = answered s.cumulate d := rfl

theorem scatter_answered (s : State) (d : Word) : (answered s d).scatter = answered s.scatter d := rfl

/-- Settles O39: a response does not touch what the stages work on, so the three leave the presort, answered thrice. -/
theorem rsortIsTheThreeStages : Obligations.RsortIsTheThreeStages := by
  refine ⟨decodeOfEncodeIsIdentity .rsort, fun s hf => ⟨exec_errs_of_unconfigured hf rfl, fun hc => ?_⟩⟩
  have hcount : exec .rscnt s = .next (answered s.countKeys 0) :=
    exec_answers .rscnt hf (by simp [firstError_eq_none_iff, checksOf, hc])
  have hcumulate : exec .rscum (answered s.countKeys 0) = .next (answered (answered s.countKeys.cumulate 0) 0) :=
    exec_answers .rscum hf (by simp [firstError_eq_none_iff, checksOf, answered, hc])
  have hscatter : exec .rssct (answered (answered s.countKeys.cumulate 0) 0) =
      .next (answered (answered (answered s.presort 0) 0) 0) :=
    exec_answers .rssct hf (by simp [firstError_eq_none_iff, checksOf, answered, hc])
  exact ⟨_, _, _, hcount, hcumulate, hscatter, exec_rsort hf hc⟩

/-! ## The order of the big buckets (R147, R148) -/

theorem set_getD_self (l : List Byte) (i : Nat) : l.set i (l.getD i 0) = l := by
  by_cases hi : i < l.length
  · rw [List.getD_eq_getElem _ _ hi, List.set_getElem_self]
  · exact List.set_eq_of_length_le (Nat.le_of_not_lt hi)

section
variable {size : Byte → Nat} (h : ∀ b c, size b = size c)
include h

/-- Among equal sizes no entry sinks. -/
theorem sinkEntry_of_equal_sizes (gap : Nat) (v : Byte) (fuel j : Nat) (l : List Byte) :
    sinkEntry size gap v fuel j l = l.set j v := by
  cases fuel with
  | zero => rfl
  | succ fuel => rw [sinkEntry, if_neg fun hc => hc.2.ne (h _ _)]

theorem gapPass_of_equal_sizes (gap : Nat) (l : List Byte) : gapPass size l gap = l := by
  have hstay : ∀ i, sinkEntry size gap (l.getD i 0) i i l = l := fun i => by
    rw [sinkEntry_of_equal_sizes h, set_getD_self]
  rw [gapPass]
  induction List.range' gap (256 - gap) with
  | nil => rfl
  | cons i is ih => rw [List.foldl_cons, hstay, ih]

theorem bigOrder_of_equal_sizes : bigOrder size = identityBytes := by
  rw [bigOrder]
  induction shellGaps with
  | nil => rfl
  | cons gap gaps ih => rw [List.foldl_cons, gapPass_of_equal_sizes h, ih]

end

theorem exec_bigord {s : State} (hf : s.status.fault = false) (hc : s.status.cfgValid = true)
    (hst : s.status.rsStage = .scattered) : exec .bigord s = .next (answered s.orderBuckets 0) :=
  exec_answers .bigord hf (by simp [firstError_eq_none_iff, checksOf, hc, hst])

/-- `BORD` of the state after `BIGORD`, at a place it has. -/
theorem bordAt_orderBuckets_of_lt (s : State) {j : Nat} (hj : j < 256) :
    s.orderBuckets.bordAt j = (bigOrder fun b => bucketSize s b.toNat).getD j 0 := by
  rw [bordAt_orderBuckets, if_pos hj]

/-- Settles O40: the model's loops leave what those of the statement leave; the last pass sorts, and among equal sizes
no pass moves anything. -/
theorem bigordOrdersBucketsBySize : Obligations.BigordOrdersBucketsBySize := by
  refine ⟨decodeOfEncodeIsIdentity .bigord, fun s hf =>
    ⟨exec_errs_of_unconfigured hf rfl, exec_errs_of_stage hf rfl, fun hc hst => ?_⟩⟩
  obtain ⟨hperm, hsorted⟩ := orderConsistent_orderBuckets s rfl
  refine ⟨s.orderBuckets.bord, exec_bigord hf hc hst, fun j hj => ?loops, hperm, hsorted, fun heq j hj => ?identity,
    fun j hj => ?beyond⟩
  case loops =>
    rw [← State.bordAt, bordAt_orderBuckets_of_lt s hj]
    exact (matches_bigOrder (bucketSize s)).2 j hj
  case identity =>
    have hsize : ∀ b c : Byte, bucketSize s b.toNat = bucketSize s c.toNat := fun b c =>
      (heq _ b.isLt).trans (heq _ c.isLt).symm
    rw [← State.bordAt, bordAt_orderBuckets_of_lt s hj, bigOrder_of_equal_sizes hsize]
    simp [identityBytes, hj]
  case beyond =>
    rw [← State.bordAt, bordAt_orderBuckets, if_neg hj.not_gt]

/-- Settles O41: `BORD` is `bigOrder` of the sizes, which takes nothing else from the state. -/
theorem bigordDependsOnSizesAlone : Obligations.BigordDependsOnSizesAlone := by
  intro s s' t t' hst hst' hf hf' hc hc' hsize ht ht' j hj
  have hsizes : (fun b : Byte => bucketSize s b.toNat) = fun b => bucketSize s' b.toNat :=
    funext fun b => hsize b.toNat b.isLt
  rw [exec_bigord hf hc hst] at ht
  rw [exec_bigord hf' hc' hst'] at ht'
  injection ht with ht
  injection ht' with ht'
  subst ht ht'
  calc s.orderBuckets.bordAt j
      = (bigOrder fun b => bucketSize s b.toNat).getD j 0 := bordAt_orderBuckets_of_lt s hj
    _ = (bigOrder fun b => bucketSize s' b.toNat).getD j 0 := by rw [hsizes]
    _ = s'.orderBuckets.bordAt j := (bordAt_orderBuckets_of_lt s' hj).symm

end Sys2Proof.Machine
end

section
/-! PROOFS of the family 42_mtf.md: the move-to-front commands, `MTFBLK` as the commands it abbreviates, and the decoding
of its tokens. -/

namespace Sys2Proof.Machine

open Sys2Proof.Safety

/-! ## The errors of the encoder's commands (60_exceptions.md R251, R254) -/

theorem exec_errs_of_no_list {s : State} {i : Instr} {cs : List (Bool × Err)} (hf : s.status.fault = false)
    (hi : checksOf s i = s.needMtf :: cs) (hv : s.status.mtfValid = false) :
    exec i s = .next (errored s 4 (opInfo (opcode i))) :=
  exec_errs i .sequence hf (by simp [hi, firstError_cons, State.needMtf, hv])

/-! ## `MTFINIT` (42_mtf.md R160) -/

/-- Settles O42: `mtfAt_initList` at every index. -/
theorem mtfinitInitialisesTheList : Obligations.MtfinitInitialisesTheList :=
  ⟨decodeOfEncodeIsIdentity .mtfinit, fun s hf =>
    ⟨s.initList.mtf, exec_answers .mtfinit hf firstError_nil, mtfAt_initList s⟩⟩

/-! ## `MTFB` (R165) -/

/-- The per-byte step in the terms of R163 to R165. -/
theorem encodeByte_eq (e : Encoder) (c : Byte) {k : Nat} (hk : rankIn e.list c = k) :
    encodeByte e c =
      { list := moveToFront e.list c
        zrun := if k = 0 then e.zrun + 1 else 0
        toks := e.toks ++ if k = 0 then [] else runTokens e.zrun ++ tokensOfRank k } := by
  have hle : k ≤ 255 := hk ▸ rankIn_le e.list c
  rw [encodeByte, hk]
  by_cases h : k = 0
  · simp [h]
  · simp [h, flushTokens_eq_runTokens, rankTokens_eq_tokensOfRank k (by omega) hle]

/-- The list the encoder stores after `c`, read at every index (R162). -/
theorem mtfAt_withEncoder_moveToFront {s : State} {e : Encoder} {c : Byte} {k : Nat}
    (he : e.list = moveToFront s.mtfList c) (hk : rankIn s.mtfList c = k) (j : Nat) :
    (s.withEncoder e).mtfAt j = if j = 0 then c else if j ≤ k then s.mtfAt (j - 1) else s.mtfAt j := by
  have hle : k ≤ 255 := hk ▸ rankIn_le s.mtfList c
  have hlen : e.list.length = 256 := he ▸ length_moveToFront _ _ (length_mtfList s)
  rw [mtfAt_withEncoder s e hlen]
  by_cases hj : j < 256
  · rw [if_pos hj, he, List.getD_eq_getElem?_getD, getElem?_moveToFront, hk, getElem?_mtfList s j hj,
      getElem?_mtfList s (j - 1) (by omega)]
    split_ifs <;> rfl
  · rw [if_neg hj, if_neg (by omega), if_neg (by omega)]

/-- `MTFB` with its checks passed: one per-byte step. -/
theorem exec_mtfb {s : State} {c : Word} (hf : s.status.fault = false) (hv : s.status.mtfValid = true)
    (hc : c.toNat ≤ 255) (hz : ¬ (s.mtfAt 0 = lowByte c ∧ s.zrun.toNat = 2 ^ 32 - 1)) :
    exec (.mtfb c) s = .next (answered (s.withEncoder (encodeByte s.encoder (lowByte c)))
      (BitVec.ofNat 32 (rankIn s.mtfList (lowByte c)))) :=
  exec_answers (.mtfb c) hf (by simpa [firstError_eq_none_iff, checksOf, hv, hc] using hz)

/-- Settles O43: its checks in order, and the per-byte step at the rank of R161. -/
theorem mtfbEncodesOneByte : Obligations.MtfbEncodesOneByte := by
  refine fun c => ⟨decodeOfEncodeIsIdentity (.mtfb c), fun s hf =>
    ⟨exec_errs_of_no_list hf rfl, fun hv hc => ?range, fun hv hc h0 hz => ?overflow, fun hv hc hz k hk => ?encoded⟩⟩
  case range =>
    exact exec_errs (.mtfb c) .range hf (by simp [checksOf, firstError_cons, State.needMtf, outOfRange, hv, hc])
  case overflow =>
    exact exec_errs (.mtfb c) .zrunOverflow hf
      (by simp [checksOf, firstError_cons, State.needMtf, outOfRange, lowByte_eq_extract, hv, hc, h0, hz])
  case encoded =>
    rw [← lowByte_eq_extract] at hz hk ⊢
    have hrank : rankIn s.mtfList (lowByte c) = k := rankIn_eq_of_isRank s _ k hk
    refine ⟨(s.withEncoder (encodeByte s.encoder (lowByte c))).mtf, ?_,
      mtfAt_withEncoder_moveToFront (encodeByte_list s.encoder (lowByte c)) hrank⟩
    rw [exec_mtfb hf hv hc hz, hrank, encodeByte_eq s.encoder (lowByte c) hrank]
    rfl

/-! ## `MTFEOB` and `MTFWORD` (R166, R167) -/

theorem exec_mtfeob {s : State} (hf : s.status.fault = false) (hv : s.status.mtfValid = true) :
    exec .mtfeob s = .next (answered { s with zrun := 0, toks := s.toks ++ (flushTokens s.zrun ++ [eobToken]) } 0) :=
  exec_answers .mtfeob hf (by simp [firstError_eq_none_iff, checksOf, hv])

/-- Settles O44: `flushTokens` are the tokens of the pending run. -/
theorem mtfeobEndsTheBlock : Obligations.MtfeobEndsTheBlock := by
  refine ⟨decodeOfEncodeIsIdentity .mtfeob, fun s hf => ⟨exec_errs_of_no_list hf rfl, fun hv => ?_⟩⟩
  rw [exec_mtfeob hf hv, flushTokens_eq_runTokens]
  rfl

/-- Settles O45: `0x20` before each byte of `bytesOf` is what `originToken` puts there, by definition. -/
theorem mtfwordEmitsFourBytes : Obligations.MtfwordEmitsFourBytes :=
  fun w => ⟨decodeOfEncodeIsIdentity (.mtfword w), fun _ hf => exec_answers (.mtfword w) hf firstError_nil⟩

/-! ## The run code (R163, R170 (c)) -/

/-- The run a sequence of digits stands for, the sum of `(digit + 1) * 2^i` (R163). -/
def runValue : List Bool → Nat
  | [] => 0
  | d :: ds => (d.toNat + 1) + 2 * runValue ds

theorem runValue_runDigits (fuel : Nat) : ∀ v, 1 ≤ v → v ≤ 2 ^ fuel → runValue (runDigits fuel v) + 1 = v := by
  induction fuel with
  | zero =>
    intro v h1 h2
    exact le_antisymm h1 h2
  | succ fuel ih =>
    intro v h1 h2
    rw [runDigits]
    split
    · next hv => exact le_antisymm h1 hv
    · next hv =>
      have hrest := ih (v / 2) (by omega) (by omega)
      have hdigit : (decide (v % 2 = 1)).toNat = v % 2 := by
        obtain h | h := Nat.mod_two_eq_zero_or_one v <;> simp [h]
      rw [runValue, hdigit]
      omega

/-- The digits of a flush recover the run. -/
theorem runValue_flush (z : Word) : runValue (runDigits 32 (z.toNat + 1)) = z.toNat :=
  Nat.succ.inj (runValue_runDigits 32 _ (Nat.succ_pos _) z.isLt)

theorem toNat_runToken (d : Bool) : (runToken d).toNat = d.toNat := by cases d <;> rfl

/-- The value of a run as the sum over its tokens with their places, counted from `n`. -/
theorem sum_zipIdx_runToken (ds : List Bool) (n : Nat) :
    (((ds.map runToken).zipIdx n).map fun p => (p.1.toNat + 1) * 2 ^ p.2).sum = 2 ^ n * runValue ds := by
  induction ds generalizing n with
  | nil => rfl
  | cons d ds ih =>
    rw [List.map_cons, List.zipIdx_cons, List.map_cons, List.sum_cons, ih, toNat_runToken, runValue]
    ring

theorem length_flushTokens (z : Word) : (flushTokens z).length = Nat.log 2 (z.toNat + 1) := by
  rw [flushTokens_eq_runTokens, runTokens, List.length_map, List.length_dropLast,
    Nat.length_digits 2 _ (by decide) (Nat.succ_ne_zero _), Nat.add_sub_cancel]

/-- Settles O47: the tokens before `000A` are those of the digits of `ZRUN + 1`. -/
theorem runTokensRecoverTheRun : Obligations.RunTokensRecoverTheRun := by
  intro s t hf hv ht
  rw [exec_mtfeob hf hv] at ht
  injection ht with ht
  subst ht
  refine ⟨flushTokens s.zrun, rfl, fun d hd => ?digit, ?sum, length_flushTokens s.zrun⟩
  case digit =>
    obtain ⟨b, -, rfl⟩ := List.mem_map.mp hd
    cases b
    · exact .inl rfl
    · exact .inr rfl
  case sum => rw [flushTokens, sum_zipIdx_runToken, runValue_flush, pow_zero, one_mul]

/-! ## `MTFBLK` as commands `MTFB` and `MTFEOB` (R168) -/

/-- The encoder with tokens emitted before its own. -/
def Encoder.prepend (ts : List Token) (e : Encoder) : Encoder := { e with toks := ts ++ e.toks }

theorem encodeByte_prepend (ts : List Token) (e : Encoder) (c : Byte) :
    encodeByte (e.prepend ts) c = (encodeByte e c).prepend ts := by
  have hk : rankIn (e.prepend ts).list c = rankIn e.list c := rfl
  rw [encodeByte_eq _ c hk, encodeByte_eq e c rfl]
  simp [Encoder.prepend]

theorem encodeEnd_prepend (ts : List Token) (e : Encoder) : encodeEnd (e.prepend ts) = (encodeEnd e).prepend ts := by
  simp [encodeEnd, Encoder.prepend]

/-- A whole block encoded: every byte, then the end of the block (R168). -/
def encodeBlock (e : Encoder) (cs : List Byte) : Encoder := encodeEnd (cs.foldl encodeByte e)

theorem encodeBlock_cons (e : Encoder) (c : Byte) (cs : List Byte) :
    encodeBlock e (c :: cs) = encodeBlock (encodeByte e c) cs := rfl

theorem encodeBlock_prepend (ts : List Token) (e : Encoder) (cs : List Byte) :
    encodeBlock (e.prepend ts) cs = (encodeBlock e cs).prepend ts := by
  induction cs generalizing e with
  | nil => exact encodeEnd_prepend ts e
  | cons c cs ih => rw [encodeBlock_cons, encodeByte_prepend, ih, ← encodeBlock_cons]

theorem length_encodeBlock_list (e : Encoder) (cs : List Byte) (hl : e.list.length = 256) :
    (encodeBlock e cs).list.length = 256 := length_foldl_encodeByte_list cs e hl

theorem toNat_zrun_encodeByte_le (e : Encoder) (c : Byte) : (encodeByte e c).zrun.toNat ≤ e.zrun.toNat + 1 := by
  rw [encodeByte_eq e c rfl]
  split
  · rw [BitVec.toNat_add]
    exact Nat.mod_le _ _
  · exact Nat.zero_le _

/-- The encoder of a state that stored an encoder's results is that encoder, its tokens emitted. -/
theorem encoder_withEncoder_prepend (s : State) (e : Encoder) (hl : e.list.length = 256) :
    (s.withEncoder e).encoder.prepend e.toks = e := by
  rw [State.encoder, Encoder.prepend, mtfList_withEncoder s e hl, List.append_nil]
  rfl

theorem mtfAt_withEncoder_withEncoder (s : State) (e e' : Encoder) (hl : e.list.length = 256)
    (hl' : e'.list.length = 256) (j : Nat) :
    ((s.withEncoder e).withEncoder e').mtfAt j = (s.withEncoder e').mtfAt j := by
  rw [mtfAt_withEncoder _ e' hl', mtfAt_withEncoder s e' hl', mtfAt_withEncoder s e hl]
  split <;> rfl

/-- Storing the list a state has changes no entry. -/
theorem mtfAt_withEncoder_mtfList {s : State} {e : Encoder} (he : e.list = s.mtfList) (j : Nat) :
    (s.withEncoder e).mtfAt j = s.mtfAt j := by
  rw [mtfAt_withEncoder s e (he ▸ length_mtfList s)]
  split
  · next hj =>
    rw [he, List.getD_eq_getElem?_getD, getElem?_mtfList s j hj]
    rfl
  · rfl

theorem lowByte_setWidth (c : Byte) : lowByte (c.setWidth 32) = c := by
  simp [lowByte, BitVec.setWidth_setWidth_of_le]

/-- `MTFB` of a byte, when the run has room for one more. -/
theorem exec_mtfb_byte {s : State} (c : Byte) (hf : s.status.fault = false) (hv : s.status.mtfValid = true)
    (hz : s.zrun.toNat < 2 ^ 32 - 1) :
    exec (.mtfb (c.setWidth 32)) s =
      .next (answered (s.withEncoder (encodeByte s.encoder c)) (BitVec.ofNat 32 (rankIn s.mtfList c))) := by
  have hc : ((c.setWidth 32 : Word)).toNat ≤ 255 := by
    rw [BitVec.toNat_setWidth]
    omega
  rw [exec_mtfb hf hv hc fun h => hz.ne h.2, lowByte_setWidth]

/-- `MTFB` for each byte and then `MTFEOB` emit the tokens and leave the list of the bytes encoded as a block. -/
theorem runCommands_mtfbs_mtfeob (cs : List Byte) :
    ∀ s : State, s.status.fault = false → s.status.mtfValid = true → s.zrun.toNat + cs.length ≤ 2 ^ 32 - 1 →
      ∃ u, runCommands (cs.map (fun c => .mtfb (c.setWidth 32)) ++ [.mtfeob]) s = some u ∧
        u.toks = s.toks ++ (encodeBlock s.encoder cs).toks ∧
        ∀ j, u.mtfAt j = (s.withEncoder (encodeBlock s.encoder cs)).mtfAt j := by
  induction cs with
  | nil =>
    intro s hf hv _
    refine ⟨answered { s with zrun := 0, toks := s.toks ++ (flushTokens s.zrun ++ [eobToken]) } 0, ?_, rfl,
      fun j => (mtfAt_withEncoder_mtfList rfl j).symm⟩
    simp [runCommands, exec_mtfeob hf hv]
  | cons c cs ih =>
    intro s hf hv hz
    rw [List.length_cons] at hz
    set e := encodeByte s.encoder c
    have hlen : e.list.length = 256 := length_encodeByte_list s.encoder c (length_mtfList s)
    have hrun : e.zrun.toNat ≤ s.zrun.toNat + 1 := toNat_zrun_encodeByte_le s.encoder c
    obtain ⟨u, hu, htoks, hlist⟩ :=
      ih (answered (s.withEncoder e) (BitVec.ofNat 32 (rankIn s.mtfList c))) hf hv
        (show e.zrun.toNat + cs.length ≤ 2 ^ 32 - 1 by omega)
    have hblock : encodeBlock s.encoder (c :: cs) = (encodeBlock (s.withEncoder e).encoder cs).prepend e.toks := by
      rw [← encodeBlock_prepend, encoder_withEncoder_prepend s e hlen, encodeBlock_cons]
    refine ⟨u, ?_, ?_, fun j => ?_⟩
    · rw [List.map_cons, List.cons_append, runCommands, exec_mtfb_byte c hf hv (by omega)]
      exact hu
    · rw [hblock, htoks]
      exact List.append_assoc _ _ _
    · rw [hblock, hlist]
      exact mtfAt_withEncoder_withEncoder s e _ hlen
        (length_encodeBlock_list _ cs (length_mtfList (s.withEncoder e))) j

theorem length_bwtBytes (s : State) : (bwtBytes s).length = s.blksz.toNat := by simp [bwtBytes]

theorem exec_mtfblk {s : State} (hf : s.status.fault = false) (hc : s.status.cfgValid = true)
    (hv : s.status.mtfValid = true) (hz : s.zrun.toNat + s.blksz.toNat ≤ 2 ^ 32 - 1) :
    exec .mtfblk s = .next (answered (s.withEncoder (encodeBlock s.encoder (bwtBytes s))) 0) :=
  exec_answers .mtfblk hf (by simpa [firstError_eq_none_iff, checksOf, hc, hv] using hz)

/-- Settles O46: its checks in order, and the run of the commands it abbreviates. -/
theorem mtfblkIsMtfbsThenMtfeob : Obligations.MtfblkIsMtfbsThenMtfeob := by
  refine ⟨decodeOfEncodeIsIdentity .mtfblk, fun s hf =>
    ⟨exec_errs_of_unconfigured hf rfl, fun hc hv => ?noList, fun hc hv hz => ?overflow, fun hc hv hz => ?encoded⟩⟩
  case noList =>
    exact exec_errs .mtfblk .sequence hf
      (by simp [checksOf, firstError_cons, State.needConfig, State.needMtf, hc, hv])
  case overflow =>
    exact exec_errs .mtfblk .zrunOverflow hf
      (by simpa [checksOf, firstError_cons, State.needConfig, State.needMtf, hc, hv] using hz)
  case encoded =>
    obtain ⟨u, hu, htoks, hlist⟩ := runCommands_mtfbs_mtfeob (bwtBytes s) s hf hv (by rwa [length_bwtBytes])
    exact ⟨_, _, u, exec_mtfblk hf hc hv hz, hu, htoks, fun j => (hlist j).symm⟩

/-! ## Decoding the tokens of a block (R169, R170 (b)) -/

section
variable (ts : List Token) (l : List Byte) (run weight : Nat) (out : List Byte)

theorem replay_runToken (d : Bool) :
    replay (runToken d :: ts) l run weight none out =
      replay ts l (run + weight * (d.toNat + 1)) (2 * weight) none out := by
  cases d
  · simp [replay, runToken, token, Context.id]
  · simp [replay, runToken, token, Context.id, Nat.mul_comm]

/-- The tokens of a run add its value to the run decoded so far. -/
theorem replay_run (ds : List Bool) :
    replay (ds.map runToken ++ ts) l run weight none out =
      replay ts l (run + weight * runValue ds) (2 ^ ds.length * weight) none out := by
  induction ds generalizing run weight with
  | nil => simp [runValue]
  | cons d ds ih =>
    rw [List.map_cons, List.cons_append, replay_runToken, ih, runValue, List.length_cons]
    congr 1 <;> ring

/-- The tokens of a flush give the pending run. -/
theorem replay_flushTokens (z : Word) :
    ∃ w, replay (flushTokens z ++ ts) l 0 1 none out = replay ts l z.toNat w none out := by
  rw [flushTokens, replay_run, runValue_flush, zero_add, one_mul]
  exact ⟨_, rfl⟩

theorem replay_eobToken :
    replay [eobToken] l run weight none out = some (out ++ List.replicate run (l.getD 0 0), l) := by
  simp [replay, eobToken, token, Context.id]

/-- A class above 0 ends the run and awaits its offset. -/
theorem replay_class {n : Nat} (h0 : n ≠ 0) (h8 : n < 8) :
    replay (BitVec.ofNat 16 (0x0002 + n) :: ts) l run weight none out =
      replay ts l 0 1 (some n) (out ++ List.replicate run (l.getD 0 0)) := by
  have hnumber : (BitVec.ofNat 16 (0x0002 + n)).toNat = 2 + n := by
    rw [BitVec.toNat_ofNat]
    omega
  have hne : ∀ t : Token, t.toNat ≤ 2 ∨ 10 ≤ t.toNat → BitVec.ofNat 16 (0x0002 + n) ≠ t := by
    rintro t ht rfl
    omega
  rw [replay, if_neg (hne 0x0000 (by decide)), if_neg (hne 0x0001 (by decide)), if_neg (hne 0x000A (by decide)),
    if_neg (hne 0x0002 (by decide)), hnumber, Nat.add_sub_cancel_left]

/-- The offset of a class completes the rank (R169). -/
theorem replay_offset {n k : Nat} (h8 : n < 8) (hlo : 2 ^ n ≤ k) (hk : k ≤ 255) :
    replay (BitVec.ofNat 16 (0x1000 + 0x100 * n + (k - 2 ^ n)) :: ts) l run weight (some n) out =
      replay ts (l.getD k 0 :: l.eraseIdx k) run weight none (out ++ [l.getD k 0]) := by
  have hsub : k - 2 ^ n ≤ k := Nat.sub_le _ _
  have hrank :
      2 ^ n + ((BitVec.ofNat 16 (0x1000 + 0x100 * n + (k - 2 ^ n))).toNat - (0x1000 + 0x100 * n)) = k := by
    rw [BitVec.toNat_ofNat, Nat.mod_eq_of_lt (by omega)]
    omega
  simp only [replay, hrank]

/-- The tokens of a rank end the run, give the byte at the rank and move it to the front. -/
theorem replay_tokensOfRank {k : Nat} (h1 : 1 ≤ k) (h2 : k ≤ 255) :
    replay (tokensOfRank k ++ ts) l run weight none out =
      replay ts (l.getD k 0 :: l.eraseIdx k) 0 1 none
        (out ++ List.replicate run (l.getD 0 0) ++ [l.getD k 0]) := by
  have hlo : 2 ^ Nat.log 2 k ≤ k := Nat.pow_log_le_self 2 (by omega)
  have h8 : Nat.log 2 k < 8 := Nat.log_lt_of_lt_pow (by omega) (by omega)
  rw [tokensOfRank]
  by_cases h0 : Nat.log 2 k = 0
  · obtain rfl : k = 1 := by
      obtain hk | hk := Nat.log_eq_zero_iff.mp h0 <;> omega
    simp [replay]
  · rw [if_neg h0, List.cons_append, List.singleton_append, replay_class _ _ _ _ _ h0 h8,
      replay_offset _ _ _ _ _ h8 hlo h2]

end

/-- The byte at its rank, in a list that is a permutation. -/
theorem getD_rankIn {l : List Byte} (hl : l.Perm identityBytes) (c : Byte) : l.getD (rankIn l c) 0 = c := by
  have hlen : l.length = 256 := hl.length_eq.trans length_identityBytes
  have hk := rankIn_le l c
  rw [List.getD_eq_getElem _ _ (by omega), getElem_rankIn l c hlen (mem_of_perm_identity l c hl)]

/-- The byte at the front stays there (R162). -/
theorem moveToFront_of_front {l : List Byte} {c : Byte} (hl : l.Perm identityBytes) (hk : rankIn l c = 0) :
    moveToFront l c = l := by
  have hc := getD_rankIn hl c
  rw [hk] at hc
  rw [moveToFront, hk]
  cases l with
  | nil => exact absurd hl.length_eq (by simp [identityBytes])
  | cons b l => exact congrArg (· :: l) hc.symm

/-- The tokens of a block decode to the pending run of front bytes and the bytes encoded, and to the list left. -/
theorem replay_encodeBlock (cs : List Byte) :
    ∀ (l : List Byte) (z : Word) (out : List Byte), l.Perm identityBytes → z.toNat + cs.length ≤ 2 ^ 32 - 1 →
      replay (encodeBlock ⟨l, z, []⟩ cs).toks l 0 1 none out =
        some (out ++ (List.replicate z.toNat (l.getD 0 0) ++ cs), (encodeBlock ⟨l, z, []⟩ cs).list) := by
  induction cs with
  | nil =>
    intro l z out _ _
    obtain ⟨w, hw⟩ := replay_flushTokens [eobToken] l out z
    rw [List.append_nil]
    exact hw.trans (replay_eobToken l z.toNat w out)
  | cons c cs ih =>
    intro l z out hl hz
    rw [List.length_cons] at hz
    have hc : l.getD (rankIn l c) 0 = c := getD_rankIn hl c
    have hperm : (moveToFront l c).Perm identityBytes :=
      encodeByte_list ⟨l, z, []⟩ c ▸ encodeByte_perm ⟨l, z, []⟩ c hl
    rw [encodeBlock_cons]
    by_cases hk : rankIn l c = 0
    · have hz1 : (z + 1).toNat = z.toNat + 1 := BitVec.toNat_add_of_lt (by simp; omega)
      have hstep : encodeByte ⟨l, z, []⟩ c = ⟨l, z + 1, []⟩ := by simp [encodeByte, hk, moveToFront_of_front hl hk]
      rw [hstep, ih l (z + 1) out hl (by omega), hz1, List.replicate_succ', ← hc, hk]
      simp
    · have hstep : encodeByte ⟨l, z, []⟩ c =
          Encoder.prepend (flushTokens z ++ tokensOfRank (rankIn l c)) ⟨moveToFront l c, 0, []⟩ := by
        rw [encodeByte_eq _ c rfl, flushTokens_eq_runTokens]
        simp [Encoder.prepend, hk]
      obtain ⟨w, hw⟩ := replay_flushTokens
        (tokensOfRank (rankIn l c) ++ (encodeBlock ⟨moveToFront l c, 0, []⟩ cs).toks) l out z
      rw [hstep, encodeBlock_prepend, Encoder.prepend, List.append_assoc, hw,
        replay_tokensOfRank _ _ _ _ _ (Nat.pos_of_ne_zero hk) (rankIn_le l c), hc, ← moveToFront,
        ih _ 0 _ hperm (by simp; omega)]
      simp

/-- Settles O48: the list before is a permutation, so the tokens of the block decode to its bytes. -/
theorem mtfblkTokensDecodeToTheBytes : Obligations.MtfblkTokensDecodeToTheBytes := by
  intro s hf hc hv hp hz
  have hlen : (encodeBlock s.encoder (bwtBytes s)).list.length = 256 :=
    length_encodeBlock_list _ _ (length_mtfList s)
  refine ⟨_, (encodeBlock s.encoder (bwtBytes s)).toks, exec_mtfblk hf hc hv hz, rfl, ?_⟩
  have hfront : s.mtfList.getD 0 0 = s.mtfAt 0 := by
    rw [List.getD_eq_getElem?_getD, getElem?_mtfList s 0 (by decide), Option.getD_some]
  have hlist : listOf (answered (s.withEncoder (encodeBlock s.encoder (bwtBytes s))) 0) =
      (encodeBlock s.encoder (bwtBytes s)).list :=
    (mtfList_eq_listOf _).symm.trans (mtfList_withEncoder s _ hlen)
  rw [hlist, ← mtfList_eq_listOf, ← hfront]
  exact replay_encodeBlock (bwtBytes s) s.mtfList s.zrun [] ((isPermutation_iff s).mp hp) (by rwa [length_bwtBytes])

end Sys2Proof.Machine
end

section
/-! PROOFS of the family 43_memory_access.md: every command of it makes its checks, the last of them on its index, and
then reads or writes the element its index names. -/

namespace Sys2Proof.Machine

open Sys2Proof.Safety

/-! ## The checks of the memory access commands (60_exceptions.md R243, R247, R251, R252)

Whatever such a command checks first, its last check is that an operand is in range. -/

theorem firstError_append {cs : List (Bool × Err)} (h : firstError cs = none) (ds : List (Bool × Err)) :
    firstError (cs ++ ds) = firstError ds := by
  induction cs with
  | nil => rfl
  | cons c cs ih =>
    obtain ⟨b, e⟩ := c
    cases b with
    | false => exact ih h
    | true => exact absurd h (Option.some_ne_none e)

section
variable {s : State} {i : Instr} {cs : List (Bool × Err)} {bad : Bool}

theorem exec_errs_of_range (hf : s.status.fault = false) (hi : checksOf s i = cs ++ [outOfRange bad])
    (hp : firstError cs = none) (hb : bad = true) : exec i s = .next (errored s 3 (opInfo (opcode i))) :=
  exec_errs i .range hf (by rw [hi, firstError_append hp, hb]; rfl)

theorem exec_answers_in_range (hf : s.status.fault = false) (hi : checksOf s i = cs ++ [outOfRange bad])
    (hp : firstError cs = none) (hb : bad = false) : exec i s = .next (answered (effectOf s i) (dataOf s i)) :=
  exec_answers i hf (by rw [hi, firstError_append hp, hb]; rfl)

theorem exec_errs_of_small_block (hf : s.status.fault = false) (hi : checksOf s i = s.needConfig :: s.needLarge :: cs)
    (hc : s.status.cfgValid = true) (hN : s.blksz.toNat < 64) :
    exec i s = .next (errored s 5 (opInfo (opcode i))) :=
  exec_errs i .smallBlock hf (by simp [hi, firstError_cons, State.needConfig, State.needLarge, hc, hN])

theorem exec_errs_of_no_stripe (hf : s.status.fault = false)
    (hi : checksOf s i = s.needConfig :: s.needLarge :: s.needStripe :: cs) (hc : s.status.cfgValid = true)
    (hN : 64 ≤ s.blksz.toNat) (hv : s.status.stripeValid = false) :
    exec i s = .next (errored s 4 (opInfo (opcode i))) :=
  exec_errs i .sequence hf
    (by simp [hi, firstError_cons, State.needConfig, State.needLarge, State.needStripe, hc, hN, hv])

theorem needConfig_pass (hc : s.status.cfgValid = true) : firstError [s.needConfig] = none := by
  simp [firstError_eq_none_iff, hc]

theorem needStripe_pass (hc : s.status.cfgValid = true) (hN : 64 ≤ s.blksz.toNat) (hv : s.status.stripeValid = true) :
    firstError [s.needConfig, s.needLarge, s.needStripe] = none := by
  simp [firstError_eq_none_iff, hc, hN, hv]

theorem needStage_pass {st : RsStage} (hc : s.status.cfgValid = true) (hst : s.status.rsStage = st) :
    firstError [s.needConfig, s.needStage st] = none := by
  simp [firstError_eq_none_iff, hc, hst]

theorem bigordValid_pass (hc : s.status.cfgValid = true) (hv : s.status.bigordValid = true) :
    firstError [s.needConfig, (!s.status.bigordValid, .sequence)] = none := by
  simp [firstError_eq_none_iff, hc, hv]

theorem needMtf_pass (hv : s.status.mtfValid = true) : firstError [s.needMtf] = none := by
  simp [firstError_eq_none_iff, hv]

end

/-! ## Bytes written to consecutive addresses (R190, R191) -/

section
variable {w : Nat} (init : Nat → BitVec w) (m : Memory w) (lo x : Nat)

theorem Memory.read_load_nil : Memory.read init (Memory.load m lo []) x = Memory.read init m x :=
  Memory.read_load_of_not_mem init m lo x [] (Nat.lt_or_ge x lo)

/-- The first value goes to the lowest address, the others follow it. -/
theorem Memory.read_load_cons (v : BitVec w) (vs : List (BitVec w)) :
    Memory.read init (Memory.load m lo (v :: vs)) x =
      if x = lo then v else Memory.read init (Memory.load m (lo + 1) vs) x := by
  by_cases h : lo ≤ x ∧ x < lo + (vs.length + 1)
  · rw [Memory.read_load_of_mem init m lo x (v :: vs) h.1 (by rw [List.length_cons]; omega), List.getElem_cons]
    obtain rfl | hne := eq_or_ne x lo
    · simp
    · rw [dif_neg (by omega), if_neg hne, Memory.read_load_of_mem init m (lo + 1) x vs (by omega) (by omega)]
      simp only [Nat.sub_sub]
  · rw [Memory.read_load_of_not_mem init m lo x (v :: vs) (by rw [List.length_cons]; omega), if_neg (by omega),
      Memory.read_load_of_not_mem init m (lo + 1) x vs (by omega)]

end

/-- Settles O22: its checks in order, and the bytes of `bytesOf` one after the other. -/
theorem blkwr4WritesFourBytes : Obligations.Blkwr4WritesFourBytes := by
  refine fun a w => ⟨decodeOfEncodeIsIdentity (.blkwr4 a w), fun s hf => ⟨exec_errs_of_unconfigured hf rfl,
    fun hc hr => exec_errs_of_range hf rfl (needConfig_pass hc) (decide_eq_true hr), fun hc hr => ?written⟩⟩
  case written =>
    refine ⟨Memory.load s.block a.toNat (bytesOf w),
      exec_answers_in_range hf rfl (needConfig_pass hc) (decide_eq_false hr.not_gt), fun x => ?_⟩
    simp only [bytesOf, Memory.read_load_cons, Memory.read_load_nil, Nat.add_assoc, Nat.reduceAdd, State.blockAt]

/-- Settles O21: its checks in order, and the one byte written. -/
theorem blkwrWritesOneByte : Obligations.BlkwrWritesOneByte := by
  refine fun a v => ⟨decodeOfEncodeIsIdentity (.blkwr a v), fun s hf => ⟨exec_errs_of_unconfigured hf rfl,
    fun hc hr => exec_errs_of_range hf rfl (needConfig_pass hc) (by simpa using hr), fun hc ha hv => ?written⟩⟩
  case written =>
    refine ⟨Memory.load s.block a.toNat [lowByte v],
      exec_answers_in_range hf rfl (needConfig_pass hc) (by simp [ha, hv]), fun x => ?_⟩
    rw [Memory.read_load_cons, Memory.read_load_nil, lowByte_eq_extract, State.blockAt]

/-! ## `BLKRD`, `PTRRD`, `BTRD`, `PTRWR` and `BTMARK` (R192 to R196) -/

/-- Settles O23: each makes its two checks and answers the element. -/
theorem blockPtrAndBtReadsReturnTheElement : Obligations.BlockPtrAndBtReadsReturnTheElement := by
  refine fun a => ⟨decodeOfEncodeIsIdentity (.blkrd a), decodeOfEncodeIsIdentity (.ptrrd a),
    decodeOfEncodeIsIdentity (.btrd a), fun s hf => ⟨fun hc => ?notConfigured,
      fun hc hr => ?blkRange, fun hc hr => ?blk, fun hc hr => ?ptrRange, fun hc hr => ?ptr,
      fun hc hr => ?btRange, fun hc hr => ?bt⟩⟩
  case notConfigured =>
    exact ⟨exec_errs_of_unconfigured hf rfl hc, exec_errs_of_unconfigured hf rfl hc,
      exec_errs_of_unconfigured hf rfl hc⟩
  case blkRange | ptrRange | btRange =>
    exact exec_errs_of_range hf rfl (needConfig_pass hc) (decide_eq_true hr)
  case blk =>
    rw [← setWidth_eq_append]
    exact exec_answers_in_range hf rfl (needConfig_pass hc) (decide_eq_false hr.not_ge)
  case ptr | bt =>
    exact exec_answers_in_range hf rfl (needConfig_pass hc) (decide_eq_false hr.not_gt)

/-- Settles O24: its checks in order, and `Memory.read_put` at every index. -/
theorem ptrwrWritesOneIndex : Obligations.PtrwrWritesOneIndex := by
  refine fun i v => ⟨decodeOfEncodeIsIdentity (.ptrwr i v), fun s hf => ⟨exec_errs_of_unconfigured hf rfl,
    fun hc hr => exec_errs_of_range hf rfl (needConfig_pass hc) (decide_eq_true hr), fun hc hr => ?written⟩⟩
  case written =>
    exact ⟨Memory.put s.ptr i.toNat v, exec_answers_in_range hf rfl (needConfig_pass hc) (decide_eq_false hr.not_gt),
      fun x => Memory.read_put _ _ _ x v⟩

/-- Settles O25: its checks in order, and `Memory.read_put` of the word read at the same index. -/
theorem btmarkSetsTheSortedBit : Obligations.BtmarkSetsTheSortedBit := by
  refine fun k => ⟨decodeOfEncodeIsIdentity (.btmark k), fun s hf => ⟨exec_errs_of_unconfigured hf rfl,
    exec_errs_of_stage hf rfl,
    fun hc hst hr => exec_errs_of_range hf rfl (needStage_pass hc hst) (decide_eq_true hr),
    fun hc hst hr => ?marked⟩⟩
  case marked =>
    refine ⟨Memory.put s.bt k.toNat (s.btAt k.toNat ||| sortedMask),
      exec_answers_in_range hf rfl (needStage_pass hc hst) (decide_eq_false hr.not_gt), fun x => ?_⟩
    rw [Memory.read_put]
    obtain rfl | hne := eq_or_ne x k.toNat
    · rfl
    · rw [if_neg hne, if_neg hne, State.btAt]

/-! ## `STRD` and `STWR` (R197, R198) -/

/-- Settles O27: its checks in order, and `stripeAt_tagStripe` at every index. -/
theorem stwrWritesTheWordAndItsMirror : Obligations.StwrWritesTheWordAndItsMirror := by
  refine fun p w => ⟨decodeOfEncodeIsIdentity (.stwr p w), fun s hf =>
    ⟨exec_errs_of_unconfigured hf rfl, exec_errs_of_small_block hf rfl, exec_errs_of_no_stripe hf rfl,
      fun hc hN hv hr => exec_errs_of_range hf rfl (needStripe_pass hc hN hv) (decide_eq_true hr),
      fun hc hN hv hr => ?tagged⟩⟩
  case tagged =>
    exact ⟨(s.tagStripe p.toNat w).stripe,
      exec_answers_in_range hf rfl (needStripe_pass hc hN hv) (decide_eq_false hr.not_ge),
      stripeAt_tagStripe s p.toNat w⟩

/-- Settles O26: its checks in order, and the word, which the answer holds by definition. -/
theorem strdReadsOneStripeWord : Obligations.StrdReadsOneStripeWord :=
  fun p => ⟨decodeOfEncodeIsIdentity (.strd p), fun _ hf =>
    ⟨exec_errs_of_unconfigured hf rfl, exec_errs_of_small_block hf rfl, exec_errs_of_no_stripe hf rfl,
      fun hc hN hv hr => exec_errs_of_range hf rfl (needStripe_pass hc hN hv) (decide_eq_true hr),
      fun hc hN hv hr => exec_answers_in_range hf rfl (needStripe_pass hc hN hv) (decide_eq_false hr.not_ge)⟩⟩

/-! ## `BORDRD` and `MTFRD` (R199, R200) -/

/-- Settles O28: its checks in order, and the entry zero-extended. -/
theorem bordrdReadsOneEntry : Obligations.BordrdReadsOneEntry := by
  refine fun j => ⟨decodeOfEncodeIsIdentity (.bordrd j), fun s hf => ⟨exec_errs_of_unconfigured hf rfl,
    fun hc hv => ?notOrdered,
    fun hc hv hr => exec_errs_of_range hf rfl (bigordValid_pass hc hv) (decide_eq_true hr), fun hc hv hr => ?entry⟩⟩
  case notOrdered =>
    exact exec_errs (.bordrd j) .sequence hf (by simp [checksOf, firstError_cons, State.needConfig, hc, hv])
  case entry =>
    rw [← setWidth_eq_append]
    exact exec_answers_in_range hf rfl (bigordValid_pass hc hv) (decide_eq_false hr.not_gt)

/-- Settles O29: its checks in order, none of them on the configuration, and the entry zero-extended. -/
theorem mtfrdReadsOneEntry : Obligations.MtfrdReadsOneEntry := by
  refine fun j => ⟨decodeOfEncodeIsIdentity (.mtfrd j), fun s hf => ⟨exec_errs_of_no_list hf rfl,
    fun hv hr => exec_errs_of_range hf rfl (needMtf_pass hv) (decide_eq_true hr), fun hv hr => ?entry⟩⟩
  case entry =>
    rw [← setWidth_eq_append]
    exact exec_answers_in_range hf rfl (needMtf_pass hv) (decide_eq_false hr.not_gt)

end Sys2Proof.Machine
end

section
/-! PROOFS of the family 44_system.md: what each system command answers, `CSRRD`, `CSRWR` and `CLRERR` in fault state
too. -/

namespace Sys2Proof.Machine

open Sys2Proof.Safety

/-! ## `NOP`, `CFG` and `CLEAR` (R220 to R222) -/

/-- Settles O13: it makes no check and has no effect. -/
theorem nopOnlyResponds : Obligations.NopOnlyResponds :=
  ⟨decodeOfEncodeIsIdentity .nop, fun _ hf => exec_answers .nop hf firstError_nil⟩

theorem Status.afterCfg_of_no_fault {f : Status} (hf : f.fault = false) :
    f.afterCfg = { Status.reset with cfgValid := true, mtfValid := true } :=
  congrArg (fun b => { Status.reset with cfgValid := true, mtfValid := true, fault := b }) hf

theorem Status.afterClear_of_no_fault {f : Status} (hf : f.fault = false) : f.afterClear = Status.reset :=
  congrArg (fun b => { Status.reset with fault := b }) hf

/-- Settles O14: its one check is that `n` is in range, and `mtfAt_initList` gives the list at every index. -/
theorem cfgConfigures : Obligations.CfgConfigures := by
  refine fun n => ⟨decodeOfEncodeIsIdentity (.cfg n), fun s hf =>
    ⟨fun hr => exec_errs_of_range hf rfl firstError_nil (decide_eq_true hr), fun hr => ?configured⟩⟩
  case configured =>
    refine ⟨s.initList.mtf, ?_, mtfAt_initList s⟩
    rw [exec_answers_in_range hf rfl firstError_nil (decide_eq_false hr.not_gt), effectOf, State.configure,
      Status.afterCfg_of_no_fault hf]
    rfl

/-- Settles O15: it makes no check, so its effect is the same when not configured. -/
theorem clearDeconfigures : Obligations.ClearDeconfigures := by
  refine ⟨decodeOfEncodeIsIdentity .clear, fun s hf => ?_⟩
  rw [exec_answers .clear hf firstError_nil, effectOf, State.deconfigure, Status.afterClear_of_no_fault hf]
  rfl

/-! ## The commands the fault gate lets through (60_exceptions.md R246) -/

section
variable {s : State} (i : Instr) (hx : gateExempt (opcode i) = true)
include hx

theorem exec_answers_of_exempt (hc : firstError (checksOf s i) = none) :
    exec i s = .next (answered (effectOf s i) (dataOf s i)) := by
  rw [exec_eq_command]
  exact command_answers _ _ _ s (gated_eq_false_of_exempt s _ hx) hc

theorem exec_errs_of_exempt (e : Err) (hc : firstError (checksOf s i) = some e) :
    exec i s = .next (errored s e.code (opInfo (opcode i))) := by
  rw [exec_eq_command]
  exact command_errs _ _ _ s e (gated_eq_false_of_exempt s _ hx) hc

end

/-! ## `CSRRD` and `CSRWR` (R223, R224) -/

/-- `CTRL` as the register word (10_state.md R34). -/
theorem setWidth_ofBool (b : Bool) : (BitVec.setWidth 32 (BitVec.ofBool b) : Word) = if b then 1 else 0 := by
  cases b <;> rfl

/-- The register read is the table of R23 at the register's number. -/
theorem csr_eq_getElem? (s : State) (n : Nat) : s.csr n = (csrs s)[n]? := by
  rw [csrs, ← pack_eq_statusWord, ← setWidth_ofBool]
  match n with
  | 0 | 1 | 2 | 3 | 4 | 5 | 6 | 7 | 8 | 9 => rfl
  | _ + 10 => rfl

/-- Settles O16: its one check is that the register exists, and the register read is `csr_eq_getElem?`. -/
theorem csrrdReadsTheRegister : Obligations.CsrrdReadsTheRegister := by
  refine fun r => ⟨decodeOfEncodeIsIdentity (.csrrd r), fun s => ⟨fun v hv => ?read, fun hr => ?absent⟩⟩
  case read =>
    rw [← csr_eq_getElem?] at hv
    have hc : firstError (checksOf s (.csrrd r)) = none := by simp [checksOf, firstError_cons, hv]
    have hd : dataOf s (.csrrd r) = v := by simp [dataOf, hv]
    rw [exec_answers_of_exempt (.csrrd r) rfl hc, hd, effectOf]
  case absent =>
    exact exec_errs_of_exempt (.csrrd r) rfl .csr (by simp [checksOf, firstError_cons, csr_isNone, hr])

/-- Both checks of `CSRWR` give `ERR_CSR`, so together they let register 4 through and no other. -/
theorem firstError_checksOf_csrwr (s : State) (r v : Word) :
    firstError (checksOf s (.csrwr r v)) = if r = 4 then none else some .csr := by
  split
  · next hr =>
    subst hr
    rfl
  · next hr =>
    have hn : (r.toNat != 4) = true := bne_iff_ne.mpr fun h => hr (BitVec.eq_of_toNat_eq h)
    simp [checksOf, firstError_cons, hn]

/-- Settles O17: register 4 passes the checks, and `irq` is the level of R250. -/
theorem csrwrWritesOnlyInterruptEnable : Obligations.CsrwrWritesOnlyInterruptEnable := by
  refine fun r v => ⟨decodeOfEncodeIsIdentity (.csrwr r v), fun s => ⟨fun hr => ⟨?written, rfl⟩, fun hr => ?refused⟩⟩
  case written =>
    exact exec_answers_of_exempt (.csrwr r v) rfl ((firstError_checksOf_csrwr s r v).trans (if_pos hr))
  case refused =>
    exact exec_errs_of_exempt (.csrwr r v) rfl .csr ((firstError_checksOf_csrwr s r v).trans (if_neg hr))

/-! ## `CLRERR` (R225) -/

theorem exec_clrerr (s : State) : exec .clrerr s = .next (answered s.clearError 0) :=
  exec_answers_of_exempt .clrerr rfl firstError_nil

/-- Where no error is recorded there is nothing to clear. -/
theorem clearError_eq_self {s : State} (hf : s.status.fault = false) (h : ErrorsConsistent s) : s.clearError = s := by
  obtain ⟨hseq, hinfo⟩ := h.cleared hf
  have hcode := h.code.mpr hf
  calc s.clearError
    _ = { s with
          status := { s.status with fault := s.status.fault }
          errcode := s.errcode
          errseq := s.errseq
          errinfo := s.errinfo } := by rw [hf, hcode, hseq, hinfo, State.clearError]
    _ = s := rfl

/-- Settles O18: it makes no check, and where no error is recorded `clearError_eq_self` leaves only the response. -/
theorem clrerrLeavesFaultState : Obligations.ClrerrLeavesFaultState := by
  refine ⟨decodeOfEncodeIsIdentity .clrerr, fun s => ⟨exec_clrerr s, fun t ht => ?irq, fun hf h => ?unchanged⟩⟩
  case irq =>
    rw [exec_clrerr] at ht
    injection ht with ht
    subst ht
    rfl
  case unchanged =>
    rw [exec_clrerr, clearError_eq_self hf h]

end Sys2Proof.Machine
end

section
/-! PROOFS of the family 60_exceptions.md: the fixed order of checks gives every word its status code, the code says how
the step ends, and the fault state with its interrupt. -/

namespace Sys2Proof.Machine

open Sys2Proof.Safety

/-! ## The checks of a command in their fixed order (60_exceptions.md R247, steps 3 to 7) -/

/-- The status code of a command after its checks: that of the first one that fails, 0 when none does. -/
def codeAfter : Option Err → BitVec 8
  | none => 0
  | some e => e.code

@[simp] theorem codeAfter_none : codeAfter none = 0 := rfl

@[simp] theorem codeAfter_some (e : Err) : codeAfter (some e) = e.code := rfl

theorem codeAfter_firstError_cons (b : Bool) (e : Err) (cs : List (Bool × Err)) :
    codeAfter (firstError ((b, e) :: cs)) = if b then e.code else codeAfter (firstError cs) := by
  cases b <;> rfl

/-- An operand that is a byte is its own low byte. -/
theorem eq_lowByte_iff {c : Word} (hc : c.toNat ≤ 255) (b : Byte) : b = lowByte c ↔ b.toNat = c.toNat := by
  rw [← BitVec.toNat_inj, lowByte, BitVec.toNat_setWidth, Nat.mod_eq_of_lt (by omega)]

/-- The lists of R242, R243 and R251 to R254 in the order of R247 are the checks each command makes. -/
theorem statusOf_eq_codeAfter (s : State) (i : Instr) : statusOf s i = codeAfter (firstError (checksOf s i)) := by
  cases i with
  | csrwr r v =>
    rw [firstError_checksOf_csrwr]
    by_cases hr : r = 4
    · subst hr
      rfl
    · have hn : (r.toNat == 4) = false := beq_eq_false_iff_ne.mpr fun h => hr (BitVec.eq_of_toNat_eq h)
      rw [if_neg hr]
      simp [statusOf, needsConfig, needsStripeSize, inSequence, inBounds, csrAllowed, hn, Err.code]
  | mtfb c =>
    by_cases hc : c.toNat ≤ 255
    · simp [statusOf, needsConfig, needsStripeSize, inSequence, inBounds, csrAllowed, runFits, checksOf,
        codeAfter_firstError_cons, State.needMtf, outOfRange, hc, hc.not_gt, eq_lowByte_iff hc, Err.code]
    · simp [statusOf, needsConfig, needsStripeSize, inSequence, inBounds, checksOf, codeAfter_firstError_cons,
        State.needMtf, outOfRange, hc, Nat.lt_of_not_le hc, Err.code]
  | _ =>
    simp [statusOf, needsConfig, needsStripeSize, inSequence, inBounds, csrAllowed, runFits, checksOf,
      codeAfter_firstError_cons, State.needConfig, State.needLarge, State.needStripe, State.needStage, State.needMtf,
      outOfRange, csr_isNone, Err.code]

/-! ## The gate, the rows and the decoder (R91, R246) -/

theorem gateRefuses_eq_gated (s : State) (op : BitVec 8) : gateRefuses s op = s.gated op := by
  simp [gateRefuses, State.gated, gateExempt, bne, Bool.and_assoc]

section
variable {cw : CommandWord}

/-- A word that decodes carries its command's opcode, above a zero `RSV`. -/
theorem opcode_of_decode {i : Instr} (hd : decode cw = .ok i) :
    opcode i = opField cw ∧ opInfo (opcode i) = infoField cw := by
  rw [← encodeOfDecodeIsIdentity cw i hd, infoField_encode, encode, opField_assemble]
  exact ⟨rfl, rfl⟩

/-- A word is the command of the row found for it. -/
theorem decode_of_find_row {r : Row} (h : rows.find? (Row.fits · cw) = some r) : decode cw = .ok (r.read cw) := by
  have hfit := List.find?_some (p := (Row.fits · cw)) h
  exact (wordIsCommandExactlyWhenARowFits.1 cw _).mpr ⟨r, List.mem_of_find?_eq_some h, hfit, rfl⟩

/-- A word that fits no row is no command. -/
theorem decode_of_unfit (h : ∀ r ∈ rows, r.fits cw = false) : ∃ e, decode cw = .error e := by
  cases hd : decode cw with
  | error e => exact ⟨e, rfl⟩
  | ok i =>
    obtain ⟨r, hr, hfit, -⟩ := (wordIsCommandExactlyWhenARowFits.1 cw i).mp hd
    simp [h r hr] at hfit

/-! ## The status code of a word (R247) -/

variable {s : State}

theorem statusOfWord_of_gated (hg : s.gated (opField cw) = true) : statusOfWord s cw = 6 :=
  if_pos ((gateRefuses_eq_gated s _).trans hg)

/-- Past the gate the rows decide, as the decoder does. -/
theorem statusOfWord_of_ungated (hg : s.gated (opField cw) = false) :
    ((∃ e, decode cw = .error e) ∧ statusOfWord s cw = 1) ∨
      ∃ i, decode cw = .ok i ∧ statusOfWord s cw = codeAfter (firstError (checksOf s i)) := by
  have hgate : ¬ gateRefuses s (cw.extractLsb' 120 8) = true := by rw [← opField, gateRefuses_eq_gated, hg]; decide
  rw [statusOfWord, if_neg hgate]
  cases hfind : rows.find? (Row.fits · cw) with
  | none => exact .inl ⟨decode_of_unfit fun r hr => by simpa using List.find?_eq_none.mp hfind r hr, rfl⟩
  | some r => exact .inr ⟨r.read cw, decode_of_find_row hfind, statusOf_eq_codeAfter s _⟩

/-! ## How a step ends (R244) -/

/-- A word taken ends, on the state it leaves, in the error of its status code, or with 0 in the effect of a command. -/
def EndsByStatus (s : State) (cw : CommandWord) (o : Outcome) : Prop :=
  (statusOfWord s cw ≠ 0 ∧ o = .next (errored s (statusOfWord s cw) (infoField cw))) ∨
    (statusOfWord s cw = 0 ∧ ∃ i, o = .next (answered (effectOf s i) (dataOf s i)))

theorem endsByStatus_errored {code : BitVec 8} (hst : statusOfWord s cw = code) (hne : code ≠ 0) :
    EndsByStatus s cw (.next (errored s code (infoField cw))) := by
  subst hst
  exact .inl ⟨hne, rfl⟩

theorem endsByStatus_exec {i : Instr} (hd : decode cw = .ok i) : EndsByStatus s cw (exec i s) := by
  obtain ⟨hop, hinfo⟩ := opcode_of_decode hd
  rw [exec_eq_command]
  cases hg : s.gated (opField cw) with
  | true =>
    rw [command_of_gated _ _ _ s (hop ▸ hg), raise_eq_errored, infoOf_eq_opInfo, hinfo]
    exact endsByStatus_errored (statusOfWord_of_gated hg) (by decide)
  | false =>
    obtain ⟨⟨e, he⟩, -⟩ | ⟨j, hj, hst⟩ := statusOfWord_of_ungated hg
    · exact nomatch hd.symm.trans he
    · obtain rfl : i = j := Except.ok.inj (hd.symm.trans hj)
      cases hc : firstError (checksOf s i) with
      | none => exact .inr ⟨by rw [hst, hc, codeAfter_none], i, command_answers _ _ _ s (hop ▸ hg) hc⟩
      | some e =>
        rw [command_errs _ _ _ s e (hop ▸ hg) hc, hinfo]
        exact endsByStatus_errored (by rw [hst, hc, codeAfter_some]) (code_ne_zero e)

theorem endsByStatus_reject {r : Reject} (hd : decode cw = .error r) : EndsByStatus s cw (rejectWord cw s) := by
  rw [rejectWord_eq]
  cases hg : s.gated (opField cw) with
  | true => exact endsByStatus_errored (statusOfWord_of_gated hg) (by decide)
  | false =>
    obtain ⟨-, hst⟩ | ⟨i, hi, -⟩ := statusOfWord_of_ungated hg
    · exact endsByStatus_errored hst (by decide)
    · exact nomatch hd.symm.trans hi

end

/-- Every step that takes a word ends as the word's status code says. -/
theorem step_endsByStatus {s : State} {cw : CommandWord} {rest : List CommandWord} (hc : s.cmds = cw :: rest) :
    EndsByStatus { s with cmds := rest } cw (step s) := by
  rw [step_of_command s cw rest hc]
  split
  · next i hd => exact endsByStatus_exec hd
  · next r hd => exact endsByStatus_reject hd

theorem statusOfWord_taken (s : State) (cw : CommandWord) (rest : List CommandWord) :
    statusOfWord { s with cmds := rest } cw = statusOfWord s cw := rfl

/-- The step of a word whose status code is not 0 is that error and nothing else. -/
theorem step_errs {s : State} {cw : CommandWord} {rest : List CommandWord} {code : BitVec 8} (hc : s.cmds = cw :: rest)
    (hst : statusOfWord s cw = code) (hne : code ≠ 0) :
    step s = .next (errored { s with cmds := rest } code (infoField cw)) := by
  obtain ⟨-, h⟩ | ⟨h0, -⟩ := step_endsByStatus hc
  · rw [h, statusOfWord_taken, hst]
  · exact absurd (hst.symm.trans h0) hne

theorem rsps_answered_effectOf (s : State) (i : Instr) (data : Word) :
    (answered (effectOf s i) data).rsps = s.rsps ++ [0#8 ++ 0#24 ++ data] := by
  obtain ⟨-, -, hrsps, -⟩ := effectOf_frame s i
  rw [← hrsps]
  rfl

/-- Every word taken is answered with its status code. -/
theorem step_responds {s : State} {cw : CommandWord} {rest : List CommandWord} (hc : s.cmds = cw :: rest) :
    ∃ (t : State) (data : Word), step s = .next t ∧ t.rsps = s.rsps ++ [statusOfWord s cw ++ 0#24 ++ data] := by
  obtain ⟨-, h⟩ | ⟨h0, i, h⟩ := step_endsByStatus hc
  · exact ⟨_, 0, h, rfl⟩
  · rw [statusOfWord_taken] at h0
    rw [h0]
    exact ⟨_, _, h, rsps_answered_effectOf _ i _⟩

/-- Settles O7: the status code of the rows is that of the decoder and its command's checks. -/
theorem checksAreMadeInTheirFixedOrder : Obligations.ChecksAreMadeInTheirFixedOrder :=
  fun _ _ _ => step_responds

/-- Settles O8: the code answered is the word's status code, and one other than 0 fixes the step. -/
theorem errorChangesOnlyTheErrorRegisters : Obligations.ErrorChangesOnlyTheErrorRegisters := by
  intro s t cw rest hc h
  obtain ⟨u, data, hu, hrsps⟩ := step_responds hc
  obtain rfl : t = u := Host.Outcome.next.inj (h.symm.trans hu)
  exact ⟨statusOfWord s cw, data, hrsps, fun hne => Host.Outcome.next.inj (h.symm.trans (step_errs hc rfl hne))⟩

/-! ## Words that are refused (R241, R246) -/

/-- Settles O5: outside fault state the gate is open, and a word that fits no row has status code 1. -/
theorem unfitWordRaisesIllegal : Obligations.UnfitWordRaisesIllegal := by
  intro s cw rest hc hf hfit
  have hst : statusOfWord s cw = 1 := by
    obtain ⟨e, he⟩ := decode_of_unfit hfit
    obtain ⟨-, hst⟩ | ⟨i, hi, -⟩ := statusOfWord_of_ungated (cw := cw) (gated_eq_false_of_no_fault s _ hf)
    · exact hst
    · exact nomatch he.symm.trans hi
  exact step_errs hc hst (by decide)

/-- An error in fault state changes nothing but `SEQ`. -/
theorem errored_of_fault {s : State} (hf : s.status.fault = true) (code : BitVec 8) (info : Word) :
    errored s code info = { s with seq := s.seq + 1, rsps := s.rsps ++ [code ++ 0#24 ++ 0#32] } := by
  have hs : { s.status with fault := true } = s.status := by rw [← hf]
  simp only [errored, hf, if_true, hs]

/-- Settles O9: the gate refuses the word with status code 6, decoded or not, and `FAULT` is set already. -/
theorem faultStateRefusesOtherWords : Obligations.FaultStateRefusesOtherWords := by
  intro s cw rest hc hf h3 h4 h5
  have hg : s.gated (opField cw) = true := by
    simp [State.gated, gateExempt, opField, hf, h3, h4, h5]
  rw [step_errs hc (statusOfWord_of_gated hg) (by decide)]
  exact congrArg Host.Outcome.next (errored_of_fault (s := { s with cmds := rest }) hf 6 (infoField cw))

/-! ## Operands out of their own bounds (R243, R253) -/

/-- A command whose checks pass has its operands within the bounds that need no state. -/
theorem wellFormed_of_checks {s : State} {i : Instr} (hc : firstError (checksOf s i) = none) : i.wellFormed = true := by
  cases i with
  | csrwr r v =>
    have hr : r = 4 := by simpa [firstError_checksOf_csrwr] using hc
    exact decide_eq_true hr
  | csrrd | blkwr | btrd | btmark | bordrd | mtfrd | mtfb =>
    simp only [firstError_eq_none_iff, checksOf, List.forall_mem_cons, outOfRange_passes, csr_isNone,
      Bool.or_eq_false_iff, decide_eq_false_iff_not, not_lt] at hc
    simp [Instr.wellFormed, hc]
  | _ => rfl

/-- Settles O12: a command answers only when its checks pass, and then it is well-formed. -/
theorem illFormedCommandNeverCompletes : Obligations.IllFormedCommandNeverCompletes := by
  intro i s hi
  obtain ⟨t, ht⟩ := exec_next i s
  obtain ⟨code, hne, -, rfl⟩ | ⟨hc, -⟩ := exec_errs_or_answers ht
  · exact ⟨_, code, ht, rfl, hne⟩
  · simp [wellFormed_of_checks hc] at hi

/-! ## The return from the fault state and the interrupt (R248, R250) -/

/-- Settles O19: `CLRERR` clears `FAULT` and the error registers, so that `CLEAR` is let through and clears the rest. -/
theorem clrerrThenClearRestoresReset : Obligations.ClrerrThenClearRestoresReset := by
  intro s
  refine ⟨_, _, exec_clrerr s, clearDeconfigures.2 _ rfl, ?_⟩
  simp [answered, State.clearError, State.reset, Status.reset, BitVec.add_assoc]

/-- Settles O20: `irq` is the level by definition, and no command but `CSRWR` of `CTRL` writes `IE`. -/
theorem interruptIsFaultAndEnable : Obligations.InterruptIsFaultAndEnable := by
  refine ⟨fun _ => rfl, fun s t => (clrerrLeavesFaultState.2 s).2.1 t, fun s t v h => ?written, ?level, rfl⟩
  case written =>
    obtain ⟨hrun, hirq⟩ := ((csrwrWritesOnlyInterruptEnable 4 v).2 s).1 rfl
    obtain rfl := Host.Outcome.next.inj (h.symm.trans hrun)
    exact hirq
  case level =>
    intro s t i h hie hf hi
    obtain ⟨-, -, -, hkeep | ⟨v, hv⟩, -⟩ := onlyTheListedCommandsWrite i s t h
    · rw [State.irq, hf, hkeep, hie]
      rfl
    · exact absurd hv (hi v)

end Sys2Proof.Machine
end

section
/-! PROOFS of the family 70_reset_and_hazards.md: no step stops the block, and every step keeps the canonical form of the
memories. -/

namespace Sys2Proof.Machine

open Sys2Proof.Safety

/-! ## The block goes on (R285, R292, R293) -/

/-- Settles O11: with no word waiting nothing happens, and a word is a command, which answers, or it is rejected. -/
theorem everyStepContinues : Obligations.EveryStepContinues := by
  intro s
  rw [Continues]
  cases hc : s.cmds with
  | nil => exact ⟨s, step_of_no_command s hc⟩
  | cons cw rest =>
    rw [step_of_command s cw rest hc]
    cases decode cw with
    | ok i => exact exec_next i { s with cmds := rest }
    | error r => exact ⟨_, rejectWord_eq cw { s with cmds := rest }⟩

/-! ## The canonical form of the memories (log entry 1) -/

theorem wf_foldl_bumpCount (key : Nat → Nat) (l : List Nat) (bt : Memory 32) (h : bt.wf = true) :
    (l.foldl (fun bt i => bumpCount bt (key i)) bt).wf = true := by
  induction l generalizing bt with
  | nil => exact h
  | cons i l ih => exact ih _ (Memory.put_keeps_wf bt (key i) _ h)

theorem wf_scatterAll (key : Nat → Nat) (mems : Memory 32 × Memory 32) (hbt : mems.1.wf = true)
    (hptr : mems.2.wf = true) (l : List Nat) :
    (scatterAll key l mems).1.wf = true ∧ (scatterAll key l mems).2.wf = true := by
  induction l with
  | nil => exact ⟨hbt, hptr⟩
  | cons i l ih => exact ⟨Memory.put_keeps_wf _ (key i) _ ih.1, Memory.put_keeps_wf _ _ (BitVec.ofNat 32 i) ih.2⟩

section
variable {s t : State}

theorem SameData.memoriesCanonical (hd : SameData s t) (h : MemoriesCanonical s) : MemoriesCanonical t where
  block := by rw [hd.block]; exact h.block
  stripe := by rw [hd.stripe]; exact h.stripe
  ptr := by rw [hd.ptr]; exact h.ptr
  bt := by rw [hd.bt]; exact h.bt
  bord := by rw [hd.bord]; exact h.bord
  mtf := by rw [hd.mtf]; exact h.mtf

theorem memoriesCanonical_tagStripe (p : Nat) (v : Word) (h : MemoriesCanonical s) :
    MemoriesCanonical (s.tagStripe p v) := by
  have hword : (Memory.put s.stripe p v).wf = true := Memory.put_keeps_wf _ _ _ h.stripe
  refine { h with stripe := ?_ }
  rw [State.tagStripe_stripe]
  split
  · exact Memory.put_keeps_wf _ _ _ hword
  · exact hword

theorem memoriesCanonical_countKeys (h : MemoriesCanonical s) : MemoriesCanonical s.countKeys :=
  { h with bt := wf_foldl_bumpCount s.key _ _ (Memory.load_keeps_wf s.bt 0 _ h.bt) }

theorem memoriesCanonical_cumulate (h : MemoriesCanonical s) : MemoriesCanonical s.cumulate :=
  { h with bt := Memory.load_keeps_wf s.bt 0 _ h.bt }

theorem memoriesCanonical_scatter (h : MemoriesCanonical s) : MemoriesCanonical s.scatter := by
  obtain ⟨hbt, hptr⟩ := wf_scatterAll s.key (s.bt, s.ptr) h.bt h.ptr (List.range s.size)
  exact { h with bt := hbt, ptr := hptr }

/-- A command writes a memory only by `put` and `load`, and both keep its form; no check is needed. -/
theorem memoriesCanonical_effectOf (i : Instr) (h : MemoriesCanonical s) : MemoriesCanonical (effectOf s i) := by
  cases i with
  | cfg | mtfinit | mtfb | mtfblk => exact { h with mtf := Memory.load_keeps_wf s.mtf 0 _ h.mtf }
  | blkwr a | blkwr4 a => exact { h with block := Memory.load_keeps_wf s.block a.toNat _ h.block }
  | ptrwr j v => exact { h with ptr := Memory.put_keeps_wf s.ptr j.toNat v h.ptr }
  | btmark k => exact { h with bt := Memory.put_keeps_wf s.bt k.toNat _ h.bt }
  | stwr p v => exact memoriesCanonical_tagStripe p.toNat v h
  | stbuild =>
    exact { h with stripe := Memory.load_keeps_wf _ s.size _ (Memory.load_keeps_wf s.stripe 0 _ h.stripe) }
  | rscnt => exact memoriesCanonical_countKeys h
  | rscum => exact memoriesCanonical_cumulate h
  | rssct => exact memoriesCanonical_scatter h
  | rsort => exact memoriesCanonical_scatter (memoriesCanonical_cumulate (memoriesCanonical_countKeys h))
  | bigord => exact { h with bord := Memory.load_keeps_wf s.bord 0 _ h.bord }
  | _ => exact ⟨h.block, h.stripe, h.ptr, h.bt, h.bord, h.mtf⟩

end

/-- Settles O53: whatever its operands, every effect writes the memories in their form. -/
theorem stepsKeepMemoriesCanonical : Obligations.StepsKeepMemoriesCanonical := by
  intro s t hs h
  refine step_keeps_of_effect MemoriesCanonical ?same ?effect hs h
  case same => exact fun s t hd hs => hd.memoriesCanonical hs
  case effect => exact fun s i hs _ => memoriesCanonical_effectOf i hs

end Sys2Proof.Machine
end
